-- ==== Sys2Proof/Word.lean ====
section
/-! DEFINITION. The word types of FC-CORE (00_scope.md R10, R11, R12). -/

namespace Sys2Proof

/-- A byte: a symbol, a byte of BUF (R10, R44). -/
abbrev Byte := BitVec 8

/-- A 32-bit word: a register, a command word, an LZW code word (R10, R23, R90). -/
abbrev Word := BitVec 32

/-- A bit string of R12: the head is the first bit emitted; `true` is bit 1. -/
abbrev BitString := List Bool

end Sys2Proof
end

