-- ==== Sys2Proof/Syntax.lean ====
section
/-! DEFINITION. The instructions of FC-CORE: the four commands of 30_encoding.md R91. -/

namespace Sys2Proof

/-- The four commands (R2, R91). A command has no operand fields: its operands are the latched operand
registers (R94). -/
inductive Instr where
  /-- Huffman compress (R160). -/
  | henc
  /-- Huffman decompress (R200). -/
  | hdec
  /-- LZW compress (R240). -/
  | lenc
  /-- LZW decompress (R270). -/
  | ldec
  deriving DecidableEq, Repr

/-- The value of the field OP (R90, R91). -/
def Instr.opcode : Instr → BitVec 4
  | .henc => 1
  | .hdec => 2
  | .lenc => 3
  | .ldec => 4

end Sys2Proof
end

