-- ==== Sys2Proof/WellFormed.lean ====
section
/-! DEFINITION. Well-formedness of commands and of command words (30_encoding.md R90, R91, R92). -/

namespace Sys2Proof

/-- An opcode that names a command (R91): 1 to 4. -/
def opcodeWf (op : BitVec 4) : Bool := 1 ≤ op.toNat && op.toNat ≤ 4

/-- A legal command word: MBZ is zero and OP names a command (R90, R91). -/
def commandWordWf (w : Word) : Bool := w.extractLsb' 4 28 == 0 && opcodeWf (w.extractLsb' 0 4)

/-- A well-formed instruction. A command has no operand field to check, so only its opcode is. -/
def Instr.wf (i : Instr) : Bool := opcodeWf i.opcode

end Sys2Proof
end

