-- ==== Sys2Proof/Decode.lean ====
section
/-! DEFINITION. The decoder of command words and, after it, the encoder (30_encoding.md R90, R91, R92). -/

namespace Sys2Proof

/-- The field OP, bits [3:0] of a command word (R90). -/
def opField (w : Word) : BitVec 4 := w.extractLsb' 0 4

/-- The field MBZ, bits [31:4] of a command word (R90). -/
def mbzField (w : Word) : BitVec 28 := w.extractLsb' 4 28

/-- Why a word is no command word (R92). Both reasons are reported alike, as ILLEGAL_COMMAND (R131). -/
inductive DecodeReject where
  /-- A nonzero bit in MBZ, bits [31:4]. -/
  | nonzeroMbz (bits : BitVec 28)
  /-- MBZ is zero and OP is 0 or 5 to 15. -/
  | illegalOpcode (op : BitVec 4)
  deriving DecidableEq, Repr

/-- The command that the field OP names (R91). -/
def decodeOp (op : BitVec 4) : Except DecodeReject Instr :=
  if op = 1 then .ok .henc
  else if op = 2 then .ok .hdec
  else if op = 3 then .ok .lenc
  else if op = 4 then .ok .ldec
  else .error (.illegalOpcode op)

/-- Decoding compares all 32 bits (R91): a word selects a command only with MBZ = 0. -/
def decode (w : Word) : Except DecodeReject Instr :=
  if mbzField w = 0 then decodeOp (opField w) else .error (.nonzeroMbz (mbzField w))

/-- The instruction of a table row whose `nbits` bits are `w`; the bits above `nbits` are 0. A command word
is one 32-bit word, delivered whole as the data of the CMD write (R77, R90). -/
def decodeTableWord (nbits w : Nat) : Option Instr :=
  if w % 2 ^ nbits < 2 ^ 32 then
    match decode (BitVec.ofNat 32 (w % 2 ^ nbits)) with
    | .ok i => some i
    | .error _ => none
  else none

/-- The command word of a command: OP in bits [3:0], MBZ zero (R90, R91). -/
def encode (i : Instr) : Word := (0 : BitVec 28) ++ i.opcode

end Sys2Proof
end

