-- ==== Sys2Proof/Config.lean ====
section
/-! DEFINITION. The implementation parameters of 00_scope.md R9 and the free values (the "draws" of
93_implementation_defined.md): opaque constants, of which nothing can be proved but their type. -/

namespace Sys2Proof

/-- The named parameters of R9, in a form in which only legal values exist (DESIGN CHOICE, log entry 8). -/
structure Params where
  /-- MEM_SIZE − 1, the value of the register MEM_LAST (R34); so 1 ≤ MEM_SIZE ≤ 2^32. -/
  memLast : Word
  /-- LZW_DICT_CAP − 256; so 256 ≤ LZW_DICT_CAP ≤ 2^32 − 1. -/
  dictSpare : Fin 4294967040
  /-- CSR_BASE / 256; so CSR_BASE is aligned to 256 bytes. -/
  csrPage : Nat
  /-- BUF_HOST_BASE. -/
  bufHostBase : Nat
  deriving DecidableEq, Repr

/-- MEM_SIZE (R9). -/
def Params.memSize (p : Params) : Nat := p.memLast.toNat + 1

/-- LZW_DICT_CAP (R9). -/
def Params.dictCap (p : Params) : Nat := p.dictSpare.val + 256

/-- CSR_BASE (R9). -/
def Params.csrBase (p : Params) : Nat := 256 * p.csrPage

namespace Config

/-- MEM_SIZE − 1 of the instance (R9: OPEN). Log entry 8. -/
opaque memLast : BitVec 32

/-- LZW_DICT_CAP − 256 of the instance (R9: OPEN). Log entry 8. -/
opaque dictSpare : Fin 4294967040

/-- CSR_BASE / 256 of the instance (R9: OPEN, platform). Log entry 8. -/
opaque csrPage : Nat

/-- BUF_HOST_BASE of the instance (R9: OPEN, platform). Log entry 8. -/
opaque bufHostBase : Nat

/-- The parameters of the instance that `State.reset` is the reset of. -/
def params : Params :=
  { memLast := memLast, dictSpare := dictSpare, csrPage := csrPage, bufHostBase := bufHostBase }

/-- What each byte of BUF holds at power-on (R340, I28): free, one value per address. DESIGN CHOICE, log entry 1. -/
opaque bufPowerOn : Nat → BitVec 8

/-- The `n`-th free byte (I27, I30, I33, I34, and a byte read under I26). Log entry 7. -/
opaque freeByte : Nat → BitVec 8

/-- The `n`-th free word (I8, I22, I25, I33). Log entry 7. -/
opaque freeWord : Nat → BitVec 32

/-- The `n`-th free bit: the kind of a completion under R350 (I33). Log entry 7. -/
opaque freeBool : Nat → Bool

/-- The `n`-th free choice among the 27 error words of R302 and 0 (I33, kept within I44). DEDUCED, unsafe:
log entry 9. -/
opaque freeErrIndex : Nat → Fin 28

end Config

end Sys2Proof
end

