-- ==== Sys2Proof/Machine/State.lean ====
section
/-! DEFINITION. The state of FC-CORE as plain data (10_state.md, 70_reset_and_hazards.md R340), the reasons a
step can stop, and the state after reset. -/

namespace Sys2Proof.Machine

/-- The error kinds and sub-causes of 60_exceptions.md R301 and R302, one constructor per row of R302. -/
inductive Cause where
  | hencEmpty
  | descEmpty | descVersion | descTruncated | descDupSymbol | descTooManyInternal
  | descPadNonzero | descTrailing
  | payEmpty | payHeader | payShort | payPadNonzero | payIncomplete | paySingleLeafBits
  /-- MALFORMED_STREAM / LENGTH_MISMATCH. -/
  | hdecLengthMismatch
  | partialWord | firstCode | undefinedCode
  /-- CORRUPT_STREAM / LENGTH_MISMATCH. -/
  | ldecLengthMismatch
  | dictFull
  | dstFull | auxFull
  | badOpcode
  | srcRange | dstRange | auxRange | overlap
  deriving DecidableEq, Repr

/-- An error that a command raises: its cause and the value for ERR_OFFSET (00_scope.md R13). -/
structure Raise where
  cause : Cause
  offset : Nat
  deriving DecidableEq, Repr

/-- BUF as the bytes written so far, in strictly rising order of address. An unlisted byte was never
written: it holds no datum here and reads as its power-on draw (R340, I28; DESIGN CHOICE, log entry 1). -/
abbrev Memory := List Host.Cell

/-- The canonical form of BUF: addresses strictly rising, all below `size`. -/
def Memory.wf (size : Nat) (m : Memory) : Bool :=
  decide (m.Pairwise (fun a b => a.1 < b.1)) && m.all (fun c => decide (c.1 < size))

/-- A tree-node record of NODE (R38): a field exists only for the kind it is meaningful for. -/
inductive Node where
  | leaf (weight : Nat) (sym : Byte)
  | internal (weight left right : Nat)
  deriving DecidableEq, Repr

/-- The phases of HENC, in their order (R22, R160). -/
inductive HencPhase where
  | check | count | build | codegen | size | serialize | pack
  deriving DecidableEq, Repr

/-- The phases of HDEC, in their order (R22, R200). -/
inductive HdecPhase where
  | check | parse | header | walk | finish
  deriving DecidableEq, Repr

/-- The phases of LENC, in their order (R22, R240). -/
inductive LencPhase where
  | check | scan | flush
  deriving DecidableEq, Repr

/-- The phases of LDEC, in their order (R22, R270). -/
inductive LdecPhase where
  | check | first | loop | finish
  deriving DecidableEq, Repr

/-- SEQ.op and SEQ.phase together (R22): a phase names its command. -/
inductive Phase where
  | henc (p : HencPhase)
  | hdec (p : HdecPhase)
  | lenc (p : LencPhase)
  | ldec (p : LdecPhase)
  deriving DecidableEq, Repr

/-- SEQ.state (R22). -/
inductive SeqState where
  | idle | busy
  deriving DecidableEq, Repr

/-- The operand registers of R28, and with them the copy of R132. -/
structure Operands where
  srcAddr : Word
  srcLen : Word
  dstAddr : Word
  dstLen : Word
  auxAddr : Word
  auxLen : Word
  expLen : Word
  deriving DecidableEq, Repr

/-- All operand registers at their reset value (R28, R340). -/
def Operands.zero : Operands :=
  { srcAddr := 0, srcLen := 0, dstAddr := 0, dstLen := 0, auxAddr := 0, auxLen := 0, expLen := 0 }

/-- The internal storage of R37 to R42 and the local variables of a command that live from one phase to
the next (R43). -/
structure Store where
  /-- FREQ (R37). -/
  freq : Vector Nat 256
  /-- NODE; NNODE is its length (R38). -/
  node : List Node
  /-- ROOT (R38). -/
  root : Nat
  /-- PQ, a set of node indices (R39). -/
  pq : List Nat
  /-- CODE; `len` of an entry is the length of its bit string (R40). -/
  code : Vector (Option BitString) 256
  /-- STK, its top first (R40). -/
  stk : List (Nat × BitString)
  /-- SEEN (R41). -/
  seen : BitVec 256
  /-- NINT (R41). -/
  nint : Nat
  /-- DICT, the entry of code c at position c; NEXT is its length (R42). -/
  dict : List (List Byte)
  /-- L of R163, Lr of R205. -/
  leaves : Nat
  /-- maxlen of R169, maxdepth of R202. -/
  maxDepth : Nat
  /-- H of R169 and R206. -/
  padBits : Nat
  /-- N of R169. -/
  payLen : Nat
  /-- M of R169. -/
  descLen : Nat
  /-- pos of R202. -/
  bitPos : Nat
  /-- D of R206. -/
  dataBits : Nat
  /-- n of R208. -/
  walkAt : Nat
  /-- p of R207, R208 and R272. -/
  outPos : Nat
  /-- w of R241. -/
  cand : List Byte
  /-- count of R241. -/
  count : Nat
  /-- prev of R273. -/
  prev : List Byte
  deriving DecidableEq, Repr

/-- The 256 seed entries of DICT: code c is the one-byte string (c) (R42, R241, R272). -/
def seedDict : List (List Byte) := (List.range 256).map fun c => [BitVec.ofNat 8 c]

/-- The internal storage as it is created at every command start: the start values that R43 lists. It lists none for
ROOT and the local variables (`root`, `leaves`, `maxDepth`, `padBits`, `payLen`, `descLen`, `bitPos`, `dataBits`,
`walkAt`, `outPos`, `cand`, `count`, `prev`): they are 0 or the empty string here, which no program can observe
(DESIGN CHOICE, log entry 28). -/
def Store.fresh : Store :=
  { freq := Vector.replicate 256 0, node := [], root := 0, pq := [],
    code := Vector.replicate 256 none, stk := [], seen := 0, nint := 0, dict := seedDict,
    leaves := 0, maxDepth := 0, padBits := 0, payLen := 0, descLen := 0, bitPos := 0, dataBits := 0,
    walkAt := 0, outPos := 0, cand := [], count := 0, prev := [] }

/-- A host access after the platform's address decoder: an offset in the register window (R23) or a BUF
address (R44), with the width of the access in bytes. -/
inductive Access where
  | regRead (off width : Nat)
  | regWrite (off width : Nat) (data : Word)
  | bufRead (addr width : Nat)
  | bufWrite (addr width : Nat) (data : Byte)
  deriving DecidableEq, Repr

/-- A host bus transaction at a host address (R66, R121); `data` is none for a read. -/
structure Transaction where
  addr : Nat
  width : Nat
  data : Option Word
  deriving DecidableEq, Repr

/-- The events of 60_exceptions.md R316. -/
inductive Event where
  /-- A host access at a host address. -/
  | bus (t : Transaction)
  /-- A host access already decoded to a window. -/
  | access (a : Access)
  /-- A turn of the core: the running command's current phase (DEDUCED, log entry 4). -/
  | core
  /-- The platform's reset input (R340, R341). -/
  | reset
  deriving DecidableEq, Repr

/-- The state of FC-CORE with its BUF, its instance parameters and the events still to come. -/
structure State where
  /-- The parameters of the instance (R9); no event changes them. -/
  params : Params
  /-- CTRL.IRQ_EN (R25). -/
  irqEn : Bool
  /-- CTRL.LENCHK (R25). -/
  lenchk : Bool
  /-- STATUS.DONE (R26). -/
  done : Bool
  /-- STATUS.ERROR (R26). -/
  error : Bool
  /-- STATUS.CMD_REJECTED (R26). -/
  cmdRejected : Bool
  /-- STATUS.PROGRESS while IDLE; values 5 to 7 do not exist (R26, R148). -/
  progress : Fin 5
  /-- The operand registers (R28). -/
  operands : Operands
  /-- RES_LEN (R29). -/
  resLen : Word
  /-- RES_AUX_LEN (R29). -/
  resAuxLen : Word
  /-- INFO (R30). -/
  info : Word
  /-- DICT_SIZE (R31). -/
  dictSize : Word
  /-- ERR (R32). -/
  err : Word
  /-- ERR_OFFSET (R33). -/
  errOffset : Word
  /-- SEQ.state (R22). -/
  seqState : SeqState
  /-- SEQ.op and SEQ.phase (R22), meaningful only while BUSY. -/
  phase : Phase
  /-- The latched operands op.SRC_ADDR to op.EXP_LEN (R132). -/
  latched : Operands
  /-- op.LENCHK (R132). -/
  latchedLenchk : Bool
  /-- The internal storage (R37 to R43). -/
  store : Store
  /-- BUF (R44). -/
  mem : Memory
  /-- The model's own: the host wrote a byte of an active input region (R350). -/
  inTouched : Bool
  /-- The model's own: the host wrote a byte of an active output region (R352). -/
  outTouched : Bool
  /-- The model's own: how many free values have been taken. -/
  draws : Nat
  /-- The model's own: what the latest host read answered. -/
  hostData : Word
  /-- The model's own: the events still to come, the next one first. -/
  events : List Event
  deriving DecidableEq, Repr

/-- The reasons the machine stops. FC-CORE itself has no trap: its errors are error completions (R320). -/
inductive Fault where
  /-- A host access to an address in neither window (R66), raised by the bus. Safe: the spec says nothing
  of such an address (DESIGN CHOICE, log entry 11). -/
  | noSuchHostAddress
  deriving DecidableEq, Repr

/-- The reasons the model has no transition. -/
inductive Refusal where
  /-- An instruction that the model gives no meaning: none is left. Safe. -/
  | notModelled (mnemonic : String)
  /-- A host BUF access wider than a byte (R65, I45 asks for this refusal; log entry 12), raised by the bus. Safe. -/
  | wideBufAccess
  /-- A host address in both windows, which a platform should not have, raised by the bus (DESIGN CHOICE, log
  entry 13). Safe. -/
  | windowsOverlap
  deriving DecidableEq, Repr

/-- The outcome of a step of this machine. -/
abbrev Out := Host.Outcome State Fault Refusal

/-- The machine after power-on and reset (R340): the values of R340's table; where it says "unspecified", the
values of log entry 2 (DESIGN CHOICE, unsafe); the model's own fields as log entries 3, 6, 7 and 10
say. -/
def State.reset : State :=
  { params := Config.params,
    irqEn := false, lenchk := false,
    done := false, error := false, cmdRejected := false, progress := 0,
    operands := Operands.zero,
    resLen := 0, resAuxLen := 0, info := 0, dictSize := 0, err := 0, errOffset := 0,
    seqState := .idle, phase := .henc .check,
    latched := Operands.zero, latchedLenchk := false,
    store := Store.fresh, mem := [],
    inTouched := false, outTouched := false, draws := 0, hostData := 0, events := [] }

end Sys2Proof.Machine
end

