-- ==== Sys2Proof/Machine/Flags.lean ====
section
/-! DEFINITION. The register words made of fields: CTRL, STATUS, INFO and ERR, the write-one-to-clear rule, and
the IRQ level (10_state.md R25, R26, R30, R32, R36, R46; 60_exceptions.md R301, R302). -/

namespace Sys2Proof.Machine

/-- STATUS.BUSY: SEQ.state = BUSY (R22, R26). -/
def State.busy (s : State) : Bool := s.seqState == .busy

/-- IRQ = CTRL.IRQ_EN AND STATUS.DONE, at every moment (R46). -/
def State.irq (s : State) : Bool := s.irqEn && s.done

/-- The word with bit `n` set where `b` holds, and no other bit. -/
def bitWord (b : Bool) (n : Nat) : Word := if b then 1#32 <<< n else 0#32

/-- CTRL as read: IRQ_EN in bit 0, LENCHK in bit 1, the rest 0 (R25, R35). -/
def ctrlWord (s : State) : Word := bitWord s.irqEn 0 ||| bitWord s.lenchk 1

/-- A CTRL write sets both fields and ignores bits [31:2] (R25). -/
def writeCtrl (v : Word) (s : State) : State :=
  { s with irqEn := v.getLsbD 0, lenchk := v.getLsbD 1 }

/-- STATUS as read, with the value its PROGRESS field shows (R26). -/
def statusWord (s : State) (progress : Nat) : Word :=
  bitWord s.busy 0 ||| bitWord s.done 1 ||| bitWord s.error 2 ||| bitWord s.cmdRejected 3 |||
    (BitVec.ofNat 32 progress <<< 4)

/-- A STATUS write clears each W1C field whose written bit is 1 and ignores the rest (R26, R36). The
host's acknowledgement of a completion, FC-CORE's only form of return from an error, is this write (R325). -/
def writeStatus (v : Word) (s : State) : State :=
  { s with
    done := s.done && !v.getLsbD 1
    error := s.error && !v.getLsbD 2
    cmdRejected := s.cmdRejected && !v.getLsbD 3 }

/-- INFO: LEAF_COUNT in bits [8:0], MAX_CODE_LEN in bits [23:16], the rest 0 (R30, R173, R211). -/
def infoWord (leaves maxDepth : Nat) : Word :=
  (BitVec.ofNat 9 leaves).setWidth 32 ||| ((BitVec.ofNat 8 maxDepth).setWidth 32 <<< 16)

/-- The bits of INFO that are not reserved (R30). -/
def infoMask : Word := 0x00FF01FF

/-- ERR.CODE of a cause (R301). -/
def Cause.code : Cause → Nat
  | .hencEmpty => 1
  | .descEmpty | .descVersion | .descTruncated | .descDupSymbol | .descTooManyInternal
  | .descPadNonzero | .descTrailing | .payEmpty | .payHeader | .payShort | .payPadNonzero
  | .payIncomplete | .paySingleLeafBits | .hdecLengthMismatch => 2
  | .partialWord | .firstCode | .undefinedCode | .ldecLengthMismatch => 3
  | .dictFull => 4
  | .dstFull | .auxFull => 5
  | .badOpcode => 6
  | .srcRange | .dstRange | .auxRange | .overlap => 7

/-- ERR.SUB of a cause (R302). -/
def Cause.sub : Cause → Nat
  | .hencEmpty => 1
  | .descEmpty => 1
  | .descVersion => 2
  | .descTruncated => 3
  | .descDupSymbol => 4
  | .descTooManyInternal => 5
  | .descPadNonzero => 6
  | .descTrailing => 7
  | .payEmpty => 8
  | .payHeader => 9
  | .payShort => 10
  | .payPadNonzero => 11
  | .payIncomplete => 12
  | .paySingleLeafBits => 13
  | .hdecLengthMismatch => 14
  | .partialWord => 1
  | .firstCode => 2
  | .undefinedCode => 3
  | .ldecLengthMismatch => 4
  | .dictFull => 1
  | .dstFull => 1
  | .auxFull => 2
  | .badOpcode => 1
  | .srcRange => 1
  | .dstRange => 2
  | .auxRange => 3
  | .overlap => 4

/-- The ERR word of a cause: CODE | (SUB << 8) (R32, R302). -/
def errWord (c : Cause) : Word := BitVec.ofNat 32 c.code ||| (BitVec.ofNat 32 c.sub <<< 8)

/-- The rows of R302, in the table's order. -/
def allCauses : List Cause :=
  [.hencEmpty, .descEmpty, .descVersion, .descTruncated, .descDupSymbol, .descTooManyInternal,
   .descPadNonzero, .descTrailing, .payEmpty, .payHeader, .payShort, .payPadNonzero, .payIncomplete,
   .paySingleLeafBits, .hdecLengthMismatch, .partialWord, .firstCode, .undefinedCode,
   .ldecLengthMismatch, .dictFull, .dstFull, .auxFull, .badOpcode, .srcRange, .dstRange, .auxRange,
   .overlap]

/-- The ERR words that FC-CORE can report: 0 and the words of R302 (R301, I44). -/
def errLegal (w : Word) : Bool := w == 0 || allCauses.any fun c => errWord c == w

end Sys2Proof.Machine
end

