-- ==== Sys2Proof/Machine/Operands.lean ====
section
/-! DEFINITION. The operands of a command: its regions, their roles, and the region checks
(30_encoding.md R94, 40_command_lifecycle.md R132 to R136). -/

namespace Sys2Proof.Machine

/-- A region: the bytes [base, base + len) of BUF (R17). -/
structure Region where
  base : Nat
  len : Nat
  deriving DecidableEq, Repr

/-- SRC (R94). -/
def Operands.src (o : Operands) : Region := ⟨o.srcAddr.toNat, o.srcLen.toNat⟩

/-- DST (R94). -/
def Operands.dst (o : Operands) : Region := ⟨o.dstAddr.toNat, o.dstLen.toNat⟩

/-- AUX (R94). -/
def Operands.aux (o : Operands) : Region := ⟨o.auxAddr.toNat, o.auxLen.toNat⟩

/-- Byte address `a` belongs to the region (R17). -/
def Region.has (r : Region) (a : Nat) : Bool := decide (r.base ≤ a) && decide (a < r.base + r.len)

/-- The region is in range: ADDR + LEN ≤ MEM_SIZE as unbounded integers (R134). -/
def Region.inRange (r : Region) (size : Nat) : Bool := decide (r.base + r.len ≤ size)

/-- Two regions overlap (R135). -/
def Region.overlaps (r q : Region) : Bool :=
  decide (0 < r.len) && decide (0 < q.len) && decide (r.base < q.base + q.len) &&
    decide (q.base < r.base + r.len)

/-- SEQ.op (R22). -/
def Phase.command : Phase → Instr
  | .henc _ => .henc
  | .hdec _ => .hdec
  | .lenc _ => .lenc
  | .ldec _ => .ldec

/-- The input regions of a command (R94). -/
def inputRegions (i : Instr) (o : Operands) : List Region :=
  match i with
  | .henc => [o.src]
  | .hdec => [o.src, o.aux]
  | .lenc => [o.src]
  | .ldec => [o.src]

/-- The output regions of a command (R94). -/
def outputRegions (i : Instr) (o : Operands) : List Region :=
  match i with
  | .henc => [o.dst, o.aux]
  | .hdec => [o.dst]
  | .lenc => [o.dst]
  | .ldec => [o.dst]

/-- The regions a command uses, in the order of the range check, each with the sub-cause it raises (R136). -/
def rangeChecks (i : Instr) (o : Operands) : List (Region × Cause) :=
  match i with
  | .henc => [(o.src, .srcRange), (o.dst, .dstRange), (o.aux, .auxRange)]
  | .hdec => [(o.src, .srcRange), (o.dst, .dstRange), (o.aux, .auxRange)]
  | .lenc => [(o.src, .srcRange), (o.dst, .dstRange)]
  | .ldec => [(o.src, .srcRange), (o.dst, .dstRange)]

/-- The pairs of regions whose overlap a command checks, in their order (R135). -/
def overlapChecks (i : Instr) (o : Operands) : List (Region × Region) :=
  match i with
  | .henc => [(o.src, o.dst), (o.src, o.aux), (o.dst, o.aux)]
  | .hdec => [(o.src, o.dst), (o.aux, o.dst)]
  | .lenc => [(o.src, o.dst)]
  | .ldec => [(o.src, o.dst)]

/-- The sub-cause of the first region that is not in range (R136). -/
def firstOutOfRange (size : Nat) : List (Region × Cause) → Option Cause
  | [] => none
  | (r, c) :: rest => if r.inRange size then firstOutOfRange size rest else some c

/-- The CHECK phase as a function (R136): the sub-cause of BAD_REGION it raises, or none. -/
def checkRegions (size : Nat) (i : Instr) (o : Operands) : Option Cause :=
  match firstOutOfRange size (rangeChecks i o) with
  | some c => some c
  | none => if (overlapChecks i o).any (fun p => p.1.overlaps p.2) then some .overlap else none

/-- Byte address `a` belongs to an input region of the running command (R350). -/
def State.inInput (s : State) (a : Nat) : Bool :=
  (inputRegions s.phase.command s.latched).any fun r => r.has a

/-- Byte address `a` belongs to an output region of the running command (R141, R352). -/
def State.inOutput (s : State) (a : Nat) : Bool :=
  (outputRegions s.phase.command s.latched).any fun r => r.has a

/-- Copying the operand registers and CTRL.LENCHK into the latched set (R132). -/
def latch (s : State) : State :=
  { s with latched := s.operands, latchedLenchk := s.lenchk }

end Sys2Proof.Machine
end

