-- ==== Sys2Proof/Machine/Ops.lean ====
section
/-! DEFINITION. The shared operations: BUF, the free values, the command's region reads and writes, starting a
command, and its two completions (20_memory.md, 40_command_lifecycle.md). -/

namespace Sys2Proof.Machine

/-! ## BUF -/

/-- The byte written last to an address, if any. -/
def Memory.get? (m : Memory) (a : Nat) : Option Byte := (m.find? fun c => c.1 == a).map Prod.snd

/-- Writing one byte, keeping the addresses strictly rising. -/
def Memory.set (m : Memory) (a : Nat) (b : Byte) : Memory :=
  match m with
  | [] => [(a, b)]
  | c :: rest =>
    if a < c.1 then (a, b) :: c :: rest
    else if a = c.1 then (a, b) :: rest
    else c :: Memory.set rest a b

/-- Writing consecutive bytes in address order. -/
def Memory.setBytes (m : Memory) (a : Nat) : List Byte → Memory
  | [] => m
  | b :: bs => Memory.setBytes (m.set a b) (a + 1) bs

/-- BUF[a]: the value last written (R65), and its power-on draw where nothing was written (R340, I28). -/
def Memory.byteAt (m : Memory) (a : Nat) : Byte := (m.get? a).getD (Config.bufPowerOn a)

/-- `n` consecutive bytes of BUF from address `a`. -/
def Memory.bytesAt (m : Memory) (a n : Nat) : List Byte := (List.range n).map fun k => m.byteAt (a + k)

/-- BUF[a] of a state. -/
def State.byteAt (s : State) (a : Nat) : Byte := s.mem.byteAt a

/-- MemRead(addr, 4) of R13 on the four bytes of a code word: little-endian (R61). -/
def wordOfBytes (b0 b1 b2 b3 : Byte) : Nat :=
  b0.toNat + 2 ^ 8 * b1.toNat + 2 ^ 16 * b2.toNat + 2 ^ 24 * b3.toNat

/-- The four bytes that MemWrite(addr, 4, v) of R13 writes, the lowest address first (R61). -/
def bytesOfWord (v : Nat) : List Byte :=
  [BitVec.ofNat 8 v, BitVec.ofNat 8 (v / 2 ^ 8), BitVec.ofNat 8 (v / 2 ^ 16), BitVec.ofNat 8 (v / 2 ^ 24)]

/-- The codes of a code stream of whole words (R108). -/
def codesOfBytes : List Byte → List Nat
  | b0 :: b1 :: b2 :: b3 :: rest => wordOfBytes b0 b1 b2 b3 :: codesOfBytes rest
  | _ => []

/-! ## Bits and bytes, most significant bit first (R12, R62) -/

/-- bin8(x) of R12. -/
def bin8 (x : Byte) : BitString :=
  [x.getLsbD 7, x.getLsbD 6, x.getLsbD 5, x.getLsbD 4, x.getLsbD 3, x.getLsbD 2, x.getLsbD 1, x.getLsbD 0]

/-- The number a bit string writes, its first bit the most significant. -/
def natOfBits (bs : BitString) : Nat := bs.foldl (fun n b => 2 * n + b.toNat) 0

/-- The bytes of a bit string whose length is a multiple of 8 (R62). -/
def packBits : BitString → List Byte
  | b7 :: b6 :: b5 :: b4 :: b3 :: b2 :: b1 :: b0 :: rest =>
    BitVec.ofNat 8 (natOfBits [b7, b6, b5, b4, b3, b2, b1, b0]) :: packBits rest
  | _ => []

/-- The bit stream of a byte area: stream bit k is bit 7 − (k mod 8) of byte ⌊k/8⌋ (R62). -/
def unpackBits (bs : List Byte) : BitString := bs.flatMap bin8

/-- The number of zero bits from a length up to the next byte boundary (R101, R106). -/
def padLen (n : Nat) : Nat := (8 - n % 8) % 8

/-- A bit string padded with zeros to whole bytes. -/
def padBits (bs : BitString) : BitString := bs ++ List.replicate (padLen bs.length) false

/-! ## Free values -/

/-- Every byte of the region that lies in BUF takes a new free value (I27, I30, I33, I34). -/
def scrambleRegion (r : Region) (s : State) : State :=
  let n := min r.len (s.params.memSize - r.base)
  { s with
    mem := s.mem.setBytes r.base ((List.range n).map fun k => Config.freeByte (s.draws + k))
    draws := s.draws + n }

/-- Every byte of the running command's output regions takes a new free value. -/
def scrambleOutputs (s : State) : State :=
  (outputRegions s.phase.command s.latched).foldl (fun t r => scrambleRegion r t) s

/-! ## A command's BUF accesses -/

/-- All bytes of an input region, in address order (R144). -/
def State.regionBytes (s : State) (r : Region) : List Byte := s.mem.bytesAt r.base r.len

/-- Writing bytes at offset `off` of an output region. No byte of it lands outside the region or BUF, as R144 says
of every access; a byte that would is not written. Only two kinds of state ask for such a byte: PACK after the
host broke R350, where the completion then leaves every output byte free, and states that no run reaches (DEDUCED, log
entry 27). -/
def writeRegion (r : Region) (off : Nat) (bs : List Byte) (s : State) : State :=
  { s with
    mem := s.mem.setBytes (r.base + off) (bs.take (min r.len (s.params.memSize - r.base) - off)) }

/-! ## Starting a command -/

/-- The start effects (R133) after the operands are latched (R132): the command is BUSY at its CHECK phase, and
its internal storage is created fresh (R43). -/
def startCommand (first : Phase) (s : State) : State :=
  { latch s with
    done := false
    error := false
    progress := 0
    seqState := .busy
    phase := first
    store := Store.fresh
    inTouched := false
    outTouched := false }

/-- A CMD write while BUSY is dropped and sets CMD_REJECTED; nothing else changes (R142). -/
def rejectCommand (s : State) : State := { s with cmdRejected := true }

/-! ## Completions -/

/-- What a success completion reports (R137, R138). -/
structure Results where
  resLen : Nat
  resAuxLen : Nat
  info : Word
  dictSize : Nat
  deriving DecidableEq, Repr

/-- The return to IDLE that every completion makes: the internal storage is discarded (R43), PROGRESS is 4,
DONE is set. -/
def endCommand (s : State) : State :=
  { s with
    progress := 4
    done := true
    seqState := .idle
    store := Store.fresh
    inTouched := false
    outTouched := false }

/-- The register effects of a success completion (R138). -/
def successRegs (r : Results) (s : State) : State :=
  { endCommand s with
    resLen := BitVec.ofNat 32 r.resLen
    resAuxLen := BitVec.ofNat 32 r.resAuxLen
    info := r.info
    dictSize := BitVec.ofNat 32 r.dictSize
    err := 0
    errOffset := 0
    error := false }

/-- The register effects of an error completion, FC-CORE's only form of taking an exception (R139, R320): ERR
and ERR_OFFSET are saved, the results are zeroed, ERROR and DONE are set, and SEQ returns to IDLE. -/
def errorRegs (e : Raise) (s : State) : State :=
  { endCommand s with
    resLen := 0
    resAuxLen := 0
    info := 0
    dictSize := 0
    err := errWord e.cause
    errOffset := BitVec.ofNat 32 e.offset
    error := true }

/-- The completion of a command of which the host wrote an input byte while it ran (R350, I33): its kind, its
results, ERR, ERR_OFFSET and every output byte are free values, within what I44 and R35 exclude (DEDUCED, unsafe: log entry 9). -/
def freeCompletion (s : State) : State :=
  let t := scrambleOutputs s
  let n := t.draws
  { endCommand t with
    error := Config.freeBool n
    resLen := Config.freeWord n
    resAuxLen := Config.freeWord (n + 1)
    info := Config.freeWord (n + 2) &&& infoMask
    dictSize := Config.freeWord (n + 3)
    err := (allCauses[(Config.freeErrIndex n).val]?.map errWord).getD 0
    errOffset := Config.freeWord (n + 4)
    draws := n + 5 }

/-- complete(results) of R13: the success completion (R138), unless the host broke R350 or R352. -/
def complete (r : Results) (s : State) : Out :=
  if s.inTouched then .next (freeCompletion s)
  else if s.outTouched then .next (successRegs r (scrambleOutputs s))
  else .next (successRegs r s)

/-- Whether an error is one that its command file lists as raised before any write (R140). -/
inductive WriteClass where
  | beforeWrite | afterWrite
  deriving DecidableEq, Repr

/-- raise Error(CODE, SUB, offset) of R13: the error completion (R139, R320). After an error that is not raised
before any write, every output byte is a free value (R140). -/
def raiseError (w : WriteClass) (e : Raise) (s : State) : Out :=
  if s.inTouched then .next (freeCompletion s)
  else if s.outTouched || w == .afterWrite then .next (errorRegs e (scrambleOutputs s))
  else .next (errorRegs e s)

/-- An illegal command word while IDLE: nothing is latched or started, and an error completion with
ILLEGAL_COMMAND / BAD_OPCODE and offset 0 follows at once (R131). -/
def illegalCommand (s : State) : State := errorRegs ⟨.badOpcode, 0⟩ s

/-! ## Running a command -/

/-- The CHECK phase, common to all commands (R136): BAD_REGION, or on to phase `next`. -/
def checkPhase (i : Instr) (next : Phase) (s : State) : Out :=
  match checkRegions s.params.memSize i s.latched with
  | some c => raiseError .beforeWrite ⟨c, 0⟩ s
  | none => .next { s with phase := next }

/-- Turns of the core, at most `n`, until the command completes. -/
def runTurns (turn : State → Out) : Nat → State → Out
  | 0, s => .next s
  | n + 1, s =>
    if s.busy then
      match turn s with
      | .next t => runTurns turn n t
      | .fault f => .fault f
      | .refused r => .refused r
    else .next s

/-- The most phases a command has (R22: HENC's seven). -/
def maxPhases : Nat := 7

/-- A CMD write of a legal command word (R130). While BUSY it is dropped (R142). While IDLE the command starts
(R132, R133); it then runs on to its completion when no other event waits, and stays BUSY when one does
(R137, R316; DESIGN CHOICE, log entry 3). -/
def launch (first : Phase) (turn : State → Out) (s : State) : Out :=
  if s.busy then .next (rejectCommand s)
  else if s.events.isEmpty then runTurns turn maxPhases (startCommand first s)
  else .next (startCommand first s)

end Sys2Proof.Machine
end

