-- ==== Sys2Proof/Machine/Bus.lean ====
section
/-! DEFINITION. The host's side: the register map, register and BUF accesses, the two address windows, reset, and
how a command word reaches the decoder (10_state.md R23 to R36, 20_memory.md R65, R66, 40_command_lifecycle.md
R141, 70_reset_and_hazards.md R340, R341, R350 to R353). -/

namespace Sys2Proof.Machine

/-- The named registers of R23. -/
inductive Reg where
  | id | ctrl | status | cmd
  | srcAddr | srcLen | dstAddr | dstLen | auxAddr | auxLen | expLen
  | resLen | resAuxLen | info | dictSize | err | errOffset | memLast | dictCap
  deriving DecidableEq, Repr

/-- The registers in the order of R23's map. -/
def allRegs : List Reg :=
  [.id, .ctrl, .status, .cmd, .srcAddr, .srcLen, .dstAddr, .dstLen, .auxAddr, .auxLen, .expLen,
   .resLen, .resAuxLen, .info, .dictSize, .err, .errOffset, .memLast, .dictCap]

/-- The offset of a register (R23). -/
def Reg.offset : Reg → Nat
  | .id => 0x00
  | .ctrl => 0x04
  | .status => 0x08
  | .cmd => 0x0C
  | .srcAddr => 0x10
  | .srcLen => 0x14
  | .dstAddr => 0x18
  | .dstLen => 0x1C
  | .auxAddr => 0x20
  | .auxLen => 0x24
  | .expLen => 0x28
  | .resLen => 0x30
  | .resAuxLen => 0x34
  | .info => 0x38
  | .dictSize => 0x3C
  | .err => 0x40
  | .errOffset => 0x44
  | .memLast => 0x48
  | .dictCap => 0x4C

/-- The register at an offset; none at a reserved one (R23, R35). -/
def regAt (off : Nat) : Option Reg := allRegs.find? fun r => r.offset == off

/-- The size of the register window in bytes (R23). -/
def windowSize : Nat := 0x100

/-- The value of ID (R24). -/
def idWord : Word := 0x484C5A01

/-- A host read takes effect: the value goes to the host. -/
def answer (v : Word) (s : State) : State := { s with hostData := v }

/-- A host read of an unspecified value: a new free word (I8, I22, I25). -/
def answerFree (s : State) : State :=
  { s with hostData := Config.freeWord s.draws, draws := s.draws + 1 }

/-- A read of STATUS (R26): while BUSY its PROGRESS field is a new free value from 0 to 3 (R148, I8). -/
def readStatus (s : State) : State :=
  if s.busy then
    { s with
      hostData := statusWord s ((Config.freeWord s.draws).toNat % 4)
      draws := s.draws + 1 }
  else answer (statusWord s s.progress.val) s

/-- A read of a register that is unspecified while BUSY (R29 to R33, R141, I25). The spec leaves open whether the
reserved bits of INFO and ERR then read 0 (R35) or are part of the unspecified value: DESIGN CHOICE, the whole word is
free (log entry 25). -/
def readResult (v : Word) (s : State) : State := if s.busy then answerFree s else answer v s

/-- A read of a named register (R24 to R34). -/
def readReg (r : Reg) (s : State) : State :=
  match r with
  | .id => answer idWord s
  | .ctrl => answer (ctrlWord s) s
  | .status => readStatus s
  | .cmd => answer 0 s
  | .srcAddr => answer s.operands.srcAddr s
  | .srcLen => answer s.operands.srcLen s
  | .dstAddr => answer s.operands.dstAddr s
  | .dstLen => answer s.operands.dstLen s
  | .auxAddr => answer s.operands.auxAddr s
  | .auxLen => answer s.operands.auxLen s
  | .expLen => answer s.operands.expLen s
  | .resLen => readResult s.resLen s
  | .resAuxLen => readResult s.resAuxLen s
  | .info => readResult s.info s
  | .dictSize => readResult s.dictSize s
  | .err => readResult s.err s
  | .errOffset => readResult s.errOffset s
  | .memLast => answer s.params.memLast s
  | .dictCap => answer (BitVec.ofNat 32 s.params.dictCap) s

/-- A write of a named register other than CMD (R24 to R34): the read-only ones ignore it. -/
def writeReg (r : Reg) (v : Word) (s : State) : State :=
  match r with
  | .id => s
  | .ctrl => writeCtrl v s
  | .status => writeStatus v s
  | .cmd => s
  | .srcAddr => { s with operands := { s.operands with srcAddr := v } }
  | .srcLen => { s with operands := { s.operands with srcLen := v } }
  | .dstAddr => { s with operands := { s.operands with dstAddr := v } }
  | .dstLen => { s with operands := { s.operands with dstLen := v } }
  | .auxAddr => { s with operands := { s.operands with auxAddr := v } }
  | .auxLen => { s with operands := { s.operands with auxLen := v } }
  | .expLen => { s with operands := { s.operands with expLen := v } }
  | .resLen => s
  | .resAuxLen => s
  | .info => s
  | .dictSize => s
  | .err => s
  | .errOffset => s
  | .memLast => s
  | .dictCap => s

/-- A read of the register window (R23): a 32-bit aligned access reads the register, 0 at a reserved offset
(R35); any other answers an unspecified value (I22). -/
def readWindow (off width : Nat) (s : State) : State :=
  if width = 4 ∧ off % 4 = 0 then
    match regAt off with
    | some r => readReg r s
    | none => answer 0 s
  else answerFree s

/-- What a write of the register window is (R23). -/
inductive WindowWrite where
  /-- A 32-bit aligned write of CMD: a command request (R27). -/
  | command
  /-- A 32-bit aligned write of another named register. -/
  | register (r : Reg)
  /-- A write without effect: a reserved offset (R35), or not a 32-bit aligned access (R23). -/
  | ignored
  deriving DecidableEq, Repr

/-- The kind of a write of the register window (R23, R35). -/
def windowWrite (off width : Nat) : WindowWrite :=
  if width = 4 ∧ off % 4 = 0 then
    match regAt off with
    | some .cmd => .command
    | some r => .register r
    | none => .ignored
  else .ignored

/-- A host read of BUF[a] (R44, R65): while BUSY a byte of an output region reads as a new free value (R141,
I26). -/
def readBuf (a : Nat) (s : State) : State :=
  if s.busy && s.inOutput a then
    { s with hostData := (Config.freeByte s.draws).setWidth 32, draws := s.draws + 1 }
  else answer ((s.byteAt a).setWidth 32) s

/-- A host write of BUF[a] (R44, R65). While BUSY, a byte of an active input or output region breaks R350 or
R352, and the completion will show it; any other write just takes effect (R73, R353). -/
def writeBuf (a : Nat) (b : Byte) (s : State) : State :=
  { s with
    mem := s.mem.set a b
    inTouched := s.inTouched || (s.busy && s.inInput a)
    outTouched := s.outTouched || (s.busy && s.inOutput a) }

/-- Reset (R340, R341): every register takes its reset value, BUF stays, and the output bytes of an abandoned
command become free values. The instance's parameters and the model's own fields stay. -/
def resetEvent (s : State) : State :=
  let t := if s.busy then scrambleOutputs s else s
  { State.reset with
    params := t.params
    mem := t.mem
    draws := t.draws
    hostData := t.hostData
    events := t.events }

/-- The access that a bus transaction makes (R66, R121): through the register window at CSR_BASE or the BUF
window at BUF_HOST_BASE. -/
def route (p : Params) (t : Transaction) : Except (Fault ⊕ Refusal) Access :=
  let inCsr := p.csrBase ≤ t.addr ∧ t.addr < p.csrBase + windowSize
  let inBuf := p.bufHostBase ≤ t.addr ∧ t.addr < p.bufHostBase + p.memSize
  if inCsr ∧ inBuf then .error (.inr .windowsOverlap)
  else if inCsr then
    match t.data with
    | none => .ok (.regRead (t.addr - p.csrBase) t.width)
    | some v => .ok (.regWrite (t.addr - p.csrBase) t.width v)
  else if inBuf then
    match t.data with
    | none => .ok (.bufRead (t.addr - p.bufHostBase) t.width)
    | some v => .ok (.bufWrite (t.addr - p.bufHostBase) t.width (v.setWidth 8))
  else .error (.inl .noSuchHostAddress)

/-- What serving a host access comes to: an outcome, or a command word for the decoder. -/
inductive Served where
  | outcome (o : Out)
  | command (w : Word) (s : State)

/-- One host access (R23, R44, R65). An offset or address outside its window is not FC-CORE's (R66). -/
def serveAccess (a : Access) (s : State) : Served :=
  match a with
  | .regRead off width =>
    if off < windowSize then .outcome (.next (readWindow off width s))
    else .outcome (.fault .noSuchHostAddress)
  | .regWrite off width v =>
    if off < windowSize then
      match windowWrite off width with
      | .command => .command v s
      | .register r => .outcome (.next (writeReg r v s))
      | .ignored => .outcome (.next s)
    else .outcome (.fault .noSuchHostAddress)
  | .bufRead addr width =>
    if addr < s.params.memSize then
      if width = 1 then .outcome (.next (readBuf addr s)) else .outcome (.refused .wideBufAccess)
    else .outcome (.fault .noSuchHostAddress)
  | .bufWrite addr width b =>
    if addr < s.params.memSize then
      if width = 1 then .outcome (.next (writeBuf addr b s)) else .outcome (.refused .wideBufAccess)
    else .outcome (.fault .noSuchHostAddress)

/-- One bus transaction at a host address (R66, R121). -/
def serveBus (t : Transaction) (s : State) : Served :=
  match route s.params t with
  | .ok a => serveAccess a s
  | .error (.inl f) => .outcome (.fault f)
  | .error (.inr r) => .outcome (.refused r)

/-- What a CMD write of a word that is no command does (R131, R142). -/
def illegalWord (s : State) : State := if s.busy then rejectCommand s else illegalCommand s

/-- The host access that delivers a command word: a 32-bit write to CMD (R77, R90). -/
def cmdWrite (w : Word) : Event := .access (.regWrite Reg.cmd.offset 4 w)

end Sys2Proof.Machine
end

