-- ==== Sys2Proof/Machine/Huffman.lean ====
section
/-! DEFINITION. The Huffman coder as functions on bytes and on the node pool: frequency counter, priority queue
and tree builder, code-table generator, descriptor serializer and parser, bit-packer and bit-unpacker
(41_huffman_encoder.md, 42_huffman_decoder.md). -/

namespace Sys2Proof.Machine

/-! ## COUNT and BUILD -/

/-- One increment of FREQ (R161). -/
def bumpFreq (freq : Vector Nat 256) (x : Byte) : Vector Nat 256 :=
  freq.set x.toNat (freq[x.toNat]'x.isLt + 1) x.isLt

/-- The frequency table after one pass over the input (R161). -/
def countFreq (input : List Byte) (freq : Vector Nat 256) : Vector Nat 256 := input.foldl bumpFreq freq

/-- FREQ[s]. -/
def freqOf (freq : Vector Nat 256) (s : Byte) : Nat := freq[s.toNat]'s.isLt

/-- The 256 symbols in ascending order. -/
def symbols : List Byte := (List.range 256).map (BitVec.ofNat 8)

/-- The symbols with FREQ[s] > 0, in ascending order: the keys of the Frequency Table (R37, R163). -/
def keys (freq : Vector Nat 256) : List Byte :=
  ((symbols.zip freq.toList).filter fun e => decide (0 < e.2)).map Prod.fst

/-- The leaves NODE[0] .. NODE[L − 1] (R163). -/
def leafNodes (freq : Vector Nat 256) : List Node := (keys freq).map fun s => .leaf (freqOf freq s) s

/-- The weight of a record (R38). -/
def Node.weight : Node → Nat
  | .leaf w _ => w
  | .internal w _ _ => w

/-- NODE[n].weight; 0 for a record that does not exist (DESIGN CHOICE, log entry 30). -/
def weightAt (node : List Node) (n : Nat) : Nat := (node[n]?.map Node.weight).getD 0

/-- The order of PQ: the key (NODE[n].weight, n), compared lexicographically (R39). -/
def keyLe (node : List Node) (a b : Nat) : Bool :=
  decide (weightAt node a < weightAt node b) || (weightAt node a == weightAt node b && decide (a ≤ b))

/-- PQ.extract_min() (R164): the member with the smallest key, and the other members. -/
def extractMin (node : List Node) : List Nat → Option (Nat × List Nat)
  | [] => none
  | x :: xs =>
    match extractMin node xs with
    | none => some (x, xs)
    | some (m, rest) => if keyLe node x m then some (x, xs) else some (m, x :: rest)

/-- One merge of R165: the first node extracted becomes the left child, the second the right. None when PQ holds
fewer than two members. -/
def mergeOnce (node : List Node) (pq : List Nat) : Option (List Node × List Nat) :=
  match extractMin node pq with
  | none => none
  | some (a, pq1) =>
    match extractMin node pq1 with
    | none => none
    | some (b, pq2) =>
      some (node ++ [.internal (weightAt node a + weightAt node b) a b], pq2 ++ [node.length])

/-- The merge loop of R165, at most `k` merges (each removes one member of PQ). -/
def mergeAll : Nat → List Node → List Nat → List Node × List Nat
  | 0, node, pq => (node, pq)
  | k + 1, node, pq =>
    match mergeOnce node pq with
    | none => (node, pq)
    | some (node', pq') => mergeAll k node' pq'

/-- What BUILD leaves: NODE, ROOT, and PQ after the last extraction. -/
structure Built where
  node : List Node
  root : Nat
  pq : List Nat
  deriving DecidableEq, Repr

/-- BUILD (R163, R165): the leaves, the merges, and the extraction of ROOT. ROOT is 0 where PQ is empty, which no started
command meets (DESIGN CHOICE, log entry 30). -/
def buildTree (freq : Vector Nat 256) : Built :=
  let leaves := leafNodes freq
  let merged := mergeAll leaves.length leaves (List.range leaves.length)
  match extractMin merged.1 merged.2 with
  | some (root, pq) => ⟨merged.1, root, pq⟩
  | none => ⟨merged.1, 0, []⟩

/-! ## CODEGEN -/

/-- The code-table loop of R167 on the explicit stack STK, at most `k` pops (a tree is popped once per node). A record that
does not exist adds no code (DESIGN CHOICE, log entry 30). -/
def codegenLoop (node : List Node) :
    Nat → List (Nat × BitString) → Vector (Option BitString) 256 →
      List (Nat × BitString) × Vector (Option BitString) 256
  | 0, stk, code => (stk, code)
  | _ + 1, [], code => ([], code)
  | k + 1, (n, p) :: stk, code =>
    match node[n]? with
    | some (.leaf _ s) => codegenLoop node k stk (code.set s.toNat (some p) s.isLt)
    | some (.internal _ l r) => codegenLoop node k ((l, p ++ [false]) :: (r, p ++ [true]) :: stk) code
    | none => codegenLoop node k stk code

/-- CODE[s].bits (R40), empty where CODE has no entry (DESIGN CHOICE, log entry 30). -/
def codeOf (code : Vector (Option BitString) 256) (s : Byte) : BitString := (code[s.toNat]'s.isLt).getD []

/-- The code table of a tree (R167): the stack left over, which is empty for a tree, and CODE. -/
def codegen (node : List Node) (root : Nat) (code : Vector (Option BitString) 256) :
    List (Nat × BitString) × Vector (Option BitString) 256 :=
  codegenLoop node node.length [(root, [])] code

/-! ## SIZE -/

/-- B of R169, the number of code bits. -/
def codeBits (freq : Vector Nat 256) (code : Vector (Option BitString) 256) : Nat :=
  ((keys freq).map fun s => freqOf freq s * (codeOf code s).length).sum

/-- maxlen of R169. -/
def maxCodeLen (freq : Vector Nat 256) (code : Vector (Option BitString) 256) : Nat :=
  ((keys freq).map fun s => (codeOf code s).length).foldl max 0

/-- N of R169, the payload length: 1 + ⌈B/8⌉ (R103). -/
def payloadLen (b : Nat) : Nat := 1 + (b + 7) / 8

/-- M of R169, the descriptor length of a tree with `l` leaves: 1 + ⌈(10·l − 1)/8⌉ (R106). -/
def descriptorLen (l : Nat) : Nat := 1 + (10 * l - 1 + 7) / 8

/-! ## SERIALIZE and PACK -/

/-- The tree bit string T(n) of R105, for a tree of depth less than `fuel`; empty for a record that does not exist (DESIGN
CHOICE, log entry 30). -/
def treeBits (node : List Node) : Nat → Nat → BitString
  | 0, _ => []
  | fuel + 1, n =>
    match node[n]? with
    | some (.leaf _ s) => true :: bin8 s
    | some (.internal _ l r) => false :: (treeBits node fuel l ++ treeBits node fuel r)
    | none => []

/-- The descriptor bytes (R104, R171): the version byte 0x01, then T(ROOT) padded with zeros. -/
def descriptorBytes (node : List Node) (root : Nat) : List Byte :=
  1#8 :: packBits (padBits (treeBits node node.length root))

/-- The code bits of an input: the concatenation of its bytes' codes (R102). -/
def encodeBits (code : Vector (Option BitString) 256) (input : List Byte) : BitString :=
  input.flatMap (codeOf code)

/-- The payload bytes (R100, R172): the padding header `h`, then the code bits and `h` zero pad bits. -/
def payloadBytes (code : Vector (Option BitString) 256) (h : Nat) (input : List Byte) : List Byte :=
  BitVec.ofNat 8 h :: packBits (encodeBits code input ++ List.replicate h false)

/-! ## PARSE -/

/-- The variables of PARSE (R202): the tree-area bits not consumed yet, and what R202 names. -/
structure Parse where
  rest : BitString
  pos : Nat
  node : List Node
  nint : Nat
  seen : BitVec 256
  maxDepth : Nat
  deriving DecidableEq, Repr

/-- getbit() of R202, for a descriptor of `a` bytes. -/
def getBit (a : Nat) (p : Parse) : Except Raise (Bool × Parse) :=
  match p.rest with
  | [] => .error ⟨.descTruncated, a⟩
  | b :: rest => .ok (b, { p with rest := rest, pos := p.pos + 1 })

/-- `k` more bits of a number, most significant first: s <- 2·s + getbit() (R202). -/
def getBits (a : Nat) : Nat → Nat → Parse → Except Raise (Nat × Parse)
  | 0, s, p => .ok (s, p)
  | k + 1, s, p =>
    match getBit a p with
    | .error e => .error e
    | .ok (b, p') => getBits a k (2 * s + b.toNat) p'

/-- The index of the descriptor byte that holds the bit consumed last (R203, R204). -/
def lastBitByte (pos : Nat) : Nat := 1 + (pos - 1) / 8

/-- check_symbol(s) of R203. -/
def checkSymbol (s : Byte) (p : Parse) : Except Raise Parse :=
  if p.seen.getLsbD s.toNat then .error ⟨.descDupSymbol, lastBitByte p.pos⟩
  else .ok { p with seen := p.seen ||| (1#256 <<< s.toNat) }

/-- NINT <- NINT + 1 and check_internal() of R204. -/
def checkInternal (p : Parse) : Except Raise Parse :=
  if p.nint + 1 = 256 then .error ⟨.descTooManyInternal, lastBitByte p.pos⟩
  else .ok { p with nint := p.nint + 1 }

/-- parse_node(d) of R202: the index of the node parsed, and the variables after it. `fuel` bounds the depth;
R204 ends every parse at a depth below 256, so 257 is never used up (DEDUCED, log entry 22). R202 writes no weight, which
HDEC does not use (R38): every record holds weight 0 here, and an internal node the child index 0 until that child is
parsed (DESIGN CHOICE, log entry 29). -/
def parseNode (a : Nat) : Nat → Nat → Parse → Except Raise (Nat × Parse)
  | 0, _, p => .error ⟨.descTooManyInternal, lastBitByte p.pos⟩
  | fuel + 1, d, p =>
    match getBit a p with
    | .error e => .error e
    | .ok (true, p1) =>
      match getBits a 8 0 p1 with
      | .error e => .error e
      | .ok (s, p2) =>
        match checkSymbol (BitVec.ofNat 8 s) p2 with
        | .error e => .error e
        | .ok p3 =>
          .ok (p3.node.length,
            { p3 with
              node := p3.node ++ [.leaf 0 (BitVec.ofNat 8 s)]
              maxDepth := max p3.maxDepth d })
    | .ok (false, p1) =>
      match checkInternal p1 with
      | .error e => .error e
      | .ok p2 =>
        let n := p2.node.length
        match parseNode a fuel (d + 1) { p2 with node := p2.node ++ [.internal 0 0 0] } with
        | .error e => .error e
        | .ok (l, p3) =>
          match parseNode a fuel (d + 1) { p3 with node := p3.node.set n (.internal 0 l 0) } with
          | .error e => .error e
          | .ok (r, p4) => .ok (n, { p4 with node := p4.node.set n (.internal 0 l r) })

/-- The depth bound handed to `parseNode` (R204). -/
def parseFuel : Nat := 257

/-- What PARSE leaves: ROOT and its variables. -/
structure Parsed where
  root : Nat
  vars : Parse
  deriving DecidableEq, Repr

/-- The checks of R205 after the tree: pad bits first, then trailing bytes. -/
def checkTail (a : Nat) (bits : BitString) (p : Parse) : Except Raise Unit :=
  let u := (p.pos + 7) / 8
  if (bits.take (8 * u)).drop p.pos |>.any id then .error ⟨.descPadNonzero, u⟩
  else if a > 1 + u then .error ⟨.descTrailing, 1 + u⟩
  else .ok ()

/-- PARSE as a function of the descriptor bytes (R201 to R205). -/
def parseDescriptor (desc : List Byte) : Except Raise Parsed :=
  match desc with
  | [] => .error ⟨.descEmpty, 0⟩
  | v :: area =>
    if v ≠ 1#8 then .error ⟨.descVersion, 0⟩
    else
      match parseNode desc.length parseFuel 0
          { rest := unpackBits area, pos := 0, node := [], nint := 0, seen := 0, maxDepth := 0 } with
      | .error e => .error e
      | .ok (root, p) =>
        match checkTail desc.length (unpackBits area) p with
        | .error e => .error e
        | .ok _ => .ok ⟨root, p⟩

/-! ## HEADER and WALK -/

/-- HEADER as a function of the payload bytes (R206): H and D. -/
def parseHeader (pay : List Byte) : Except Raise (Nat × Nat) :=
  match pay with
  | [] => .error ⟨.payEmpty, 0⟩
  | h :: _ =>
    if h.toNat > 7 then .error ⟨.payHeader, 0⟩
    else if 8 * (pay.length - 1) < h.toNat then .error ⟨.payShort, 0⟩
    else if 0 < h.toNat ∧ (pay.getLastD 0).toNat % 2 ^ h.toNat ≠ 0 then
      .error ⟨.payPadNonzero, pay.length - 1⟩
    else .ok (h.toNat, 8 * (pay.length - 1) - h.toNat)

/-- The D data bits of a payload (R206). -/
def dataBitsOf (pay : List Byte) (d : Nat) : BitString := (unpackBits (pay.drop 1)).take d

/-- The child of a node on an edge: bit 0 goes left, bit 1 goes right (R208); the node itself where it has no children
(DESIGN CHOICE, log entry 30). -/
def childAt (node : List Node) (n : Nat) (b : Bool) : Nat :=
  match node[n]? with
  | some (.internal _ l r) => if b then r else l
  | some (.leaf _ _) => n
  | none => n

/-- The symbol of a leaf; none for an internal node (R38, R208), and for a record that does not exist (DESIGN CHOICE, log
entry 30). -/
def leafSym (node : List Node) (n : Nat) : Option Byte :=
  match node[n]? with
  | some (.leaf _ s) => some s
  | some (.internal _ _ _) => none
  | none => none

/-- The walk of R208 over the data bits, from node `n` with `p` bytes emitted into a region of capacity `cap`:
the node reached at the end and the bytes emitted. -/
def walkBits (node : List Node) (root cap : Nat) :
    BitString → Nat → List Byte → Except Raise (Nat × List Byte)
  | [], n, out => .ok (n, out)
  | b :: bits, n, out =>
    match leafSym node (childAt node n b) with
    | some s =>
      if out.length = cap then .error ⟨.dstFull, out.length⟩
      else walkBits node root cap bits root (out ++ [s])
    | none => walkBits node root cap bits (childAt node n b) out

end Sys2Proof.Machine
end

