-- ==== Sys2Proof/Machine/Hdec.lean ====
section
/-! DEFINITION. HDEC, the Huffman decoder: its phases and its meaning (42_huffman_decoder.md). -/

namespace Sys2Proof.Machine

/-- PARSE: the descriptor in AUX is rebuilt into the tree (R201 to R205). -/
def hdecParse (s : State) : Out :=
  match parseDescriptor (s.regionBytes s.latched.aux) with
  | .error e => raiseError .beforeWrite e s
  | .ok t =>
    .next { s with
      phase := .hdec .header
      store := { s.store with
        node := t.vars.node
        root := t.root
        nint := t.vars.nint
        seen := t.vars.seen
        bitPos := t.vars.pos
        leaves := t.vars.node.length - t.vars.nint
        maxDepth := t.vars.maxDepth } }

/-- HEADER: the padding header of the payload in SRC (R206). -/
def hdecHeader (s : State) : Out :=
  match parseHeader (s.regionBytes s.latched.src) with
  | .error e => raiseError .beforeWrite e s
  | .ok (h, d) =>
    .next { s with
      phase := .hdec .walk
      store := { s.store with padBits := h, dataBits := d } }

/-- WALK on a single-leaf tree (R207): EXP_LEN copies of its symbol. -/
def hdecSingleLeaf (sym : Byte) (s : State) : Out :=
  if s.store.dataBits ≠ 0 then raiseError .beforeWrite ⟨.paySingleLeafBits, 1⟩ s
  else if s.latched.expLen.toNat > s.latched.dst.len then
    raiseError .beforeWrite ⟨.dstFull, s.latched.dst.len⟩ s
  else
    .next { writeRegion s.latched.dst 0 (List.replicate s.latched.expLen.toNat sym) s with
      phase := .hdec .finish
      store := { s.store with outPos := s.latched.expLen.toNat } }

/-- WALK on a tree with an internal root (R208). -/
def hdecWalkTree (s : State) : Out :=
  match walkBits s.store.node s.store.root s.latched.dst.len
      (dataBitsOf (s.regionBytes s.latched.src) s.store.dataBits) s.store.root [] with
  | .error e => raiseError .afterWrite e s
  | .ok (n, out) =>
    .next { writeRegion s.latched.dst 0 out s with
      phase := .hdec .finish
      store := { s.store with outPos := out.length, walkAt := n } }

/-- WALK: the two kinds of tree (R207, R208). -/
def hdecWalk (s : State) : Out :=
  match leafSym s.store.node s.store.root with
  | some sym => hdecSingleLeaf sym s
  | none => hdecWalkTree s

/-- The results of HDEC (R211). -/
def hdecResults (s : State) : Results :=
  { resLen := s.store.outPos, resAuxLen := s.latched.aux.len,
    info := infoWord s.store.leaves s.store.maxDepth, dictSize := 0 }

/-- FINISH: after the walk of R208 the last code must end on a leaf and, with LENCHK, the length must be the
expected one; neither is checked for a single-leaf tree (R207, R209, R210). Then HDEC completes (R211). -/
def hdecFinish (s : State) : Out :=
  match leafSym s.store.node s.store.root with
  | some _ => complete (hdecResults s) s
  | none =>
    if s.store.walkAt ≠ s.store.root then
      raiseError .afterWrite ⟨.payIncomplete, s.latched.src.len - 1⟩ s
    else if s.latchedLenchk ∧ s.store.outPos ≠ s.latched.expLen.toNat then
      raiseError .afterWrite ⟨.hdecLengthMismatch, s.store.outPos⟩ s
    else complete (hdecResults s) s

/-- One phase of HDEC (R200). -/
def hdecPhase (p : HdecPhase) (s : State) : Out :=
  match p with
  | .check => checkPhase .hdec (.hdec .parse) s
  | .parse => hdecParse s
  | .header => hdecHeader s
  | .walk => hdecWalk s
  | .finish => hdecFinish s

/-- A turn of the core on HDEC: its current phase. -/
def hdecTurn (s : State) : Out :=
  match s.phase with
  | .henc _ => .next s
  | .hdec p => hdecPhase p s
  | .lenc _ => .next s
  | .ldec _ => .next s

/-- HDEC, the command word 0x00000002 written to CMD (R130, R200). -/
def execHdec (s : State) : Out := launch (.hdec .check) hdecTurn s

end Sys2Proof.Machine
end

