-- ==== Sys2Proof/Machine/Henc.lean ====
section
/-! DEFINITION. HENC, the Huffman encoder: its phases and its meaning (41_huffman_encoder.md). -/

namespace Sys2Proof.Machine

/-- COUNT: EMPTY_INPUT on an empty input, else one pass over the input (R161, R162). -/
def hencCount (s : State) : Out :=
  if s.latched.src.len = 0 then raiseError .beforeWrite ⟨.hencEmpty, 0⟩ s
  else
    .next { s with
      phase := .henc .build
      store := { s.store with freq := countFreq (s.regionBytes s.latched.src) s.store.freq } }

/-- BUILD: the leaves and the merges (R163 to R166). -/
def hencBuild (s : State) : Out :=
  let t := buildTree s.store.freq
  .next { s with
    phase := .henc .codegen
    store := { s.store with
      node := t.node
      root := t.root
      pq := t.pq
      leaves := (keys s.store.freq).length } }

/-- CODEGEN: the code table (R167). -/
def hencCodegen (s : State) : Out :=
  let t := codegen s.store.node s.store.root s.store.code
  .next { s with
    phase := .henc .size
    store := { s.store with stk := t.1, code := t.2 } }

/-- SIZE: the output lengths, then the capacity checks, payload first (R169, R170). -/
def hencSize (s : State) : Out :=
  let b := codeBits s.store.freq s.store.code
  let n := payloadLen b
  let m := descriptorLen s.store.leaves
  if n > s.latched.dst.len then raiseError .beforeWrite ⟨.dstFull, min n (2 ^ 32 - 1)⟩ s
  else if m > s.latched.aux.len then raiseError .beforeWrite ⟨.auxFull, m⟩ s
  else
    .next { s with
      phase := .henc .serialize
      store := { s.store with
        padBits := padLen b
        payLen := n
        descLen := m
        maxDepth := maxCodeLen s.store.freq s.store.code } }

/-- SERIALIZE: the descriptor goes to AUX (R171). -/
def hencSerialize (s : State) : Out :=
  .next { writeRegion s.latched.aux 0 (descriptorBytes s.store.node s.store.root) s with phase := .henc .pack }

/-- The results of HENC (R173). -/
def hencResults (st : Store) : Results :=
  { resLen := st.payLen, resAuxLen := st.descLen, info := infoWord st.leaves st.maxDepth, dictSize := 0 }

/-- PACK: the input is read again, the payload goes to DST, and HENC completes with success (R172, R173). If the host
wrote a byte of SRC meanwhile, HENC still completes, with a free outcome (R350: `complete`). -/
def hencPack (s : State) : Out :=
  complete (hencResults s.store)
    (writeRegion s.latched.dst 0 (payloadBytes s.store.code s.store.padBits (s.regionBytes s.latched.src)) s)

/-- One phase of HENC (R160). -/
def hencPhase (p : HencPhase) (s : State) : Out :=
  match p with
  | .check => checkPhase .henc (.henc .count) s
  | .count => hencCount s
  | .build => hencBuild s
  | .codegen => hencCodegen s
  | .size => hencSize s
  | .serialize => hencSerialize s
  | .pack => hencPack s

/-- A turn of the core on HENC: its current phase. -/
def hencTurn (s : State) : Out :=
  match s.phase with
  | .henc p => hencPhase p s
  | .hdec _ => .next s
  | .lenc _ => .next s
  | .ldec _ => .next s

/-- HENC, the command word 0x00000001 written to CMD (R130, R160). -/
def execHenc (s : State) : Out := launch (.henc .check) hencTurn s

end Sys2Proof.Machine
end

