-- ==== Sys2Proof/Machine/Lzw.lean ====
section
/-! DEFINITION. The LZW coder as functions on bytes, codes and the dictionary (43_lzw_encoder.md,
44_lzw_decoder.md). DICT is the list of its entry strings by code, so NEXT is its length (R42). -/

namespace Sys2Proof.Machine

/-! ## LENC -/

/-- The variables of SCAN (R241): DICT, the candidate w, and the codes emitted so far (count is their number). -/
structure Scan where
  dict : List (List Byte)
  cand : List Byte
  codes : List Nat
  deriving DecidableEq, Repr

/-- The code of an entry string: DICT[w] of R242. -/
def codeOfString (dict : List (List Byte)) (w : List Byte) : Nat := dict.idxOf w

/-- emit(c) of R244: the capacity check for one more word after `count` words. -/
def emitCheck (cap count : Nat) : Except Raise Unit :=
  if 4 * count + 4 > cap then .error ⟨.dstFull, 4 * count⟩ else .ok ()

/-- One input byte of SCAN (R242), at index `i`, for a dictionary of at most `dictCap` entries and a DST of
`cap` bytes. -/
def scanByte (dictCap cap i : Nat) (b : Byte) (s : Scan) : Except Raise Scan :=
  if s.cand ++ [b] ∈ s.dict then .ok { s with cand := s.cand ++ [b] }
  else
    match emitCheck cap s.codes.length with
    | .error e => .error e
    | .ok _ =>
      if s.dict.length = dictCap then .error ⟨.dictFull, i⟩
      else .ok { dict := s.dict ++ [s.cand ++ [b]], cand := [b],
                 codes := s.codes ++ [codeOfString s.dict s.cand] }

/-- SCAN over the input bytes from index `i` on (R242). -/
def scanBytes (dictCap cap : Nat) : Nat → List Byte → Scan → Except Raise Scan
  | _, [], s => .ok s
  | i, b :: bs, s =>
    match scanByte dictCap cap i b s with
    | .error e => .error e
    | .ok s' => scanBytes dictCap cap (i + 1) bs s'

/-- The bytes of a code stream (R108). -/
def streamBytes (codes : List Nat) : List Byte := codes.flatMap bytesOfWord

/-! ## LDEC -/

/-- The variables of LDEC (R272, R273): DICT, prev, p, and the bytes emitted since `p` stood at the start. -/
structure Unscan where
  dict : List (List Byte)
  prev : List Byte
  pos : Nat
  out : List Byte
  deriving DecidableEq, Repr

/-- emit_string(e) of R277 into a DST of `cap` bytes, from output position `p`: the position after it. The
capacity is checked before each byte. -/
def emitString (cap : Nat) : List Byte → Nat → Except Raise Nat
  | [], p => .ok p
  | _ :: e, p => if p = cap then .error ⟨.dstFull, p⟩ else emitString cap e (p + 1)

/-- The string of a code after the first (R274, R275): an entry, or prev ++ prev[0] for the code NEXT. -/
def stringOfCode (dict : List (List Byte)) (prev : List Byte) (k : Nat) : Option (List Byte) :=
  if k < dict.length then dict[k]?
  else if k = dict.length then some (prev ++ prev.take 1)
  else none

/-- One code of LOOP (R274 to R277), at index `i`, for a dictionary of at most `dictCap` entries. -/
def unscanCode (dictCap cap i k : Nat) (s : Unscan) : Except Raise Unscan :=
  match stringOfCode s.dict s.prev k with
  | none => .error ⟨.undefinedCode, 4 * i⟩
  | some e =>
    match emitString cap e s.pos with
    | .error r => .error r
    | .ok p =>
      if s.dict.length = dictCap then .error ⟨.dictFull, 4 * i⟩
      else .ok { dict := s.dict ++ [s.prev ++ e.take 1], prev := e, pos := p, out := s.out ++ e }

/-- LOOP over the codes from index `i` on (R274). -/
def unscanCodes (dictCap cap : Nat) : Nat → List Nat → Unscan → Except Raise Unscan
  | _, [], s => .ok s
  | i, k :: ks, s =>
    match unscanCode dictCap cap i k s with
    | .error e => .error e
    | .ok s' => unscanCodes dictCap cap (i + 1) ks s'

end Sys2Proof.Machine
end

