-- ==== Sys2Proof/Machine/Ldec.lean ====
section
/-! DEFINITION. LDEC, the LZW decoder: its phases and its meaning (44_lzw_decoder.md). -/

namespace Sys2Proof.Machine

/-- DICT[k] of R273, the entry string of a code; empty where DICT has no entry k (DESIGN CHOICE, log entry 30). -/
def stringAt (dict : List (List Byte)) (k : Nat) : List Byte := (dict[k]?).getD []

/-- FIRST: whole words, then the first code; an empty stream goes straight to FINISH (R271 to R273). -/
def ldecFirst (s : State) : Out :=
  if s.latched.src.len % 4 ≠ 0 then
    raiseError .beforeWrite ⟨.partialWord, s.latched.src.len - s.latched.src.len % 4⟩ s
  else
    match codesOfBytes (s.regionBytes s.latched.src) with
    | [] => .next { s with phase := .ldec .finish }
    | k :: _ =>
      if k ≥ 256 then raiseError .beforeWrite ⟨.firstCode, 0⟩ s
      else
        match emitString s.latched.dst.len (stringAt s.store.dict k) 0 with
        | .error e => raiseError .afterWrite e s
        | .ok p =>
          .next { writeRegion s.latched.dst 0 (stringAt s.store.dict k) s with
            phase := .ldec .loop
            store := { s.store with prev := stringAt s.store.dict k, outPos := p } }

/-- LOOP: the codes after the first, in stream order (R274 to R277). -/
def ldecLoop (s : State) : Out :=
  match unscanCodes s.params.dictCap s.latched.dst.len 1 ((codesOfBytes (s.regionBytes s.latched.src)).drop 1)
      { dict := s.store.dict, prev := s.store.prev, pos := s.store.outPos, out := [] } with
  | .error e => raiseError .afterWrite e s
  | .ok t =>
    .next { writeRegion s.latched.dst s.store.outPos t.out s with
      phase := .ldec .finish
      store := { s.store with dict := t.dict, prev := t.prev, outPos := t.pos } }

/-- The results of LDEC (R279). -/
def ldecResults (st : Store) : Results :=
  { resLen := st.outPos, resAuxLen := 0, info := 0, dictSize := st.dict.length }

/-- FINISH: the expected length with LENCHK (R278); then LDEC completes (R279). -/
def ldecFinish (s : State) : Out :=
  if s.latchedLenchk ∧ s.store.outPos ≠ s.latched.expLen.toNat then
    raiseError .afterWrite ⟨.ldecLengthMismatch, s.store.outPos⟩ s
  else complete (ldecResults s.store) s

/-- One phase of LDEC (R270). -/
def ldecPhase (p : LdecPhase) (s : State) : Out :=
  match p with
  | .check => checkPhase .ldec (.ldec .first) s
  | .first => ldecFirst s
  | .loop => ldecLoop s
  | .finish => ldecFinish s

/-- A turn of the core on LDEC: its current phase. -/
def ldecTurn (s : State) : Out :=
  match s.phase with
  | .henc _ => .next s
  | .hdec _ => .next s
  | .lenc _ => .next s
  | .ldec p => ldecPhase p s

/-- LDEC, the command word 0x00000004 written to CMD (R130, R270). -/
def execLdec (s : State) : Out := launch (.ldec .check) ldecTurn s

end Sys2Proof.Machine
end

