-- ==== Sys2Proof/Machine/Lenc.lean ====
section
/-! DEFINITION. LENC, the LZW encoder: its phases and its meaning (43_lzw_encoder.md). -/

namespace Sys2Proof.Machine

/-- SCAN: the input bytes in address order (R241, R242, R244, R245). -/
def lencScan (s : State) : Out :=
  match scanBytes s.params.dictCap s.latched.dst.len 0 (s.regionBytes s.latched.src)
      { dict := s.store.dict, cand := s.store.cand, codes := [] } with
  | .error e => raiseError .afterWrite e s
  | .ok t =>
    .next { writeRegion s.latched.dst 0 (streamBytes t.codes) s with
      phase := .lenc .flush
      store := { s.store with dict := t.dict, cand := t.cand, count := t.codes.length } }

/-- The results of LENC after `count` codes (R246). -/
def lencResults (count next : Nat) : Results :=
  { resLen := 4 * count, resAuxLen := 0, info := 0, dictSize := next }

/-- FLUSH: the code of the final candidate, if there is one; then LENC completes (R243, R246). -/
def lencFlush (s : State) : Out :=
  if s.store.cand = [] then complete (lencResults s.store.count s.store.dict.length) s
  else
    match emitCheck s.latched.dst.len s.store.count with
    | .error e => raiseError .afterWrite e s
    | .ok _ =>
      complete (lencResults (s.store.count + 1) s.store.dict.length)
        { writeRegion s.latched.dst (4 * s.store.count)
            (bytesOfWord (codeOfString s.store.dict s.store.cand)) s with
          store := { s.store with count := s.store.count + 1 } }

/-- One phase of LENC (R240). -/
def lencPhase (p : LencPhase) (s : State) : Out :=
  match p with
  | .check => checkPhase .lenc (.lenc .scan) s
  | .scan => lencScan s
  | .flush => lencFlush s

/-- A turn of the core on LENC: its current phase. -/
def lencTurn (s : State) : Out :=
  match s.phase with
  | .henc _ => .next s
  | .hdec _ => .next s
  | .lenc p => lencPhase p s
  | .ldec _ => .next s

/-- LENC, the command word 0x00000003 written to CMD (R130, R240). -/
def execLenc (s : State) : Out := launch (.lenc .check) lencTurn s

end Sys2Proof.Machine
end

