-- ==== Sys2Proof/Machine/Sequencer.lean ====
section
/-! DEFINITION. The command sequencer: a turn of the core, and the running on of a BUSY command (10_state.md R22,
70_reset_and_hazards.md R360). -/

namespace Sys2Proof.Machine

/-- One phase of the running command (R22); nothing while IDLE (R300). -/
def coreTurn (s : State) : Out :=
  if s.busy then
    match s.phase with
    | .henc p => hencPhase p s
    | .hdec p => hdecPhase p s
    | .lenc p => lencPhase p s
    | .ldec p => ldecPhase p s
  else .next s

/-- With no event waiting the core goes on to its completion (R149, R360); while IDLE nothing happens. -/
def coreRun (s : State) : Out := runTurns coreTurn maxPhases s

end Sys2Proof.Machine
end

