-- ==== Sys2Proof/Machine/Step.lean ====
section
/-! DEFINITION. One step: the next event of 60_exceptions.md R316, or the core's run to its completion when no
event waits. -/

namespace Sys2Proof.Machine

/-- The host access has been served; a command word goes to the decoder and its instruction to exec (R130,
R131, R142). -/
def finishServed : Served → Host.Outcome State Fault Refusal
  | .outcome o => o
  | .command w s =>
    match decode w with
    | .ok i => exec i s
    | .error _ => .next (illegalWord s)

/-- One event (R316). -/
def serve (e : Event) (s : State) : Host.Outcome State Fault Refusal :=
  match e with
  | .bus t => finishServed (serveBus t s)
  | .access a => finishServed (serveAccess a s)
  | .core => coreTurn s
  | .reset => .next (resetEvent s)

/-- One step (R316, R360): the event at the front of the queue, or the core when the queue is empty. -/
def step (s : State) : Host.Outcome State Fault Refusal :=
  match s.events with
  | [] => coreRun s
  | e :: rest => serve e { s with events := rest }

/-- The state in which the host's next access writes the instruction's word to CMD, with no event after it: the
very next step fetches that word as the data of the CMD write (R77, R90, R130). -/
def State.withFetchWord (s : State) (nbits w : Nat) : State :=
  { s with events := [cmdWrite (BitVec.ofNat 32 (w % 2 ^ nbits))] }

end Sys2Proof.Machine
end

