-- ==== Sys2Proof/Machine/Script.lean ====
section
/-! DEFINITION. Host scripts: their lines, the expansion of the pseudo-instructions, the bus transactions of the
actions, and what running a line does (30_encoding.md R120 to R123). A script is the host's: it stands outside
State (R123), and the machine sees its transactions only. -/

namespace Sys2Proof.Machine

/-- A label: one the script names, or the fresh one of a `wait` (R120, R122). -/
inductive ScriptLabel where
  | named (name : String)
  | fresh (n : Nat)
  deriving DecidableEq, Repr

/-- The actions of a host script (R120). -/
inductive Action where
  | label (l : ScriptLabel)
  | wr (r : Reg) (v : Word)
  | rd (r : Reg) (t : String)
  | sb (a : Nat) (v : Byte)
  | lb (a : Nat) (t : String)
  | beq (t : String) (m v : Nat) (l : ScriptLabel)
  | bne (t : String) (m v : Nat) (l : ScriptLabel)
  | halt
  deriving DecidableEq, Repr

/-- The three regions of the pseudo-instruction `region` (R122). -/
inductive RegionName where
  | src | dst | aux
  deriving DecidableEq, Repr

/-- The lines of a host script: actions and pseudo-instructions (R120, R122). -/
inductive ScriptLine where
  | act (a : Action)
  | go (i : Instr)
  | wait
  | clr
  | sbs (a : Nat) (bytes : List Byte)
  | region (r : RegionName) (a n : Word)
  deriving DecidableEq, Repr

/-- The registers that `region` writes (R122). -/
def RegionName.regs : RegionName → Reg × Reg
  | .src => (.srcAddr, .srcLen)
  | .dst => (.dstAddr, .dstLen)
  | .aux => (.auxAddr, .auxLen)

/-- The byte writes of `sbs` (R122). -/
def expandBytes (a : Nat) : List Byte → List Action
  | [] => []
  | b :: bs => .sb a b :: expandBytes (a + 1) bs

/-- The expansion of a line, with `k` as the number of its fresh label (R122). -/
def expandLine (k : Nat) : ScriptLine → List Action
  | .act a => [a]
  | .go i => [.wr .cmd (encode i)]
  | .wait => [.label (.fresh k), .rd .status "t", .bne "t" 2 2 (.fresh k)]
  | .clr => [.wr .status 0xE]
  | .sbs a bytes => expandBytes a bytes
  | .region r a n => [.wr r.regs.1 a, .wr r.regs.2 n]

/-- The expansion of a script: the number of a line makes its fresh label (R122). -/
def expandScript : Nat → List ScriptLine → List Action
  | _, [] => []
  | k, l :: ls => expandLine k l ++ expandScript (k + 1) ls

/-- The bus transaction of an action; none for host-side control flow (R121). -/
def Action.transaction (p : Params) : Action → Option Transaction
  | .label _ => none
  | .wr r v => some ⟨p.csrBase + r.offset, 4, some v⟩
  | .rd r _ => some ⟨p.csrBase + r.offset, 4, none⟩
  | .sb a v => some ⟨p.bufHostBase + a, 1, some (v.setWidth 32)⟩
  | .lb a _ => some ⟨p.bufHostBase + a, 1, none⟩
  | .beq _ _ _ _ => none
  | .bne _ _ _ _ => none
  | .halt => none

/-- The host of a script: the line it is at, its variables (unbounded integers, R120), and whether it halted. -/
structure ScriptHost where
  line : Nat
  vars : List (String × Nat)
  halted : Bool
  deriving DecidableEq, Repr

/-- A host variable; 0 before its first assignment. -/
def ScriptHost.var (h : ScriptHost) (t : String) : Nat :=
  ((h.vars.find? fun v => v.1 == t).map Prod.snd).getD 0

/-- Assigning a host variable. -/
def ScriptHost.assign (h : ScriptHost) (t : String) (v : Nat) : ScriptHost :=
  { h with vars := (t, v) :: h.vars.filter fun w => w.1 != t }

/-- The host's control flow and variables after a line whose access answered `v` (R120). A branch goes to the first
line with its label, or past the end where there is none (DESIGN CHOICE, log entry 23). -/
def ScriptHost.after (prog : List Action) (a : Action) (v : Word) (h : ScriptHost) : ScriptHost :=
  let next := { h with line := h.line + 1 }
  let jump := fun l => { h with line := prog.idxOf (.label l) }
  match a with
  | .label _ => next
  | .wr _ _ => next
  | .rd _ t => next.assign t v.toNat
  | .sb _ _ => next
  | .lb _ t => next.assign t v.toNat
  | .beq t m w l => if Nat.land (h.var t) m = w then jump l else next
  | .bne t m w l => if Nat.land (h.var t) m ≠ w then jump l else next
  | .halt => { h with halted := true }

/-- Steps of the machine until its queue is empty, at most `n`. -/
def drain : Nat → State → Host.Outcome State Fault Refusal
  | 0, s => .next s
  | n + 1, s =>
    if s.events.isEmpty then .next s
    else
      match step s with
      | .next t => drain n t
      | .fault f => .fault f
      | .refused r => .refused r

/-- One line of a script (R120, R121, R123): its transaction, if it makes one, is the machine's next event, and the
events of `gap` follow it before the script's next line. A script that has run off its end is halted. -/
def scriptStep (prog : List Action) (gap : List Event) (h : ScriptHost) (s : State) :
    Host.Outcome (ScriptHost × State) Fault Refusal :=
  match prog[h.line]? with
  | none => .next ({ h with halted := true }, s)
  | some a =>
    match a.transaction s.params with
    | none =>
      match drain gap.length { s with events := gap } with
      | .fault f => .fault f
      | .refused r => .refused r
      | .next w => .next (h.after prog a 0, w)
    | some t =>
      match step { s with events := .bus t :: gap } with
      | .fault f => .fault f
      | .refused r => .refused r
      | .next u =>
        match drain gap.length u with
        | .fault f => .fault f
        | .refused r => .refused r
        | .next w => .next (h.after prog a u.hostData, w)

/-- At most `n` lines of a script, until it halts; the events of `gaps k` follow its k-th line. -/
def scriptRun (prog : List Action) : (gaps : Nat → List Event) → Nat → ScriptHost → State →
    Host.Outcome (ScriptHost × State) Fault Refusal
  | _, 0, h, s => .next (h, s)
  | gaps, n + 1, h, s =>
    if h.halted then .next (h, s)
    else
      match scriptStep prog (gaps 0) h s with
      | .fault f => .fault f
      | .refused r => .refused r
      | .next w => scriptRun prog (fun k => gaps (k + 1)) n w.1 w.2

/-- The weak fairness of R360, for the events between the lines of a script: a turn of the core comes again and
again. -/
def FairGaps (gaps : Nat → List Event) : Prop := ∀ n, ∃ m, n ≤ m ∧ Event.core ∈ gaps m

end Sys2Proof.Machine
end

