-- ==== Sys2Proof/Safety.lean ====
section
/-! DEFINITION. The terms claims are made in: what a run keeps, how a command ends, and the coders of the spec as
functions on trees and strings, without capacities or caps. -/

namespace Sys2Proof.Machine

/-! ## States and ends of commands -/

/-- No command runs and no event waits: a command started now runs on to its completion. -/
def State.ready (s : State) : Prop := s.seqState = .idle ∧ s.events = []

/-- The region checks of the command pass on the operand registers (R136). -/
def State.regionsPass (s : State) (i : Instr) : Prop :=
  checkRegions s.params.memSize i s.operands = none

/-- What no command changes: the instance's parameters, CTRL, the operand registers, CMD_REJECTED, and the
host's side (R133, R139, R320). -/
def HostSame (s t : State) : Prop :=
  t.params = s.params ∧ t.irqEn = s.irqEn ∧ t.lenchk = s.lenchk ∧ t.operands = s.operands ∧
    t.cmdRejected = s.cmdRejected ∧ t.hostData = s.hostData ∧ t.events = s.events

/-- BUF is unchanged at every address outside the given regions. -/
def SameOutside (rs : List Region) (s t : State) : Prop :=
  ∀ a, rs.any (fun r => r.has a) = false → t.byteAt a = s.byteAt a

/-- A success completion of a command that was started in `s` (R138), with its four results. -/
def Succeeded (resLen resAuxLen : Nat) (info : Word) (dictSize : Nat) (s t : State) : Prop :=
  t.seqState = .idle ∧ t.done = true ∧ t.error = false ∧ t.progress = 4 ∧
    t.resLen.toNat = resLen ∧ t.resAuxLen.toNat = resAuxLen ∧ t.info = info ∧
    t.dictSize.toNat = dictSize ∧ t.err = 0 ∧ t.errOffset = 0 ∧ HostSame s t

/-- An error completion of a command that was written in `s` (R139), with its cause and offset. -/
def Failed (c : Cause) (offset : Nat) (s t : State) : Prop :=
  t.seqState = .idle ∧ t.done = true ∧ t.error = true ∧ t.progress = 4 ∧
    t.resLen = 0 ∧ t.resAuxLen = 0 ∧ t.info = 0 ∧ t.dictSize = 0 ∧
    t.err = errWord c ∧ t.errOffset.toNat = offset ∧ HostSame s t

/-- The turns of the core that a running command has left at most, by the order of its phases (R22). -/
def Phase.turnsLeft : Phase → Nat
  | .henc .check => 7
  | .henc .count => 6
  | .henc .build => 5
  | .henc .codegen => 4
  | .henc .size => 3
  | .henc .serialize => 2
  | .henc .pack => 1
  | .hdec .check => 5
  | .hdec .parse => 4
  | .hdec .header => 3
  | .hdec .walk => 2
  | .hdec .finish => 1
  | .lenc .check => 3
  | .lenc .scan => 2
  | .lenc .flush => 1
  | .ldec .check => 4
  | .ldec .first => 3
  | .ldec .loop => 2
  | .ldec .finish => 1

/-! ## The invariant of every step -/

/-- What every step keeps: BUF in canonical form and inside MEM_SIZE; ERR and INFO within their fields; PROGRESS,
DONE and ERROR as SEQ.state has them; DICT between its seed and the cap; the regions checked once CHECK is over;
the model's marks only while BUSY. -/
structure Inv (s : State) : Prop where
  memOk : s.mem.wf s.params.memSize = true
  errOk : errLegal s.err = true
  infoOk : s.info &&& ~~~infoMask = 0
  progressOk : s.progress = 0 ∨ s.progress = 4
  busyFlags : s.seqState = .busy → s.done = false ∧ s.error = false ∧ s.progress = 0
  dictOk : 256 ≤ s.store.dict.length ∧ s.store.dict.length ≤ s.params.dictCap
  checked : s.seqState = .busy →
    s.phase = .henc .check ∨ s.phase = .hdec .check ∨ s.phase = .lenc .check ∨ s.phase = .ldec .check ∨
      checkRegions s.params.memSize s.phase.command s.latched = none
  marksOk : s.seqState = .idle → s.inTouched = false ∧ s.outTouched = false

/-! ## The Huffman coder on trees -/

/-- A Huffman tree (R16, R38): leaves hold symbols, internal nodes have exactly two children. -/
inductive HTree where
  | leaf (s : Byte)
  | node (l r : HTree)
  deriving DecidableEq, Repr

/-- T(n) of R105: 0 for an internal node, 1 and the symbol for a leaf, the left subtree first. -/
def HTree.bits : HTree → BitString
  | .leaf s => true :: bin8 s
  | .node l r => false :: (l.bits ++ r.bits)

/-- The nodes of a tree in the pre-order of its tree bit string, an internal node as none (R105). -/
def HTree.tokens : HTree → List (Option Byte)
  | .leaf s => [some s]
  | .node l r => none :: (l.tokens ++ r.tokens)

/-- The bits of nodes in pre-order (R105). -/
def tokenBits (ts : List (Option Byte)) : BitString :=
  ts.flatMap fun t =>
    match t with
    | some s => true :: bin8 s
    | none => [false]

/-- The symbols of the leaves among nodes in pre-order. -/
def leafSyms (ts : List (Option Byte)) : List Byte := ts.filterMap id

/-- Nodes in pre-order that do not make a whole tree yet: no beginning of them has more leaves than internal nodes. -/
def Unfinished (ts : List (Option Byte)) : Prop := ∀ p, p <+: ts → (leafSyms p).length ≤ p.count none

/-- The symbols of the leaves, from left to right. -/
def HTree.syms : HTree → List Byte
  | .leaf s => [s]
  | .node l r => l.syms ++ r.syms

/-- The largest leaf depth (R30: MAX_CODE_LEN). -/
def HTree.depth : HTree → Nat
  | .leaf _ => 0
  | .node l r => 1 + max l.depth r.depth

/-- The code of a symbol: the path to its leaf, left edge 0 and right edge 1 (R16, R167). -/
def HTree.codeOf : HTree → Byte → BitString
  | .leaf _, _ => []
  | .node l r, s => if s ∈ l.syms then false :: l.codeOf s else true :: r.codeOf s

/-- The code bits of a message (R102). -/
def HTree.encode (t : HTree) (y : List Byte) : BitString := y.flatMap t.codeOf

/-- The descriptor of a tree (R104). -/
def HTree.descriptor (t : HTree) : List Byte := 1#8 :: packBits (padBits t.bits)

/-- A payload with the given data bits (R100, R101). -/
def bitsPayload (bits : BitString) : List Byte :=
  BitVec.ofNat 8 (padLen bits.length) :: packBits (padBits bits)

/-- The payload of a message (R102). -/
def HTree.payload (t : HTree) (y : List Byte) : List Byte := bitsPayload (t.encode y)

/-- The records of NODE at index `n` form the tree `t` (R38). -/
def IsTree (node : List Node) : Nat → HTree → Prop
  | n, .leaf s => ∃ w, node[n]? = some (.leaf w s)
  | n, .node l r => ∃ w a b, node[n]? = some (.internal w a b) ∧ IsTree node a l ∧ IsTree node b r

/-- The order of PQ: the key (NODE[m].weight, m) is at most that of n (R39). -/
def KeyAtMost (node : List Node) (m n : Nat) : Prop :=
  weightAt node m < weightAt node n ∨ (weightAt node m = weightAt node n ∧ m ≤ n)

/-- When NODE[k] is made, node n waits in PQ: it exists, and no record before NODE[k] has it as a child (R165). -/
def Waits (node : List Node) (k n : Nat) : Prop :=
  n < k ∧ ∀ j w a b, j < k → node[j]? = some (.internal w a b) → n ≠ a ∧ n ≠ b

/-- NODE[k] is a merge of R165: its left child is the least waiting node, its right child the least of the others, and
its weight their sum. -/
def MergesLeast (node : List Node) (k w a b : Nat) : Prop :=
  Waits node k a ∧ Waits node k b ∧ a ≠ b ∧ w = weightAt node a + weightAt node b ∧
    (∀ n, Waits node k n → KeyAtMost node a n) ∧ ∀ n, Waits node k n → n ≠ a → KeyAtMost node b n

/-- The frequency table of an input (R161). -/
def freqTable (x : List Byte) : Vector Nat 256 := countFreq x (Vector.replicate 256 0)

/-- What BUILD makes of an input (R163 to R166). -/
def hencTree (x : List Byte) : Built := buildTree (freqTable x)

/-- The code table of an input (R167). -/
def hencCode (x : List Byte) : Vector (Option BitString) 256 :=
  (codegen (hencTree x).node (hencTree x).root (Vector.replicate 256 none)).2

/-- The number of distinct bytes of an input: the number of leaves of its tree (R163). -/
def distinctCount (x : List Byte) : Nat := x.dedup.length

/-- The payload length of an input (R103). -/
def hencPayLen (x : List Byte) : Nat := payloadLen (encodeBits (hencCode x) x).length

/-- The length of the longest code of an input's code table, over the bytes of the input (R169). -/
def hencMaxLen (x : List Byte) : Nat := (x.map fun b => (codeOf (hencCode x) b).length).foldl max 0

/-! ## The LZW coder without capacity and cap -/

/-- SCAN without the checks of R244 and R245 (R242). -/
def lzwScan : List Byte → Scan → Scan
  | [], s => s
  | b :: bs, s =>
    if s.cand ++ [b] ∈ s.dict then lzwScan bs { s with cand := s.cand ++ [b] }
    else
      lzwScan bs
        { dict := s.dict ++ [s.cand ++ [b]], cand := [b], codes := s.codes ++ [codeOfString s.dict s.cand] }

/-- The codes of an input (R242, R243). -/
def lzwCodes (x : List Byte) : List Nat :=
  let s := lzwScan x { dict := seedDict, cand := [], codes := [] }
  if s.cand = [] then s.codes else s.codes ++ [codeOfString s.dict s.cand]

/-- The number of entries that SCAN inserts over an input (R242). -/
def lzwInserts (x : List Byte) : Nat :=
  (lzwScan x { dict := seedDict, cand := [], codes := [] }).dict.length - 256

/-- The bytes of the codes after the first, from DICT and prev on: an entry's string for a code below NEXT, prev ++
prev[0] for the code NEXT, none for a code above (R274, R275). -/
def lzwDecodeFrom : List Nat → List (List Byte) → List Byte → Option (List Byte)
  | [], _, _ => some []
  | k :: ks, dict, prev =>
    match if k = dict.length then some (prev ++ prev.take 1) else dict[k]? with
    | none => none
    | some e => (lzwDecodeFrom ks (dict ++ [prev ++ e.take 1]) e).map fun y => e ++ y

/-- The bytes of a code stream, without capacity and cap; none where LDEC finds it corrupt (R273 to R275). -/
def lzwDecode : List Nat → Option (List Byte)
  | [] => some []
  | k :: ks =>
    if k < 256 then (lzwDecodeFrom ks seedDict [BitVec.ofNat 8 k]).map fun y => BitVec.ofNat 8 k :: y else none

/-- The dictionary size a code stream of `n` codes ends with (R246, R279): 256 + max(n − 1, 0). -/
def lzwDictSize (n : Nat) : Nat := 256 + (n - 1)

end Sys2Proof.Machine
end

