-- ==== Sys2Proof/Certificates/Slice0/Obligations.lean ====
section
/-! DEFINITION. The statements for the provers. -/

open Sys2Proof Sys2Proof.Machine

/-! ## Command words and steps -/

/-- 30_encoding.md R91: the four legal command words, all 32 bits compared. -/
def Obligations.DecodeIffCommandWord : Prop :=
  ∀ w : Word,
    (decode w = .ok .henc ↔ w = 0x00000001) ∧ (decode w = .ok .hdec ↔ w = 0x00000002) ∧
    (decode w = .ok .lenc ↔ w = 0x00000003) ∧ (decode w = .ok .ldec ↔ w = 0x00000004)

/-- Decoding the encoding of a command gives the command back, directly and through the table's numbering of
bits; the encoded word is well formed (R90). -/
def Obligations.DecodeEncode : Prop :=
  ∀ i : Instr, i.wf = true → decode (encode i) = .ok i ∧
    decodeTableWord 32 (encode i).toNat = some i ∧ commandWordWf (encode i) = true

/-- A CMD write of a command word runs that command: at a state whose next event is a 32-bit write to CMD, as a
decoded access or as a transaction at CSR_BASE + 0x0C, the step is `exec` of the decoded instruction at the state
with that event taken off the queue. -/
def Obligations.StepRunsDecodedCommand : Prop :=
  ∀ (s : State) (rest : List Event) (w : Word) (i : Instr), decode w = .ok i →
    (s.events = cmdWrite w :: rest → step s = exec i { s with events := rest }) ∧
    (s.events = .bus ⟨s.params.csrBase + 0x0C, 4, some w⟩ :: rest →
      ¬ (s.params.bufHostBase ≤ s.params.csrBase + 0x0C ∧
          s.params.csrBase + 0x0C < s.params.bufHostBase + s.params.memSize) →
      step s = exec i { s with events := rest }) ∧
    step (s.withFetchWord 32 w.toNat) = exec i { s with events := [] }

/-- 40_command_lifecycle.md R131: an illegal command word written while IDLE latches and starts nothing, leaves
BUF alone, and is an error completion with ILLEGAL_COMMAND / BAD_OPCODE and offset 0. -/
def Obligations.IllegalCommandCompletesAtOnce : Prop :=
  ∀ (s : State) (rest : List Event) (w : Word), s.seqState = .idle → s.events = cmdWrite w :: rest →
    w ≠ 1 → w ≠ 2 → w ≠ 3 → w ≠ 4 →
    ∃ t, step s = .next t ∧ Failed .badOpcode 0 { s with events := rest } t ∧ t.err = 0x00000106 ∧
      t.mem = s.mem ∧ t.latched = s.latched ∧ t.latchedLenchk = s.latchedLenchk ∧ t.phase = s.phase

/-- 40_command_lifecycle.md R142: a CMD write while BUSY is dropped, whatever its value, sets CMD_REJECTED, and
changes nothing else. -/
def Obligations.BusyCommandWriteDropped : Prop :=
  ∀ (s : State) (rest : List Event) (w : Word), s.seqState = .busy → s.events = cmdWrite w :: rest →
    step s = .next { s with events := rest, cmdRejected := true }

/-! ## The lifecycle common to all commands -/

/-- R132, R133: a CMD write while IDLE latches the operand registers and CTRL.LENCHK and applies the start
effects. Here an event waits, so that the start is seen by itself (the model's event queue, log entry 3). -/
def Obligations.StartLatchesOperands : Prop :=
  ∀ (i : Instr) (s : State), s.seqState = .idle → s.events ≠ [] →
    ∃ t, exec i s = .next t ∧ t.latched = s.operands ∧ t.latchedLenchk = s.lenchk ∧
      t.done = false ∧ t.error = false ∧ t.progress = 0 ∧ t.seqState = .busy ∧
      t.phase.command = i ∧
      (t.phase = .henc .check ∨ t.phase = .hdec .check ∨ t.phase = .lenc .check ∨ t.phase = .ldec .check) ∧
      t.store = Store.fresh ∧ t.irq = false ∧ t.mem = s.mem ∧ HostSame s t

/-- R134, R135, R136: the region checks, ranges first in the order SRC, DST, AUX (HENC and HDEC only), then the
overlaps of the command's pairs; each is BAD_REGION with offset 0 and writes no BUF byte. -/
def Obligations.BadRegionReported : Prop :=
  ∀ (i : Instr) (s : State), s.ready →
    let out := fun r : Region => s.params.memSize < r.base + r.len
    let lap := fun r q : Region => 0 < r.len ∧ 0 < q.len ∧ r.base < q.base + q.len ∧ q.base < r.base + r.len
    let usesAux := i = .henc ∨ i = .hdec
    let src := s.operands.src
    let dst := s.operands.dst
    let aux := s.operands.aux
    let laps := lap src dst ∨ (i = .henc ∧ (lap src aux ∨ lap dst aux)) ∨ (i = .hdec ∧ lap aux dst)
    (out src → ∃ t, exec i s = .next t ∧ Failed .srcRange 0 s t ∧ t.err = 0x107 ∧ t.mem = s.mem) ∧
    (¬ out src → out dst → ∃ t, exec i s = .next t ∧ Failed .dstRange 0 s t ∧ t.err = 0x207 ∧ t.mem = s.mem) ∧
    (¬ out src → ¬ out dst → usesAux → out aux →
      ∃ t, exec i s = .next t ∧ Failed .auxRange 0 s t ∧ t.err = 0x307 ∧ t.mem = s.mem) ∧
    (¬ out src → ¬ out dst → ¬ (usesAux ∧ out aux) → laps →
      ∃ t, exec i s = .next t ∧ Failed .overlap 0 s t ∧ t.err = 0x407 ∧ t.mem = s.mem) ∧
    (¬ out src → ¬ out dst → ¬ (usesAux ∧ out aux) → ¬ laps → s.regionsPass i)

/-- R149, R350, R360: every command written while no command runs comes to a completion, with success or with an
error; and so does every running command when no event waits, in every BUSY state, whatever the host wrote
before. That the completion falls within the step is the model's choice (log entries 3 and 20). -/
def Obligations.EveryCommandCompletes : Prop :=
  (∀ (i : Instr) (s : State), s.ready →
    ∃ t, exec i s = .next t ∧ t.seqState = .idle ∧ t.done = true ∧ t.progress = 4 ∧ HostSame s t) ∧
  (∀ s : State, s.seqState = .busy → s.events = [] →
    ∃ t, step s = .next t ∧ t.seqState = .idle ∧ t.done = true ∧ t.progress = 4 ∧ HostSame s t)

/-- R145, R140: whatever its completion, a command changes no BUF byte outside its output regions, no operand
register, not CTRL and not CMD_REJECTED. -/
def Obligations.CommandWritesOnlyOutputs : Prop :=
  ∀ (i : Instr) (s t : State), s.seqState = .idle → exec i s = .next t →
    SameOutside (outputRegions i s.operands) s t ∧ HostSame s t

/-- R151: a register value written by a completion is within its bound. -/
def Obligations.ResultsWithinBounds : Prop :=
  ∀ (i : Instr) (s t : State), s.ready → exec i s = .next t →
    t.resLen.toNat ≤ s.operands.dstLen.toNat ∧ t.resAuxLen.toNat ≤ s.operands.auxLen.toNat ∧
    t.dictSize.toNat ≤ s.params.dictCap ∧ (t.info.extractLsb' 0 9).toNat ≤ 256 ∧
    t.info &&& ~~~infoMask = 0 ∧ errLegal t.err = true

/-- R46, R310: every completion sets DONE, so that IRQ is high after it exactly when IRQ_EN is 1. -/
def Obligations.CompletionRaisesIrq : Prop :=
  ∀ (i : Instr) (s t : State), s.ready → exec i s = .next t → t.irq = s.irqEn

/-- R137: a command's results depend on its operands, on the instance's parameters and on the bytes of its input
regions alone. -/
def Obligations.CommandDependsOnInputsOnly : Prop :=
  ∀ (i : Instr) (s s' t t' : State), s.ready → s'.ready → s.params = s'.params →
    s.operands = s'.operands → s.lenchk = s'.lenchk →
    (∀ r ∈ inputRegions i s.operands, s.regionBytes r = s'.regionBytes r) →
    exec i s = .next t → exec i s' = .next t' →
    t.error = t'.error ∧ t.resLen = t'.resLen ∧ t.resAuxLen = t'.resAuxLen ∧ t.info = t'.info ∧
      t.dictSize = t'.dictSize ∧ t.err = t'.err ∧ t.errOffset = t'.errOffset ∧
      (t.error = false →
        t.regionBytes ⟨s.operands.dst.base, t.resLen.toNat⟩ = t'.regionBytes ⟨s.operands.dst.base, t.resLen.toNat⟩ ∧
        (i = .henc → t.regionBytes ⟨s.operands.aux.base, t.resAuxLen.toNat⟩ =
          t'.regionBytes ⟨s.operands.aux.base, t.resAuxLen.toNat⟩))

/-- R70, R137: a command that was left BUSY by a waiting event and then runs on without one ends as the command
that ran on at once. The queue and what a step does with an empty one are the model's choice (log entry 3). -/
def Obligations.LateRunEqualsRunAtOnce : Prop :=
  ∀ (i : Instr) (s u : State) (e : Event) (rest : List Event), s.ready →
    exec i { s with events := e :: rest } = .next u → coreRun { u with events := [] } = exec i s

/-- R73, R132, R352, R353: what a host write does to a running command. A write of an operand register or of CTRL
commutes with a turn of the core. A write of a BUF byte outside the command's input regions leaves every register, the
phase and the internal storage as without it, after a turn and after the run to the completion; outside the output
regions too, that byte is all that differs, and inside them no byte outside the output regions does. A turn is one
phase (log entry 4). -/
def Obligations.HostWriteCommutesWithCore : Prop :=
  (∀ (s t : State) (r : Reg) (v : Word), s.seqState = .busy → r ≠ .cmd → r ≠ .status →
    coreTurn s = .next t → coreTurn (writeReg r v s) = .next (writeReg r v t)) ∧
  (∀ (s t : State) (a : Nat) (b : Byte) (run : State → Out), run = coreTurn ∨ run = coreRun →
    s.seqState = .busy → s.inInput a = false → run s = .next t →
    ∃ u, run (writeBuf a b s) = .next u ∧
      { u with mem := t.mem, outTouched := t.outTouched, draws := t.draws } = t ∧
      (t.seqState = .idle → u.outTouched = t.outTouched) ∧
      (s.inOutput a = false → u.outTouched = t.outTouched ∧ u.draws = t.draws ∧ u.byteAt a = b ∧
        ∀ c, c ≠ a → u.byteAt c = t.byteAt c) ∧
      (s.inOutput a = true → SameOutside (outputRegions s.phase.command s.latched) t u))

/-- R143: no host access stops, pauses or changes a running command. -/
def Obligations.HostAccessKeepsRunningCommand : Prop :=
  ∀ (s t : State) (e : Event) (rest : List Event), s.seqState = .busy → s.events = e :: rest →
    e ≠ .core → e ≠ .reset → step s = .next t →
    t.seqState = .busy ∧ t.phase = s.phase ∧ t.latched = s.latched ∧
      t.latchedLenchk = s.latchedLenchk ∧ t.store = s.store

/-- R140, R145, R149, R350, R352: a turn of the core on a running command, whatever the host wrote before, answers a
next state and changes no BUF byte outside the output regions. A turn that ends the command sets DONE and PROGRESS = 4
and reports an ERR of the table; one that does not changes only the phase, the internal storage and BUF, and leaves
fewer turns. A turn is one phase (log entry 4); that ERR stays in the table after a host write to an input region
is the model's choice (log entry 9). -/
def Obligations.CoreTurnConfined : Prop :=
  ∀ s : State, s.seqState = .busy →
    ∃ t, coreTurn s = .next t ∧ SameOutside (outputRegions s.phase.command s.latched) s t ∧ HostSame s t ∧
      (t.seqState = .idle → t.done = true ∧ t.progress = 4 ∧ errLegal t.err = true) ∧
      (t.seqState = .busy →
        t.phase.command = s.phase.command ∧ t.phase.turnsLeft < s.phase.turnsLeft ∧
          t = { s with phase := t.phase, store := t.store, mem := t.mem })

/-! ## HENC -/

/-- R161: after COUNT, FREQ[s] is the number of input bytes equal to s, and the counters sum to the input's length. -/
def Obligations.FrequencyTableCounts : Prop :=
  ∀ x : List Byte, (∀ s : Byte, freqOf (freqTable x) s = x.count s) ∧
    (symbols.map (freqOf (freqTable x))).sum = x.length

/-- R163 to R167: BUILD makes one tree whose leaves are the distinct input bytes, each once, in ascending order with
their counts as NODE[0] to NODE[L − 1]; NNODE = 2·L − 1, the root's weight is the input's length, and PQ is left empty.
Every internal node has the least waiting node as its left child and the least of the others as its right child, in the
order (weight, index) of R39, which is also the order in which PQ.extract_min takes its members. -/
def Obligations.BuildMakesTree : Prop :=
  (∀ x : List Byte, x ≠ [] →
    (∃ tr : HTree, IsTree (hencTree x).node (hencTree x).root tr ∧ tr.syms.Nodup ∧
      (∀ s : Byte, s ∈ tr.syms ↔ s ∈ x) ∧ (∀ s ∈ x, codeOf (hencCode x) s = tr.codeOf s)) ∧
    (hencTree x).node.length = 2 * distinctCount x - 1 ∧
    (hencTree x).node.take (distinctCount x) =
      (symbols.filter fun s => decide (s ∈ x)).map (fun s => Node.leaf (x.count s) s) ∧
    (∀ k w a b, (hencTree x).node[k]? = some (.internal w a b) → MergesLeast (hencTree x).node k w a b) ∧
    weightAt (hencTree x).node (hencTree x).root = x.length ∧ (hencTree x).pq = []) ∧
  (∀ (node : List Node) (pq rest : List Nat) (m : Nat), extractMin node pq = some (m, rest) →
    pq.Perm (m :: rest) ∧ ∀ n ∈ pq, KeyAtMost node m n)

/-- R168: the code table of HENC is prefix-free, and with two symbols or more every code has 1 to L − 1 bits and
the lengths satisfy the sum Σ 2^(−len) = 1 (scaled here by 2^255). -/
def Obligations.HencCodesPrefixFree : Prop :=
  ∀ x : List Byte,
    (∀ s ∈ x, ∀ t ∈ x, s ≠ t → ¬ codeOf (hencCode x) s <+: codeOf (hencCode x) t) ∧
    (2 ≤ distinctCount x →
      (∀ s ∈ x, 1 ≤ (codeOf (hencCode x) s).length ∧ (codeOf (hencCode x) s).length ≤ distinctCount x - 1 ∧
        (codeOf (hencCode x) s).length ≤ 255) ∧
      (x.dedup.map fun s => 2 ^ (255 - (codeOf (hencCode x) s).length)).sum = 2 ^ 255)

/-- R106: the tree bit string of a tree with L leaves has 10·L − 1 bits, and the descriptor 1 + ⌈(10·L − 1)/8⌉
bytes. -/
def Obligations.DescriptorLength : Prop :=
  ∀ x : List Byte, x ≠ [] →
    (treeBits (hencTree x).node (hencTree x).node.length (hencTree x).root).length = 10 * distinctCount x - 1 ∧
    (descriptorBytes (hencTree x).node (hencTree x).root).length = 1 + (10 * distinctCount x - 1 + 7) / 8

/-- R169 to R173: HENC on a non-empty input whose payload and descriptor fit completes with success: the payload
stands at DST and the descriptor at AUX, every other BUF byte is unchanged, and the results are N, M, INFO and 0. -/
def Obligations.HencCompletes : Prop :=
  ∀ s : State, s.ready → s.regionsPass .henc → 0 < s.operands.src.len →
    let x := s.regionBytes s.operands.src
    let n := hencPayLen x
    let m := descriptorLen (distinctCount x)
    n ≤ s.operands.dst.len → m ≤ s.operands.aux.len →
    ∃ t, exec .henc s = .next t ∧
      Succeeded n m (infoWord (distinctCount x) (hencMaxLen x)) 0 s t ∧
      t.regionBytes ⟨s.operands.dst.base, n⟩ =
        payloadBytes (hencCode x) (padLen (encodeBits (hencCode x) x).length) x ∧
      t.regionBytes ⟨s.operands.aux.base, m⟩ = descriptorBytes (hencTree x).node (hencTree x).root ∧
      SameOutside [⟨s.operands.dst.base, n⟩, ⟨s.operands.aux.base, m⟩] s t

/-- R162: HENC on an empty input raises EMPTY_INPUT / HENC_EMPTY with offset 0 and leaves BUF unchanged. -/
def Obligations.HencEmptyInput : Prop :=
  ∀ s : State, s.ready → s.regionsPass .henc → s.operands.src.len = 0 →
    ∃ t, exec .henc s = .next t ∧ Failed .hencEmpty 0 s t ∧ t.err = 0x00000101 ∧ t.mem = s.mem

/-- R170: when the payload does not fit, HENC raises OUTPUT_OVERFLOW / DST_FULL with the length needed, saturated
to 32 bits; when only the descriptor does not fit, AUX_FULL with its length. BUF is unchanged. -/
def Obligations.HencOutputOverflow : Prop :=
  ∀ s : State, s.ready → s.regionsPass .henc → 0 < s.operands.src.len →
    let x := s.regionBytes s.operands.src
    let n := hencPayLen x
    let m := descriptorLen (distinctCount x)
    (s.operands.dst.len < n →
      ∃ t, exec .henc s = .next t ∧ Failed .dstFull (min n (2 ^ 32 - 1)) s t ∧ t.err = 0x105 ∧ t.mem = s.mem) ∧
    (n ≤ s.operands.dst.len → s.operands.aux.len < m →
      ∃ t, exec .henc s = .next t ∧ Failed .auxFull m s t ∧ t.err = 0x205 ∧ t.mem = s.mem)

/-- R175: after any HENC error BUF is unchanged, and the error is one of HENC's. -/
def Obligations.HencErrorKeepsBuf : Prop :=
  ∀ s t : State, s.ready → exec .henc s = .next t → t.error = true →
    t.mem = s.mem ∧ t.err ∈ [errWord .srcRange, errWord .dstRange, errWord .auxRange, errWord .overlap,
      errWord .hencEmpty, errWord .dstFull, errWord .auxFull]

/-! ## HDEC -/

/-- R105, R202, R205: parsing the descriptor of a tree whose symbols are distinct rebuilds that tree, uses
10·L − 1 bits, counts its internal nodes and finds its depth. -/
def Obligations.ParseInvertsSerialize : Prop :=
  ∀ tr : HTree, tr.syms.Nodup →
    ∃ p, parseDescriptor tr.descriptor = .ok p ∧ IsTree p.vars.node p.root tr ∧
      p.vars.pos = 10 * tr.syms.length - 1 ∧ p.vars.node.length = 2 * tr.syms.length - 1 ∧
      p.vars.nint = tr.syms.length - 1 ∧ p.vars.maxDepth = tr.depth

/-- R202 to R205, R216: every way in which PARSE rejects a version 1 descriptor. The nodes `ts` are what PARSE has read
without an error, and do not make a whole tree. An area that ends before the next node is whole raises
DESC_TRUNCATED at the descriptor's length, so a tree's descriptor cut short does; a next leaf with a symbol that has one
raises DESC_DUP_SYMBOL at the byte of its last bit, and a 256th internal node DESC_TOO_MANY_INTERNAL at the byte of its
bit, whatever follows. After a whole tree, a nonzero pad bit raises DESC_PAD_NONZERO at the last tree byte, whatever
follows, and bytes after zero pad bits DESC_TRAILING at the first of them. Each error of PARSE is HDEC's error
completion with BUF unchanged. -/
def Obligations.DescriptorDamageFound : Prop :=
  (∀ tr : HTree, tr.syms.Nodup →
    (∀ k, 1 ≤ k → k < tr.descriptor.length → parseDescriptor (tr.descriptor.take k) = .error ⟨.descTruncated, k⟩) ∧
    (∀ (pad : BitString) (more : List Byte), pad.length = padLen tr.bits.length → true ∈ pad →
      parseDescriptor (1#8 :: (packBits (tr.bits ++ pad) ++ more)) =
        .error ⟨.descPadNonzero, (tr.bits.length + 7) / 8⟩) ∧
    (∀ more : List Byte, more ≠ [] →
      parseDescriptor (tr.descriptor ++ more) = .error ⟨.descTrailing, tr.descriptor.length⟩)) ∧
  (∀ (ts : List (Option Byte)) (area : List Byte), Unfinished ts → (leafSyms ts).Nodup → ts.count none ≤ 255 →
    (∀ part : BitString, part = [] ∨ (part.head? = some true ∧ part.length < 9) →
      unpackBits area = tokenBits ts ++ part →
      parseDescriptor (1#8 :: area) = .error ⟨.descTruncated, 1 + area.length⟩) ∧
    (∀ s, s ∈ leafSyms ts → tokenBits (ts ++ [some s]) <+: unpackBits area →
      parseDescriptor (1#8 :: area) = .error ⟨.descDupSymbol, 1 + ((tokenBits (ts ++ [some s])).length - 1) / 8⟩) ∧
    (ts.count none = 255 → tokenBits (ts ++ [none]) <+: unpackBits area →
      parseDescriptor (1#8 :: area) =
        .error ⟨.descTooManyInternal, 1 + ((tokenBits (ts ++ [none])).length - 1) / 8⟩)) ∧
  (∀ (s : State) (e : Raise), s.ready → s.regionsPass .hdec →
    parseDescriptor (s.regionBytes s.operands.aux) = .error e →
    ∃ t, exec .hdec s = .next t ∧ Failed e.cause e.offset s t ∧ t.mem = s.mem)

/-- R201: an empty descriptor raises DESC_EMPTY, a version other than 0x01 raises DESC_VERSION, both with offset 0
and before any write. -/
def Obligations.HdecDescriptorStart : Prop :=
  ∀ s : State, s.ready → s.regionsPass .hdec →
    (s.operands.aux.len = 0 →
      ∃ t, exec .hdec s = .next t ∧ Failed .descEmpty 0 s t ∧ t.err = 0x102 ∧ t.mem = s.mem) ∧
    (0 < s.operands.aux.len → s.byteAt s.operands.aux.base ≠ 0x01 →
      ∃ t, exec .hdec s = .next t ∧ Failed .descVersion 0 s t ∧ t.err = 0x202 ∧ t.mem = s.mem)

/-- R206: with a good descriptor, an empty payload, a header above 7, a header above the data bits, and nonzero pad
bits are rejected in this order, before any write. -/
def Obligations.HdecPayloadHeader : Prop :=
  ∀ (s : State) (tr : HTree), s.ready → s.regionsPass .hdec → tr.syms.Nodup →
    s.regionBytes s.operands.aux = tr.descriptor →
    let p := s.operands.src.len
    let h := (s.byteAt s.operands.src.base).toNat
    let last := (s.byteAt (s.operands.src.base + p - 1)).toNat
    (p = 0 → ∃ t, exec .hdec s = .next t ∧ Failed .payEmpty 0 s t ∧ t.mem = s.mem) ∧
    (0 < p → 7 < h → ∃ t, exec .hdec s = .next t ∧ Failed .payHeader 0 s t ∧ t.mem = s.mem) ∧
    (0 < p → h ≤ 7 → 8 * (p - 1) < h →
      ∃ t, exec .hdec s = .next t ∧ Failed .payShort 0 s t ∧ t.mem = s.mem) ∧
    (0 < p → 0 < h → h ≤ 7 → h ≤ 8 * (p - 1) → last % 2 ^ h ≠ 0 →
      ∃ t, exec .hdec s = .next t ∧ Failed .payPadNonzero (p - 1) s t ∧ t.mem = s.mem)

/-- R208 to R211: HDEC on the descriptor of a tree of two leaves or more and the payload of a message over its
symbols completes with success and writes the message to DST, when it fits and LENCHK, if set, expects its length. -/
def Obligations.HdecDecodesMessage : Prop :=
  ∀ (s : State) (l r : HTree) (y : List Byte), s.ready → s.regionsPass .hdec →
    let tr := HTree.node l r
    tr.syms.Nodup → (∀ b ∈ y, b ∈ tr.syms) →
    s.regionBytes s.operands.aux = tr.descriptor → s.regionBytes s.operands.src = tr.payload y →
    y.length ≤ s.operands.dst.len → (s.lenchk = true → s.operands.expLen.toNat = y.length) →
    ∃ t, exec .hdec s = .next t ∧
      Succeeded y.length s.operands.aux.len (infoWord tr.syms.length tr.depth) 0 s t ∧
      t.regionBytes ⟨s.operands.dst.base, y.length⟩ = y ∧
      SameOutside [⟨s.operands.dst.base, y.length⟩] s t

/-- R207: HDEC on a single-leaf descriptor takes its count from EXP_LEN, whatever LENCHK is: EXP_LEN copies of the
symbol, or OUTPUT_OVERFLOW at DST_LEN before any write; every payload with a legal header, zero pad bits and D > 0 data
bits is PAY_SINGLE_LEAF_BITS. -/
def Obligations.HdecSingleLeafCount : Prop :=
  ∀ (s : State) (b : Byte), s.ready → s.regionsPass .hdec →
    s.regionBytes s.operands.aux = (HTree.leaf b).descriptor →
    let n := s.operands.expLen.toNat
    let p := s.operands.src.len
    let h := (s.byteAt s.operands.src.base).toNat
    let last := (s.byteAt (s.operands.src.base + p - 1)).toNat
    (s.regionBytes s.operands.src = [0x00] → n ≤ s.operands.dst.len →
      ∃ t, exec .hdec s = .next t ∧ Succeeded n 3 (infoWord 1 0) 0 s t ∧
        t.regionBytes ⟨s.operands.dst.base, n⟩ = List.replicate n b ∧
        SameOutside [⟨s.operands.dst.base, n⟩] s t) ∧
    (s.regionBytes s.operands.src = [0x00] → s.operands.dst.len < n →
      ∃ t, exec .hdec s = .next t ∧ Failed .dstFull s.operands.dst.len s t ∧ t.mem = s.mem) ∧
    (0 < p → h ≤ 7 → h < 8 * (p - 1) → (h = 0 ∨ last % 2 ^ h = 0) →
      ∃ t, exec .hdec s = .next t ∧ Failed .paySingleLeafBits 1 s t ∧ t.mem = s.mem)

/-- R208 to R210: a message that does not fit raises OUTPUT_OVERFLOW / DST_FULL at DST_LEN; one that fits but has not
the length that LENCHK expects raises LENGTH_MISMATCH with its length; data bits that end inside a code raise
PAY_INCOMPLETE at the payload's last byte, whatever LENCHK is. Only DST may change. -/
def Obligations.HdecWalkErrors : Prop :=
  ∀ (s : State) (l r : HTree) (y : List Byte), s.ready → s.regionsPass .hdec →
    let tr := HTree.node l r
    tr.syms.Nodup → (∀ b ∈ y, b ∈ tr.syms) → s.regionBytes s.operands.aux = tr.descriptor →
    (s.regionBytes s.operands.src = tr.payload y → s.operands.dst.len < y.length →
      ∃ t, exec .hdec s = .next t ∧ Failed .dstFull s.operands.dst.len s t ∧
        SameOutside [s.operands.dst] s t) ∧
    (s.regionBytes s.operands.src = tr.payload y → y.length ≤ s.operands.dst.len → s.lenchk = true →
      s.operands.expLen.toNat ≠ y.length →
      ∃ t, exec .hdec s = .next t ∧ Failed .hdecLengthMismatch y.length s t ∧
        SameOutside [s.operands.dst] s t) ∧
    (∀ (c : Byte) (part : BitString), c ∈ tr.syms → part <+: tr.codeOf c → part ≠ [] → part ≠ tr.codeOf c →
      s.regionBytes s.operands.src = bitsPayload (tr.encode y ++ part) → y.length ≤ s.operands.dst.len →
      ∃ t, exec .hdec s = .next t ∧ Failed .payIncomplete (s.operands.src.len - 1) s t ∧
        SameOutside [s.operands.dst] s t)

/-- R213: HENC and HDEC round-trip, with either value of LENCHK. -/
def Obligations.HuffmanRoundTrip : Prop :=
  ∀ s t u : State, s.ready → exec .henc s = .next t → t.error = false →
    u.ready → u.regionsPass .hdec →
    u.operands.src.len = t.resLen.toNat → u.operands.aux.len = t.resAuxLen.toNat →
    u.regionBytes u.operands.src = t.regionBytes ⟨s.operands.dst.base, t.resLen.toNat⟩ →
    u.regionBytes u.operands.aux = t.regionBytes ⟨s.operands.aux.base, t.resAuxLen.toNat⟩ →
    u.operands.expLen = s.operands.srcLen → s.operands.src.len ≤ u.operands.dst.len →
    ∃ v, exec .hdec u = .next v ∧ v.done = true ∧ v.error = false ∧ v.resLen = s.operands.srcLen ∧
      v.info = t.info ∧
      v.regionBytes ⟨u.operands.dst.base, s.operands.src.len⟩ = s.regionBytes s.operands.src

/-! ## LENC and LDEC -/

/-- R242 to R246: LENC whose codes fit DST and whose entries fit the cap completes with success: the code stream
stands at DST, every other BUF byte is unchanged, and the results are 4·count, 0, 0 and 256 + max(count − 1, 0). -/
def Obligations.LencCompletes : Prop :=
  ∀ s : State, s.ready → s.regionsPass .lenc →
    let x := s.regionBytes s.operands.src
    let k := (lzwCodes x).length
    4 * k ≤ s.operands.dst.len → lzwDictSize k ≤ s.params.dictCap →
    ∃ t, exec .lenc s = .next t ∧ Succeeded (4 * k) 0 0 (lzwDictSize k) s t ∧
      t.regionBytes ⟨s.operands.dst.base, 4 * k⟩ = streamBytes (lzwCodes x) ∧
      SameOutside [⟨s.operands.dst.base, 4 * k⟩] s t

/-- R244, R245, R249: LENC that cannot emit a code raises OUTPUT_OVERFLOW / DST_FULL at that word's offset; one that
cannot insert an entry raises UNSUPPORTED_SIZE / DICT_FULL at the index of the byte that would extend the new entry,
which is the byte at which SCAN without a cap makes that insert. The emit that comes before an insert is checked first.
Only DST may change. -/
def Obligations.LencLimits : Prop :=
  ∀ s : State, s.ready → s.regionsPass .lenc →
    let x := s.regionBytes s.operands.src
    let k := (lzwCodes x).length
    let words := s.operands.dst.len / 4
    let inserts := s.params.dictCap - 256
    (words < k → words ≤ inserts →
      ∃ t, exec .lenc s = .next t ∧ Failed .dstFull (4 * words) s t ∧ SameOutside [s.operands.dst] s t) ∧
    (inserts + 1 < k → inserts < words →
      ∃ t i, exec .lenc s = .next t ∧ i < s.operands.src.len ∧ lzwInserts (x.take i) = inserts ∧
        lzwInserts (x.take (i + 1)) = inserts + 1 ∧ Failed .dictFull i s t ∧ SameOutside [s.operands.dst] s t)

/-- R243: LENC on an empty input completes with success, with RES_LEN = 0 and DICT_SIZE = 256, and writes no byte. -/
def Obligations.LencEmptyInput : Prop :=
  ∀ s : State, s.ready → s.regionsPass .lenc → s.operands.src.len = 0 →
    ∃ t, exec .lenc s = .next t ∧ Succeeded 0 0 0 256 s t ∧ t.mem = s.mem

/-- R109, R247: code i of a stream is at most 256 + i − 1, the first is below 256, and a non-empty input has at
least one code and at most one for each byte. -/
def Obligations.LzwCodeBounds : Prop :=
  ∀ x : List Byte, (∀ i c, (lzwCodes x)[i]? = some c → c < 256 + i ∧ (i = 0 → c < 256)) ∧
    (x ≠ [] → 1 ≤ (lzwCodes x).length) ∧ (lzwCodes x).length ≤ x.length

/-- R271, R273: a stream that is not whole words raises PARTIAL_WORD at the incomplete word, and a first code of 256
or more raises FIRST_CODE, both before any write. -/
def Obligations.LdecFirstErrors : Prop :=
  ∀ s : State, s.ready → s.regionsPass .ldec →
    let n := s.operands.src.len
    (n % 4 ≠ 0 → ∃ t, exec .ldec s = .next t ∧ Failed .partialWord (n - n % 4) s t ∧ t.err = 0x103 ∧ t.mem = s.mem) ∧
    (n % 4 = 0 → ∀ k ks, codesOfBytes (s.regionBytes s.operands.src) = k :: ks → 256 ≤ k →
      ∃ t, exec .ldec s = .next t ∧ Failed .firstCode 0 s t ∧ t.err = 0x203 ∧ t.mem = s.mem)

/-- R273, R278: an empty stream decodes to empty output with success, unless LENCHK expects a byte: then it is
LENGTH_MISMATCH with offset 0. -/
def Obligations.LdecEmptyStream : Prop :=
  ∀ s : State, s.ready → s.regionsPass .ldec → s.operands.src.len = 0 →
    (s.lenchk = false ∨ s.operands.expLen = 0 →
      ∃ t, exec .ldec s = .next t ∧ Succeeded 0 0 0 256 s t ∧ t.mem = s.mem) ∧
    (s.lenchk = true → s.operands.expLen ≠ 0 →
      ∃ t, exec .ldec s = .next t ∧ Failed .ldecLengthMismatch 0 s t ∧ SameOutside [s.operands.dst] s t)

/-- R273 to R275, R279, R284: LDEC on any stream whose first code is below 256 and whose every later code is at most
NEXT, also one that LENC never makes, writes the bytes the codes stand for to DST, when they fit and LENCHK, if set,
expects their number. Such streams are exactly those that have bytes; the codes b, 256, the KwKwK case, stand for
b b b. -/
def Obligations.LdecDecodesStream : Prop :=
  (∀ (s : State) (codes : List Nat) (y : List Byte), s.ready → s.regionsPass .ldec →
    s.regionBytes s.operands.src = streamBytes codes → lzwDecode codes = some y → y.length ≤ s.operands.dst.len →
    lzwDictSize codes.length ≤ s.params.dictCap → (s.lenchk = true → s.operands.expLen.toNat = y.length) →
    ∃ t, exec .ldec s = .next t ∧ Succeeded y.length 0 0 (lzwDictSize codes.length) s t ∧
      t.regionBytes ⟨s.operands.dst.base, y.length⟩ = y ∧ SameOutside [⟨s.operands.dst.base, y.length⟩] s t) ∧
  (∀ codes : List Nat, (lzwDecode codes).isSome = true ↔
    ∀ i c, codes[i]? = some c → c < 256 + i ∧ (i = 0 → c < 256)) ∧
  (∀ b : Byte, lzwDecode [b.toNat, 256] = some [b, b, b])

/-- R274, R284: a code above NEXT after any good stream, whatever follows it, raises UNDEFINED_CODE at its stream
offset. Only DST may change. -/
def Obligations.LdecUndefinedCode : Prop :=
  ∀ (s : State) (good rest : List Nat) (c : Nat) (y : List Byte), s.ready → s.regionsPass .ldec →
    good ≠ [] → lzwDecode good = some y → (∀ d ∈ c :: rest, d < 2 ^ 32) →
    s.regionBytes s.operands.src = streamBytes (good ++ c :: rest) → lzwDictSize good.length < c →
    lzwDictSize good.length ≤ s.params.dictCap → y.length ≤ s.operands.dst.len →
    ∃ t, exec .ldec s = .next t ∧ Failed .undefinedCode (4 * good.length) s t ∧ t.err = 0x303 ∧
      SameOutside [s.operands.dst] s t

/-- R274 to R279: LDEC on the stream of an input writes the input to DST, with the dictionary size of the stream;
with LencCompletes this is the round trip of LENC and LDEC. The codes of an input stand for it. -/
def Obligations.LzwRoundTrip : Prop :=
  (∀ x : List Byte, lzwDecode (lzwCodes x) = some x) ∧
  (∀ (s : State) (x : List Byte), s.ready → s.regionsPass .ldec →
    let k := (lzwCodes x).length
    s.regionBytes s.operands.src = streamBytes (lzwCodes x) → x.length ≤ s.operands.dst.len →
    lzwDictSize k ≤ s.params.dictCap → (s.lenchk = true → s.operands.expLen.toNat = x.length) →
    ∃ t, exec .ldec s = .next t ∧ Succeeded x.length 0 0 (lzwDictSize k) s t ∧
      t.regionBytes ⟨s.operands.dst.base, x.length⟩ = x ∧
      SameOutside [⟨s.operands.dst.base, x.length⟩] s t)

/-- R276 to R278: where the codes `good` begin a stream and stand for y, a DST smaller than y raises OUTPUT_OVERFLOW /
DST_FULL at DST_LEN if the cap holds the entries of the codes before the last, and a cap one below the entries they
need raises DICT_FULL at the last of them if DST holds y, whatever follows in the stream; LENCHK with another length than
that of a whole stream raises LENGTH_MISMATCH. Only DST may change. -/
def Obligations.LdecLimits : Prop :=
  ∀ (s : State) (good rest : List Nat) (y : List Byte), s.ready → s.regionsPass .ldec →
    lzwDecode good = some y → (∀ d ∈ rest, d < 2 ^ 32) →
    s.regionBytes s.operands.src = streamBytes (good ++ rest) →
    (s.operands.dst.len < y.length → lzwDictSize (good.length - 1) ≤ s.params.dictCap →
      ∃ t, exec .ldec s = .next t ∧ Failed .dstFull s.operands.dst.len s t ∧ SameOutside [s.operands.dst] s t) ∧
    (y.length ≤ s.operands.dst.len → lzwDictSize good.length = s.params.dictCap + 1 →
      ∃ t, exec .ldec s = .next t ∧ Failed .dictFull (4 * (good.length - 1)) s t ∧
        SameOutside [s.operands.dst] s t) ∧
    (rest = [] → y.length ≤ s.operands.dst.len → lzwDictSize good.length ≤ s.params.dictCap → s.lenchk = true →
      s.operands.expLen.toNat ≠ y.length →
      ∃ t, exec .ldec s = .next t ∧ Failed .ldecLengthMismatch y.length s t ∧ SameOutside [s.operands.dst] s t)

/-! ## Bits and bytes -/

/-- R62: packing whole bytes of bits and unpacking them are inverse to each other. -/
def Obligations.BitPackingInverse : Prop :=
  (∀ bs : BitString, bs.length % 8 = 0 → unpackBits (packBits bs) = bs) ∧
    (∀ l : List Byte, packBits (unpackBits l) = l) ∧
    (∀ (l : List Byte) (k : Nat) (b : Byte), l[k / 8]? = some b →
      (unpackBits l)[k]? = some (b.getLsbD (7 - k % 8)))

/-- R61, R108: a code stream holds each code as four bytes, the least significant first; reading a stream of codes
below 2^32 gives the codes back, and writing the codes of a stream of whole words gives the stream back. -/
def Obligations.CodeStreamInverse : Prop :=
  (∀ (codes : List Nat) (i j c : Nat), codes[i]? = some c → j < 4 →
    (streamBytes codes)[4 * i + j]? = some (BitVec.ofNat 8 (c / 2 ^ (8 * j)))) ∧
  (∀ codes : List Nat, (∀ c ∈ codes, c < 2 ^ 32) → codesOfBytes (streamBytes codes) = codes) ∧
  (∀ l : List Byte, l.length % 4 = 0 → streamBytes (codesOfBytes l) = l)

/-! ## Registers, BUF and reset -/

/-- R340: the state after reset. -/
def Obligations.ResetState : Prop :=
  let s := State.reset
  s.seqState = .idle ∧ ctrlWord s = 0 ∧ statusWord s s.progress.val = 0 ∧ s.operands = Operands.zero ∧
    s.resLen = 0 ∧ s.resAuxLen = 0 ∧ s.info = 0 ∧ s.dictSize = 0 ∧ s.err = 0 ∧ s.errOffset = 0 ∧
    s.irq = false ∧ (readReg .id s).hostData = 0x484C5A01 ∧
    (readReg .memLast s).hostData.toNat = s.params.memSize - 1 ∧
    (readReg .dictCap s).hostData.toNat = s.params.dictCap

/-- R341: a reset while BUSY abandons the command without a completion: the registers take their reset values, BUF
changes at most in the command's output regions, and the instance's constants stay. A reset while IDLE leaves BUF.
That the queue of events stays is the model's choice (log entry 26). -/
def Obligations.ResetAbandonsCommand : Prop :=
  ∀ (s : State) (rest : List Event), s.events = .reset :: rest →
    ∃ t, step s = .next t ∧ t.seqState = .idle ∧ ctrlWord t = 0 ∧ statusWord t t.progress.val = 0 ∧
      t.operands = Operands.zero ∧ t.resLen = 0 ∧ t.resAuxLen = 0 ∧ t.info = 0 ∧ t.dictSize = 0 ∧
      t.err = 0 ∧ t.errOffset = 0 ∧ t.irq = false ∧ t.params = s.params ∧ t.events = rest ∧
      (s.seqState = .busy → SameOutside (outputRegions s.phase.command s.latched) s t) ∧
      (s.seqState = .idle → t.mem = s.mem)

/-- R23, R28: a 32-bit write at an operand register's offset stores any value in that register alone, and a read at
the offset answers it; nothing else of FC-CORE changes. -/
def Obligations.OperandRegistersReadBack : Prop :=
  ∀ (s : State) (rest : List Event) (off : Nat) (v : Word) (o : Operands),
    (off, o) ∈ [(0x10, { s.operands with srcAddr := v }), (0x14, { s.operands with srcLen := v }),
      (0x18, { s.operands with dstAddr := v }), (0x1C, { s.operands with dstLen := v }),
      (0x20, { s.operands with auxAddr := v }), (0x24, { s.operands with auxLen := v }),
      (0x28, { s.operands with expLen := v })] →
    s.events = .access (.regWrite off 4 v) :: .access (.regRead off 4) :: rest →
    step s = .next { s with operands := o, events := .access (.regRead off 4) :: rest } ∧
    step { s with operands := o, events := .access (.regRead off 4) :: rest } =
      .next { s with operands := o, hostData := v, events := rest }

/-- R24, R27, R29 to R35, R141: a 32-bit aligned write to a read-only register or to a reserved offset changes
nothing. ID, CMD, the constants of the instance and the reserved offsets read as they are defined; each result register
reads its value while IDLE, and a free word while BUSY (log entries 7 and 25). -/
def Obligations.ReadOnlyAndReserved : Prop :=
  ∀ (s : State) (rest : List Event) (off : Nat),
    (∀ v : Word, (off ∈ [0x00, 0x2C, 0x30, 0x34, 0x38, 0x3C, 0x40, 0x44, 0x48, 0x4C] ∨
        (0x50 ≤ off ∧ off < 0x100 ∧ off % 4 = 0)) →
      s.events = .access (.regWrite off 4 v) :: rest → step s = .next { s with events := rest }) ∧
    (s.events = .access (.regRead off 4) :: rest →
      (∀ v : Word, (off, v) ∈ [(0x00, 0x484C5A01), (0x0C, 0), (0x2C, 0), (0x48, BitVec.ofNat 32 (s.params.memSize - 1)),
          (0x4C, BitVec.ofNat 32 s.params.dictCap)] ∨ (0x50 ≤ off ∧ off < 0x100 ∧ off % 4 = 0 ∧ v = 0) →
        step s = .next { s with events := rest, hostData := v }) ∧
      (∀ v : Word, (off, v) ∈ [(0x30, s.resLen), (0x34, s.resAuxLen), (0x38, s.info), (0x3C, s.dictSize), (0x40, s.err),
          (0x44, s.errOffset)] →
        (s.seqState = .idle → step s = .next { s with events := rest, hostData := v }) ∧
        (s.seqState = .busy → step s =
          .next { s with events := rest, hostData := Config.freeWord s.draws, draws := s.draws + 1 })))

/-- R26, R36: a STATUS write clears each W1C flag whose written bit is 1 and changes nothing else. -/
def Obligations.StatusWriteOneToClear : Prop :=
  ∀ (s : State) (rest : List Event) (v : Word), s.events = .access (.regWrite 0x08 4 v) :: rest →
    ∃ t, step s = .next t ∧
      t.done = (s.done && !v.getLsbD 1) ∧ t.error = (s.error && !v.getLsbD 2) ∧
      t.cmdRejected = (s.cmdRejected && !v.getLsbD 3) ∧
      { t with done := s.done, error := s.error, cmdRejected := s.cmdRejected, events := s.events } = s

/-- R25, R46: a CTRL write sets IRQ_EN and LENCHK and ignores bits [31:2]; CTRL reads them back; IRQ follows at once. -/
def Obligations.CtrlWriteReadsBack : Prop :=
  ∀ (s : State) (rest : List Event) (v : Word),
    s.events = .access (.regWrite 0x04 4 v) :: .access (.regRead 0x04 4) :: rest →
    ∃ t u, step s = .next t ∧ step t = .next u ∧ u.hostData = v &&& 3 ∧
      t.irq = (v.getLsbD 0 && s.done) ∧
      { t with irqEn := s.irqEn, lenchk := s.lenchk, events := s.events } = s

/-- R23: a register read has no side effect: it changes what the host was answered and, for an unspecified value, the
count of free values, which are the model's own. -/
def Obligations.RegisterReadsHaveNoSideEffect : Prop :=
  ∀ (s t : State) (rest : List Event) (off width : Nat),
    s.events = .access (.regRead off width) :: rest → step s = .next t →
    { t with events := s.events, hostData := s.hostData, draws := s.draws } = s

/-- R23, R64: a register-window access that is not a 32-bit access at a multiple of 4 completes without any effect
on FC-CORE's state; a read answers an unspecified value. -/
def Obligations.UnalignedAccessHasNoEffect : Prop :=
  ∀ (s : State) (rest : List Event) (off width : Nat) (v : Word), off < 0x100 → ¬ (width = 4 ∧ off % 4 = 0) →
    (s.events = .access (.regWrite off width v) :: rest → step s = .next { s with events := rest }) ∧
    (s.events = .access (.regRead off width) :: rest →
      step s = .next { s with events := rest, hostData := Config.freeWord s.draws, draws := s.draws + 1 })

/-- R26, R148: while BUSY a read of STATUS has bit 0 set and a PROGRESS field from 0 to 3, whatever the free value is;
while IDLE it answers the flags and PROGRESS as they stand. -/
def Obligations.StatusReads : Prop :=
  ∀ (s : State) (rest : List Event), s.events = .access (.regRead 0x08 4) :: rest →
    ∃ t, step s = .next t ∧
      (s.seqState = .busy → t.hostData.getLsbD 0 = true ∧ (t.hostData.extractLsb' 4 3).toNat ≤ 3) ∧
      (s.seqState = .idle → t.hostData.getLsbD 0 = false ∧ (t.hostData.extractLsb' 4 3).toNat = s.progress.val) ∧
      t.hostData.getLsbD 1 = s.done ∧ t.hostData.getLsbD 2 = s.error ∧ t.hostData.getLsbD 3 = s.cmdRejected ∧
      t.hostData >>> 7 = 0

/-- R44, R65, R141, R351: a host byte write to BUF is read back, another byte is not changed by it; a read of a byte that
is in no output region of a running command answers the byte, and one of a byte that is answers a free byte (log entry
7) and changes nothing else of FC-CORE; an access of another width is refused (I45, log entry 12). -/
def Obligations.HostBufAccess : Prop :=
  ∀ (s : State) (rest : List Event) (a : Nat), a < s.params.memSize →
    (∀ b, s.events = .access (.bufWrite a 1 b) :: rest →
      ∃ t, step s = .next t ∧ t.byteAt a = b ∧ (∀ c, c ≠ a → t.byteAt c = s.byteAt c) ∧
        t.inTouched = (s.inTouched || (s.busy && s.inInput a)) ∧
        t.outTouched = (s.outTouched || (s.busy && s.inOutput a)) ∧
        { t with mem := s.mem, inTouched := s.inTouched, outTouched := s.outTouched, events := s.events } = s) ∧
    (s.events = .access (.bufRead a 1) :: rest → (s.busy && s.inOutput a) = false →
      step s = .next { s with events := rest, hostData := (s.byteAt a).setWidth 32 }) ∧
    (s.events = .access (.bufRead a 1) :: rest → (s.busy && s.inOutput a) = true →
      step s = .next { s with events := rest, hostData := (Config.freeByte s.draws).setWidth 32, draws := s.draws + 1 }) ∧
    (∀ width, width ≠ 1 → s.events = .access (.bufRead a width) :: rest → step s = .refused .wideBufAccess) ∧
    (∀ width b, width ≠ 1 → s.events = .access (.bufWrite a width b) :: rest → step s = .refused .wideBufAccess)

/-! ## The whole machine -/

/-- Every step keeps the invariant, from every state that has it. Its clauses on ERR and INFO after a host write to an
input region rest on log entry 9, its clause on the marks on log entry 10. -/
def Obligations.StepKeepsInv : Prop :=
  ∀ s t : State, Inv s → step s = .next t → Inv t

/-- The state after reset has the invariant; its internal storage there is the model's choice (log entry 2). -/
def Obligations.ResetHasInv : Prop := Inv State.reset

/-- R22: SEQ goes from IDLE to BUSY only by a write of a legal command word to CMD, which latches the operands. -/
def Obligations.BusyOnlyByCommand : Prop :=
  ∀ s t : State, s.seqState = .idle → step s = .next t → t.seqState = .busy →
    ∃ (e : Event) (rest : List Event) (w : Word) (i : Instr), s.events = e :: rest ∧ decode w = .ok i ∧
      (e = cmdWrite w ∨ ∃ tr, e = .bus tr ∧ route s.params tr = .ok (.regWrite 0x0C 4 w)) ∧
      t.phase.command = i ∧ t.latched = s.operands

/-- R22: SEQ goes from BUSY to IDLE only by a completion, which sets DONE and PROGRESS = 4 and is a turn of the core,
or by reset, which leaves DONE clear. -/
def Obligations.BusyEndsOnlyByCompletionOrReset : Prop :=
  ∀ s t : State, s.seqState = .busy → step s = .next t → t.seqState = .idle →
    (∃ rest, s.events = .reset :: rest ∧ t.done = false) ∨
    ((s.events = [] ∨ ∃ rest, s.events = .core :: rest) ∧ t.done = true ∧ t.progress = 4)

/-- R36, R142: CMD_REJECTED is set only by a CMD write while BUSY. -/
def Obligations.RejectedOnlyWhileBusy : Prop :=
  ∀ s t : State, step s = .next t → s.cmdRejected = false → t.cmdRejected = true →
    s.seqState = .busy ∧ ∃ (e : Event) (rest : List Event) (w : Word), s.events = e :: rest ∧
      (e = cmdWrite w ∨ ∃ tr, e = .bus tr ∧ route s.params tr = .ok (.regWrite 0x0C 4 w))

/-- R121, R122, R360: the line `go` of a host script, served with no other event, is one write of the command's word
to CMD: the machine does exactly what `exec` of the command does, and the script goes on to its next line. The lines
of a `wait` end on a running command with DONE = 1 and SEQ IDLE, when the events between the script's lines are turns of
the core that come again and again, as the weak fairness of R360 says. -/
def Obligations.ScriptGoAndWait : Prop :=
  (∀ (prog : List Action) (h : ScriptHost) (s t : State) (i : Instr), s.ready →
    expandLine h.line (.go i) = [.wr .cmd (encode i)] ∧
    (prog[h.line]? = some (.wr .cmd (encode i)) →
      ¬ (s.params.bufHostBase ≤ s.params.csrBase + 0x0C ∧
          s.params.csrBase + 0x0C < s.params.bufHostBase + s.params.memSize) →
      exec i s = .next t →
      scriptStep prog [] h s = .next ({ h with line := h.line + 1 }, t))) ∧
  (∀ (prog : List Action) (gaps : Nat → List Event) (h : ScriptHost) (s : State) (k : Nat),
    s.seqState = .busy → s.done = false → h.halted = false →
    (prog.drop h.line).take 3 = expandLine k .wait → prog.idxOf (.label (.fresh k)) = h.line →
    ¬ (s.params.bufHostBase ≤ s.params.csrBase + 0x08 ∧
        s.params.csrBase + 0x08 < s.params.bufHostBase + s.params.memSize) →
    FairGaps gaps → (∀ n, ∀ e ∈ gaps n, e = .core) →
    ∃ n g t, scriptRun prog gaps n h s = .next (g, t) ∧ g.line = h.line + 3 ∧ g.halted = false ∧
      t.seqState = .idle ∧ t.done = true)
end

