-- ==== Sys2Proof/Laws/Coders.lean ====
section
/-! SUPPORT. For each operation of the two coders, once, everything it can do. -/

namespace Sys2Proof.Machine

/-! ## LZW -/

theorem emitCheck_ok {cap n : Nat} {u : Unit} : emitCheck cap n = .ok u ↔ 4 * n + 4 ≤ cap := by
  unfold emitCheck
  split <;> simp <;> omega

theorem emitCheck_error {cap n : Nat} {e : Raise} :
    emitCheck cap n = .error e ↔ cap < 4 * n + 4 ∧ e = ⟨.dstFull, 4 * n⟩ := by
  unfold emitCheck
  split
  · next h => simp [h, eq_comm]
  · next h => simp [h]

/-- One byte of SCAN extends the candidate, or emits a code and inserts an entry. -/
theorem scanByte_ok {dictCap cap i : Nat} {b : Byte} {s t : Scan} (h : scanByte dictCap cap i b s = .ok t) :
    (s.cand ++ [b] ∈ s.dict ∧ t = { s with cand := s.cand ++ [b] }) ∨
    (s.cand ++ [b] ∉ s.dict ∧ 4 * s.codes.length + 4 ≤ cap ∧ s.dict.length ≠ dictCap ∧
      t = { dict := s.dict ++ [s.cand ++ [b]], cand := [b], codes := s.codes ++ [codeOfString s.dict s.cand] }) := by
  unfold scanByte at h
  split at h
  · next hm => cases h; exact .inl ⟨hm, rfl⟩
  · next hm =>
    split at h
    · cases h
    · next hc =>
      split at h
      · cases h
      · next hd => cases h; exact .inr ⟨hm, emitCheck_ok.mp hc, hd, rfl⟩

/-- One byte of SCAN fails on the capacity, or on the cap after the capacity. -/
theorem scanByte_error {dictCap cap i : Nat} {b : Byte} {s : Scan} {e : Raise}
    (h : scanByte dictCap cap i b s = .error e) :
    s.cand ++ [b] ∉ s.dict ∧
      ((cap < 4 * s.codes.length + 4 ∧ e = ⟨.dstFull, 4 * s.codes.length⟩) ∨
        (4 * s.codes.length + 4 ≤ cap ∧ s.dict.length = dictCap ∧ e = ⟨.dictFull, i⟩)) := by
  unfold scanByte at h
  split at h
  · cases h
  · next hm =>
    refine ⟨hm, ?_⟩
    split at h
    · next hc => cases h; exact .inl (emitCheck_error.mp hc)
    · next hc =>
      split at h
      · next hd => cases h; exact .inr ⟨emitCheck_ok.mp hc, hd, rfl⟩
      · cases h

/-- emit_string fits exactly when its bytes fit, and stands after them. -/
theorem emitString_ok {cap : Nat} : ∀ {e : List Byte} {p q : Nat}, p ≤ cap →
    (emitString cap e p = .ok q ↔ p + e.length ≤ cap ∧ q = p + e.length)
  | [], p, q, hp => by simp [emitString, hp, eq_comm]
  | _ :: e, p, q, hp => by
    unfold emitString
    split
    · next h => simp; omega
    · next h =>
      rw [emitString_ok (by omega)]
      simp only [List.length_cons]
      omega

/-- emit_string fails at the capacity. -/
theorem emitString_error {cap : Nat} : ∀ {e : List Byte} {p : Nat} {r : Raise}, p ≤ cap →
    (emitString cap e p = .error r ↔ cap < p + e.length ∧ r = ⟨.dstFull, cap⟩)
  | [], p, r, hp => by simp [emitString]; omega
  | _ :: e, p, r, hp => by
    unfold emitString
    split
    · next h => subst h; simp [eq_comm]
    · next h =>
      rw [emitString_error (by omega)]
      simp only [List.length_cons, and_congr_left_iff]
      omega

/-- The string of a code: an entry below NEXT, the KwKwK string at NEXT, none above. -/
theorem stringOfCode_lt {dict : List (List Byte)} {prev : List Byte} {k : Nat} (h : k < dict.length) :
    stringOfCode dict prev k = some dict[k] := by simp [stringOfCode, h]

theorem stringOfCode_next {dict : List (List Byte)} {prev : List Byte} :
    stringOfCode dict prev dict.length = some (prev ++ prev.take 1) := by simp [stringOfCode]

theorem stringOfCode_gt {dict : List (List Byte)} {prev : List Byte} {k : Nat} (h : dict.length < k) :
    stringOfCode dict prev k = none := by
  simp [stringOfCode, show ¬ k < dict.length by omega, show k ≠ dict.length by omega]

/-- One code of LOOP emits its string and inserts an entry. -/
theorem unscanCode_ok {dictCap cap i k : Nat} {s t : Unscan} (h : unscanCode dictCap cap i k s = .ok t) :
    ∃ e p, stringOfCode s.dict s.prev k = some e ∧ emitString cap e s.pos = .ok p ∧ s.dict.length ≠ dictCap ∧
      t = { dict := s.dict ++ [s.prev ++ e.take 1], prev := e, pos := p, out := s.out ++ e } := by
  unfold unscanCode at h
  split at h
  · cases h
  · next e he =>
    split at h
    · cases h
    · next p hp =>
      split at h
      · cases h
      · next hd => cases h; exact ⟨e, p, he, hp, hd, rfl⟩

/-- DICT never passes the cap in SCAN. -/
theorem scanBytes_dict_le {dictCap cap : Nat} : ∀ {bs : List Byte} {i : Nat} {s t : Scan},
    s.dict.length ≤ dictCap → scanBytes dictCap cap i bs s = .ok t →
    s.dict.length ≤ t.dict.length ∧ t.dict.length ≤ dictCap
  | [], _, s, t, hs, h => by cases h; exact ⟨le_refl _, hs⟩
  | b :: bs, i, s, t, hs, h => by
    unfold scanBytes at h
    split at h
    · cases h
    · next u hu =>
      have hu' : s.dict.length ≤ u.dict.length ∧ u.dict.length ≤ dictCap := by
        rcases scanByte_ok hu with ⟨_, rfl⟩ | ⟨_, _, hd, rfl⟩
        · exact ⟨le_refl _, hs⟩
        · simp; omega
      have := scanBytes_dict_le hu'.2 h
      omega

/-- DICT never passes the cap in LOOP. -/
theorem unscanCodes_dict_le {dictCap cap : Nat} : ∀ {ks : List Nat} {i : Nat} {s t : Unscan},
    s.dict.length ≤ dictCap → unscanCodes dictCap cap i ks s = .ok t →
    s.dict.length ≤ t.dict.length ∧ t.dict.length ≤ dictCap
  | [], _, s, t, hs, h => by cases h; exact ⟨le_refl _, hs⟩
  | k :: ks, i, s, t, hs, h => by
    unfold unscanCodes at h
    split at h
    · cases h
    · next u hu =>
      obtain ⟨e, p, _, _, hd, rfl⟩ := unscanCode_ok hu
      have := unscanCodes_dict_le (s := ⟨s.dict ++ [s.prev ++ e.take 1], e, p, s.out ++ e⟩) (by simp; omega) h
      simp only [List.length_append, List.length_cons, List.length_nil] at this
      omega

/-! ## Huffman -/

/-- getbit takes the next bit, or fails at the descriptor's length. -/
theorem getBit_cons (a : Nat) (p : Parse) (b : Bool) (rest : BitString) (h : p.rest = b :: rest) :
    getBit a p = .ok (b, { p with rest := rest, pos := p.pos + 1 }) := by simp [getBit, h]

theorem getBit_nil (a : Nat) (p : Parse) (h : p.rest = []) : getBit a p = .error ⟨.descTruncated, a⟩ := by
  simp [getBit, h]

theorem checkSymbol_new {s : Byte} {p : Parse} (h : p.seen.getLsbD s.toNat = false) :
    checkSymbol s p = .ok { p with seen := p.seen ||| (1#256 <<< s.toNat) } := by simp [checkSymbol, h]

theorem checkSymbol_seen {s : Byte} {p : Parse} (h : p.seen.getLsbD s.toNat = true) :
    checkSymbol s p = .error ⟨.descDupSymbol, lastBitByte p.pos⟩ := by simp [checkSymbol, h]

theorem checkInternal_ok {p : Parse} (h : p.nint + 1 ≠ 256) :
    checkInternal p = .ok { p with nint := p.nint + 1 } := by simp [checkInternal, h]

/-- A merge takes two members of PQ and adds one: PQ shrinks by one and NODE grows by one. -/
theorem extractMin_some {node : List Node} : ∀ {pq rest : List Nat} {m : Nat},
    extractMin node pq = some (m, rest) → pq.Perm (m :: rest)
  | [], _, _, h => by simp [extractMin] at h
  | x :: xs, rest, m, h => by
    unfold extractMin at h
    split at h
    · next hn =>
      cases xs with
      | nil => cases h; exact List.Perm.refl _
      | cons y ys =>
        simp only [extractMin] at hn
        split at hn
        · cases hn
        · split at hn <;> cases hn
    · next m' rest' hs =>
      have ih := extractMin_some hs
      split at h
      · cases h; exact List.Perm.refl _
      · cases h
        exact (ih.cons x).trans (List.Perm.swap _ _ _)

theorem extractMin_none {node : List Node} {pq : List Nat} : extractMin node pq = none ↔ pq = [] := by
  constructor
  · intro h
    cases pq with
    | nil => rfl
    | cons x xs =>
      simp only [extractMin] at h
      split at h
      · cases h
      · split at h <;> cases h
  · rintro rfl; rfl

theorem mergeOnce_some {node node' : List Node} {pq pq' : List Nat} (h : mergeOnce node pq = some (node', pq')) :
    node'.length = node.length + 1 ∧ pq'.length + 1 = pq.length := by
  unfold mergeOnce at h
  split at h
  · cases h
  · next a pq1 ha =>
    split at h
    · cases h
    · next b pq2 hb =>
      cases h
      have h1 := (extractMin_some ha).length_eq
      have h2 := (extractMin_some hb).length_eq
      simp at h1 h2 ⊢
      omega

end Sys2Proof.Machine
end

