-- ==== Sys2Proof/Laws/Memory.lean ====
section
/-! SUPPORT. The laws of BUF: what a read answers after a write, and that every write keeps the canonical form. -/

namespace Sys2Proof.Machine

/-! ## Reads after writes -/

theorem Memory.get?_cons (c : Host.Cell) (m : Memory) (a : Nat) :
    Memory.get? (c :: m) a = if c.1 = a then some c.2 else Memory.get? m a := by
  by_cases h : c.1 = a <;> simp [Memory.get?, h]

/-- A write is read back at its address and leaves every other address alone. -/
theorem Memory.get?_set (m : Memory) (a c : Nat) (b : Byte) :
    (m.set a b).get? c = if a = c then some b else m.get? c := by
  induction m with
  | nil => simp [Memory.set, Memory.get?_cons]
  | cons d rest ih =>
    unfold Memory.set
    split
    · simp [Memory.get?_cons]
    · split
      · next h => by_cases hc : a = c <;> simp [Memory.get?_cons, hc, ← h]
      · next h1 h2 =>
        simp only [Memory.get?_cons, ih]
        by_cases hc : a = c
        · subst hc; simp [Ne.symm h2]
        · simp [hc]

@[simp] theorem Memory.byteAt_set_self (m : Memory) (a : Nat) (b : Byte) : (m.set a b).byteAt a = b := by
  simp [Memory.byteAt, Memory.get?_set]

theorem Memory.byteAt_set_ne {m : Memory} {a c : Nat} {b : Byte} (h : a ≠ c) :
    (m.set a b).byteAt c = m.byteAt c := by
  simp [Memory.byteAt, Memory.get?_set, h]

/-- A write of consecutive bytes leaves every address outside them alone. -/
theorem Memory.byteAt_setBytes_outside (bs : List Byte) (m : Memory) (a c : Nat)
    (h : c < a ∨ a + bs.length ≤ c) : (m.setBytes a bs).byteAt c = m.byteAt c := by
  induction bs generalizing m a with
  | nil => rfl
  | cons b bs ih =>
    simp only [List.length_cons] at h
    rw [Memory.setBytes, ih _ _ (by omega), Memory.byteAt_set_ne (by omega)]

/-- A write of consecutive bytes is read back inside them. -/
theorem Memory.byteAt_setBytes_inside (bs : List Byte) (m : Memory) (a k : Nat) (h : k < bs.length) :
    (m.setBytes a bs).byteAt (a + k) = bs[k] := by
  induction bs generalizing m a k with
  | nil => simp at h
  | cons b bs ih =>
    rw [Memory.setBytes]
    cases k with
    | zero => simp [Memory.byteAt_setBytes_outside]
    | succ k =>
      have := ih (m.set a b) (a + 1) k (by simpa using h)
      rw [show a + (k + 1) = a + 1 + k by omega, this, List.getElem_cons_succ]

@[simp] theorem Memory.bytesAt_length (m : Memory) (a n : Nat) : (m.bytesAt a n).length = n := by
  simp [Memory.bytesAt]

@[simp] theorem Memory.bytesAt_getElem (m : Memory) (a n k : Nat) (h : k < (m.bytesAt a n).length) :
    (m.bytesAt a n)[k] = m.byteAt (a + k) := by
  simp [Memory.bytesAt]

/-- What was written is read back as a whole. -/
theorem Memory.bytesAt_setBytes (bs : List Byte) (m : Memory) (a : Nat) :
    (m.setBytes a bs).bytesAt a bs.length = bs := by
  apply List.ext_getElem (by simp)
  intro k h1 h2
  rw [Memory.bytesAt_getElem, Memory.byteAt_setBytes_inside bs m a k h2]

/-- Two memories that agree on a range of addresses give the same bytes there. -/
theorem Memory.bytesAt_congr {m m' : Memory} {a n : Nat}
    (h : ∀ k, k < n → m.byteAt (a + k) = m'.byteAt (a + k)) : m.bytesAt a n = m'.bytesAt a n := by
  apply List.ext_getElem (by simp)
  intro k h1 _
  simpa using h k (by simpa using h1)

/-- Bytes outside a write are read as before it. -/
theorem Memory.bytesAt_setBytes_outside (bs : List Byte) (m : Memory) (a c n : Nat)
    (h : c + n ≤ a ∨ a + bs.length ≤ c) : (m.setBytes a bs).bytesAt c n = m.bytesAt c n :=
  Memory.bytesAt_congr fun k hk => Memory.byteAt_setBytes_outside bs m a (c + k) (by omega)

/-! ## The canonical form -/

theorem Memory.wf_iff (size : Nat) (m : Memory) :
    m.wf size = true ↔ m.Pairwise (fun a b => a.1 < b.1) ∧ ∀ c ∈ m, c.1 < size := by
  simp [Memory.wf]

theorem Memory.mem_set {m : Memory} {a : Nat} {b : Byte} {c : Host.Cell} (h : c ∈ m.set a b) :
    c = (a, b) ∨ c ∈ m := by
  induction m with
  | nil => simpa [Memory.set] using h
  | cons d rest ih =>
    unfold Memory.set at h
    split at h
    · simpa using h
    · split at h
      · rcases List.mem_cons.mp h with h | h
        · exact .inl h
        · exact .inr (List.mem_cons_of_mem _ h)
      · rcases List.mem_cons.mp h with h | h
        · exact .inr (h ▸ List.mem_cons_self)
        · exact (ih h).imp id (List.mem_cons_of_mem _)

theorem Memory.pairwise_set {m : Memory} (a : Nat) (b : Byte)
    (h : m.Pairwise (fun a b => a.1 < b.1)) : (m.set a b).Pairwise (fun a b => a.1 < b.1) := by
  induction m with
  | nil => simp [Memory.set]
  | cons d rest ih =>
    obtain ⟨hd, hr⟩ := List.pairwise_cons.mp h
    unfold Memory.set
    split
    · next hlt =>
      refine List.pairwise_cons.mpr ⟨fun e he => ?_, h⟩
      rcases List.mem_cons.mp he with rfl | he
      · exact hlt
      · exact Nat.lt_trans hlt (hd e he)
    · split
      · next heq =>
        refine List.pairwise_cons.mpr ⟨fun e he => ?_, hr⟩
        show a < e.1
        rw [heq]; exact hd e he
      · next h1 h2 =>
        refine List.pairwise_cons.mpr ⟨fun e he => ?_, ih hr⟩
        rcases Memory.mem_set he with rfl | he
        · show d.1 < a; omega
        · exact hd e he

/-- A write inside BUF keeps the canonical form. -/
theorem Memory.wf_set {size : Nat} {m : Memory} {a : Nat} {b : Byte} (h : m.wf size = true) (ha : a < size) :
    (m.set a b).wf size = true := by
  rw [Memory.wf_iff] at h ⊢
  refine ⟨Memory.pairwise_set a b h.1, fun c hc => ?_⟩
  rcases Memory.mem_set hc with rfl | hc
  · exact ha
  · exact h.2 c hc

/-- A write of consecutive bytes inside BUF keeps the canonical form. -/
theorem Memory.wf_setBytes {size : Nat} (bs : List Byte) {m : Memory} {a : Nat} (h : m.wf size = true)
    (ha : bs ≠ [] → a + bs.length ≤ size) : (m.setBytes a bs).wf size = true := by
  induction bs generalizing m a with
  | nil => exact h
  | cons b bs ih =>
    have := ha (by simp)
    simp only [List.length_cons] at this
    exact ih (Memory.wf_set h (by omega)) fun _ => by omega

/-- BUF after reset is in canonical form: nothing is listed. -/
theorem Memory.wf_reset : State.reset.mem.wf State.reset.params.memSize = true := by
  simp [State.reset, Memory.wf]

end Sys2Proof.Machine
end

