-- ==== Sys2Proof/Laws/State.lean ====
section
/-! SUPPORT. One lemma per field per update of State, true by unfolding. -/

namespace Sys2Proof.Machine

/-! ## latch -/

@[simp] theorem latch_params (s : State) : (latch s).params = s.params := rfl
@[simp] theorem latch_irqEn (s : State) : (latch s).irqEn = s.irqEn := rfl
@[simp] theorem latch_lenchk (s : State) : (latch s).lenchk = s.lenchk := rfl
@[simp] theorem latch_done (s : State) : (latch s).done = s.done := rfl
@[simp] theorem latch_error (s : State) : (latch s).error = s.error := rfl
@[simp] theorem latch_cmdRejected (s : State) : (latch s).cmdRejected = s.cmdRejected := rfl
@[simp] theorem latch_progress (s : State) : (latch s).progress = s.progress := rfl
@[simp] theorem latch_operands (s : State) : (latch s).operands = s.operands := rfl
@[simp] theorem latch_resLen (s : State) : (latch s).resLen = s.resLen := rfl
@[simp] theorem latch_resAuxLen (s : State) : (latch s).resAuxLen = s.resAuxLen := rfl
@[simp] theorem latch_info (s : State) : (latch s).info = s.info := rfl
@[simp] theorem latch_dictSize (s : State) : (latch s).dictSize = s.dictSize := rfl
@[simp] theorem latch_err (s : State) : (latch s).err = s.err := rfl
@[simp] theorem latch_errOffset (s : State) : (latch s).errOffset = s.errOffset := rfl
@[simp] theorem latch_seqState (s : State) : (latch s).seqState = s.seqState := rfl
@[simp] theorem latch_phase (s : State) : (latch s).phase = s.phase := rfl
@[simp] theorem latch_latched (s : State) : (latch s).latched = s.operands := rfl
@[simp] theorem latch_latchedLenchk (s : State) : (latch s).latchedLenchk = s.lenchk := rfl
@[simp] theorem latch_store (s : State) : (latch s).store = s.store := rfl
@[simp] theorem latch_mem (s : State) : (latch s).mem = s.mem := rfl
@[simp] theorem latch_inTouched (s : State) : (latch s).inTouched = s.inTouched := rfl
@[simp] theorem latch_outTouched (s : State) : (latch s).outTouched = s.outTouched := rfl
@[simp] theorem latch_draws (s : State) : (latch s).draws = s.draws := rfl
@[simp] theorem latch_hostData (s : State) : (latch s).hostData = s.hostData := rfl
@[simp] theorem latch_events (s : State) : (latch s).events = s.events := rfl

/-! ## startCommand -/

@[simp] theorem startCommand_params (p : Phase) (s : State) : (startCommand p s).params = s.params := rfl
@[simp] theorem startCommand_irqEn (p : Phase) (s : State) : (startCommand p s).irqEn = s.irqEn := rfl
@[simp] theorem startCommand_lenchk (p : Phase) (s : State) : (startCommand p s).lenchk = s.lenchk := rfl
@[simp] theorem startCommand_done (p : Phase) (s : State) : (startCommand p s).done = false := rfl
@[simp] theorem startCommand_error (p : Phase) (s : State) : (startCommand p s).error = false := rfl
@[simp] theorem startCommand_cmdRejected (p : Phase) (s : State) : (startCommand p s).cmdRejected = s.cmdRejected := rfl
@[simp] theorem startCommand_progress (p : Phase) (s : State) : (startCommand p s).progress = 0 := rfl
@[simp] theorem startCommand_operands (p : Phase) (s : State) : (startCommand p s).operands = s.operands := rfl
@[simp] theorem startCommand_resLen (p : Phase) (s : State) : (startCommand p s).resLen = s.resLen := rfl
@[simp] theorem startCommand_resAuxLen (p : Phase) (s : State) : (startCommand p s).resAuxLen = s.resAuxLen := rfl
@[simp] theorem startCommand_info (p : Phase) (s : State) : (startCommand p s).info = s.info := rfl
@[simp] theorem startCommand_dictSize (p : Phase) (s : State) : (startCommand p s).dictSize = s.dictSize := rfl
@[simp] theorem startCommand_err (p : Phase) (s : State) : (startCommand p s).err = s.err := rfl
@[simp] theorem startCommand_errOffset (p : Phase) (s : State) : (startCommand p s).errOffset = s.errOffset := rfl
@[simp] theorem startCommand_seqState (p : Phase) (s : State) : (startCommand p s).seqState = .busy := rfl
@[simp] theorem startCommand_phase (p : Phase) (s : State) : (startCommand p s).phase = p := rfl
@[simp] theorem startCommand_latched (p : Phase) (s : State) : (startCommand p s).latched = s.operands := rfl
@[simp] theorem startCommand_latchedLenchk (p : Phase) (s : State) : (startCommand p s).latchedLenchk = s.lenchk := rfl
@[simp] theorem startCommand_store (p : Phase) (s : State) : (startCommand p s).store = Store.fresh := rfl
@[simp] theorem startCommand_mem (p : Phase) (s : State) : (startCommand p s).mem = s.mem := rfl
@[simp] theorem startCommand_inTouched (p : Phase) (s : State) : (startCommand p s).inTouched = false := rfl
@[simp] theorem startCommand_outTouched (p : Phase) (s : State) : (startCommand p s).outTouched = false := rfl
@[simp] theorem startCommand_draws (p : Phase) (s : State) : (startCommand p s).draws = s.draws := rfl
@[simp] theorem startCommand_hostData (p : Phase) (s : State) : (startCommand p s).hostData = s.hostData := rfl
@[simp] theorem startCommand_events (p : Phase) (s : State) : (startCommand p s).events = s.events := rfl

/-! ## rejectCommand -/

@[simp] theorem rejectCommand_params (s : State) : (rejectCommand s).params = s.params := rfl
@[simp] theorem rejectCommand_irqEn (s : State) : (rejectCommand s).irqEn = s.irqEn := rfl
@[simp] theorem rejectCommand_lenchk (s : State) : (rejectCommand s).lenchk = s.lenchk := rfl
@[simp] theorem rejectCommand_done (s : State) : (rejectCommand s).done = s.done := rfl
@[simp] theorem rejectCommand_error (s : State) : (rejectCommand s).error = s.error := rfl
@[simp] theorem rejectCommand_cmdRejected (s : State) : (rejectCommand s).cmdRejected = true := rfl
@[simp] theorem rejectCommand_progress (s : State) : (rejectCommand s).progress = s.progress := rfl
@[simp] theorem rejectCommand_operands (s : State) : (rejectCommand s).operands = s.operands := rfl
@[simp] theorem rejectCommand_resLen (s : State) : (rejectCommand s).resLen = s.resLen := rfl
@[simp] theorem rejectCommand_resAuxLen (s : State) : (rejectCommand s).resAuxLen = s.resAuxLen := rfl
@[simp] theorem rejectCommand_info (s : State) : (rejectCommand s).info = s.info := rfl
@[simp] theorem rejectCommand_dictSize (s : State) : (rejectCommand s).dictSize = s.dictSize := rfl
@[simp] theorem rejectCommand_err (s : State) : (rejectCommand s).err = s.err := rfl
@[simp] theorem rejectCommand_errOffset (s : State) : (rejectCommand s).errOffset = s.errOffset := rfl
@[simp] theorem rejectCommand_seqState (s : State) : (rejectCommand s).seqState = s.seqState := rfl
@[simp] theorem rejectCommand_phase (s : State) : (rejectCommand s).phase = s.phase := rfl
@[simp] theorem rejectCommand_latched (s : State) : (rejectCommand s).latched = s.latched := rfl
@[simp] theorem rejectCommand_latchedLenchk (s : State) : (rejectCommand s).latchedLenchk = s.latchedLenchk := rfl
@[simp] theorem rejectCommand_store (s : State) : (rejectCommand s).store = s.store := rfl
@[simp] theorem rejectCommand_mem (s : State) : (rejectCommand s).mem = s.mem := rfl
@[simp] theorem rejectCommand_inTouched (s : State) : (rejectCommand s).inTouched = s.inTouched := rfl
@[simp] theorem rejectCommand_outTouched (s : State) : (rejectCommand s).outTouched = s.outTouched := rfl
@[simp] theorem rejectCommand_draws (s : State) : (rejectCommand s).draws = s.draws := rfl
@[simp] theorem rejectCommand_hostData (s : State) : (rejectCommand s).hostData = s.hostData := rfl
@[simp] theorem rejectCommand_events (s : State) : (rejectCommand s).events = s.events := rfl

/-! ## endCommand -/

@[simp] theorem endCommand_params (s : State) : (endCommand s).params = s.params := rfl
@[simp] theorem endCommand_irqEn (s : State) : (endCommand s).irqEn = s.irqEn := rfl
@[simp] theorem endCommand_lenchk (s : State) : (endCommand s).lenchk = s.lenchk := rfl
@[simp] theorem endCommand_done (s : State) : (endCommand s).done = true := rfl
@[simp] theorem endCommand_error (s : State) : (endCommand s).error = s.error := rfl
@[simp] theorem endCommand_cmdRejected (s : State) : (endCommand s).cmdRejected = s.cmdRejected := rfl
@[simp] theorem endCommand_progress (s : State) : (endCommand s).progress = 4 := rfl
@[simp] theorem endCommand_operands (s : State) : (endCommand s).operands = s.operands := rfl
@[simp] theorem endCommand_resLen (s : State) : (endCommand s).resLen = s.resLen := rfl
@[simp] theorem endCommand_resAuxLen (s : State) : (endCommand s).resAuxLen = s.resAuxLen := rfl
@[simp] theorem endCommand_info (s : State) : (endCommand s).info = s.info := rfl
@[simp] theorem endCommand_dictSize (s : State) : (endCommand s).dictSize = s.dictSize := rfl
@[simp] theorem endCommand_err (s : State) : (endCommand s).err = s.err := rfl
@[simp] theorem endCommand_errOffset (s : State) : (endCommand s).errOffset = s.errOffset := rfl
@[simp] theorem endCommand_seqState (s : State) : (endCommand s).seqState = .idle := rfl
@[simp] theorem endCommand_phase (s : State) : (endCommand s).phase = s.phase := rfl
@[simp] theorem endCommand_latched (s : State) : (endCommand s).latched = s.latched := rfl
@[simp] theorem endCommand_latchedLenchk (s : State) : (endCommand s).latchedLenchk = s.latchedLenchk := rfl
@[simp] theorem endCommand_store (s : State) : (endCommand s).store = Store.fresh := rfl
@[simp] theorem endCommand_mem (s : State) : (endCommand s).mem = s.mem := rfl
@[simp] theorem endCommand_inTouched (s : State) : (endCommand s).inTouched = false := rfl
@[simp] theorem endCommand_outTouched (s : State) : (endCommand s).outTouched = false := rfl
@[simp] theorem endCommand_draws (s : State) : (endCommand s).draws = s.draws := rfl
@[simp] theorem endCommand_hostData (s : State) : (endCommand s).hostData = s.hostData := rfl
@[simp] theorem endCommand_events (s : State) : (endCommand s).events = s.events := rfl

/-! ## successRegs -/

@[simp] theorem successRegs_params (r : Results) (s : State) : (successRegs r s).params = s.params := rfl
@[simp] theorem successRegs_irqEn (r : Results) (s : State) : (successRegs r s).irqEn = s.irqEn := rfl
@[simp] theorem successRegs_lenchk (r : Results) (s : State) : (successRegs r s).lenchk = s.lenchk := rfl
@[simp] theorem successRegs_done (r : Results) (s : State) : (successRegs r s).done = true := rfl
@[simp] theorem successRegs_error (r : Results) (s : State) : (successRegs r s).error = false := rfl
@[simp] theorem successRegs_cmdRejected (r : Results) (s : State) : (successRegs r s).cmdRejected = s.cmdRejected := rfl
@[simp] theorem successRegs_progress (r : Results) (s : State) : (successRegs r s).progress = 4 := rfl
@[simp] theorem successRegs_operands (r : Results) (s : State) : (successRegs r s).operands = s.operands := rfl
@[simp] theorem successRegs_resLen (r : Results) (s : State) : (successRegs r s).resLen = BitVec.ofNat 32 r.resLen := rfl
@[simp] theorem successRegs_resAuxLen (r : Results) (s : State) : (successRegs r s).resAuxLen = BitVec.ofNat 32 r.resAuxLen := rfl
@[simp] theorem successRegs_info (r : Results) (s : State) : (successRegs r s).info = r.info := rfl
@[simp] theorem successRegs_dictSize (r : Results) (s : State) : (successRegs r s).dictSize = BitVec.ofNat 32 r.dictSize := rfl
@[simp] theorem successRegs_err (r : Results) (s : State) : (successRegs r s).err = 0 := rfl
@[simp] theorem successRegs_errOffset (r : Results) (s : State) : (successRegs r s).errOffset = 0 := rfl
@[simp] theorem successRegs_seqState (r : Results) (s : State) : (successRegs r s).seqState = .idle := rfl
@[simp] theorem successRegs_phase (r : Results) (s : State) : (successRegs r s).phase = s.phase := rfl
@[simp] theorem successRegs_latched (r : Results) (s : State) : (successRegs r s).latched = s.latched := rfl
@[simp] theorem successRegs_latchedLenchk (r : Results) (s : State) : (successRegs r s).latchedLenchk = s.latchedLenchk := rfl
@[simp] theorem successRegs_store (r : Results) (s : State) : (successRegs r s).store = Store.fresh := rfl
@[simp] theorem successRegs_mem (r : Results) (s : State) : (successRegs r s).mem = s.mem := rfl
@[simp] theorem successRegs_inTouched (r : Results) (s : State) : (successRegs r s).inTouched = false := rfl
@[simp] theorem successRegs_outTouched (r : Results) (s : State) : (successRegs r s).outTouched = false := rfl
@[simp] theorem successRegs_draws (r : Results) (s : State) : (successRegs r s).draws = s.draws := rfl
@[simp] theorem successRegs_hostData (r : Results) (s : State) : (successRegs r s).hostData = s.hostData := rfl
@[simp] theorem successRegs_events (r : Results) (s : State) : (successRegs r s).events = s.events := rfl

/-! ## errorRegs -/

@[simp] theorem errorRegs_params (e : Raise) (s : State) : (errorRegs e s).params = s.params := rfl
@[simp] theorem errorRegs_irqEn (e : Raise) (s : State) : (errorRegs e s).irqEn = s.irqEn := rfl
@[simp] theorem errorRegs_lenchk (e : Raise) (s : State) : (errorRegs e s).lenchk = s.lenchk := rfl
@[simp] theorem errorRegs_done (e : Raise) (s : State) : (errorRegs e s).done = true := rfl
@[simp] theorem errorRegs_error (e : Raise) (s : State) : (errorRegs e s).error = true := rfl
@[simp] theorem errorRegs_cmdRejected (e : Raise) (s : State) : (errorRegs e s).cmdRejected = s.cmdRejected := rfl
@[simp] theorem errorRegs_progress (e : Raise) (s : State) : (errorRegs e s).progress = 4 := rfl
@[simp] theorem errorRegs_operands (e : Raise) (s : State) : (errorRegs e s).operands = s.operands := rfl
@[simp] theorem errorRegs_resLen (e : Raise) (s : State) : (errorRegs e s).resLen = 0 := rfl
@[simp] theorem errorRegs_resAuxLen (e : Raise) (s : State) : (errorRegs e s).resAuxLen = 0 := rfl
@[simp] theorem errorRegs_info (e : Raise) (s : State) : (errorRegs e s).info = 0 := rfl
@[simp] theorem errorRegs_dictSize (e : Raise) (s : State) : (errorRegs e s).dictSize = 0 := rfl
@[simp] theorem errorRegs_err (e : Raise) (s : State) : (errorRegs e s).err = errWord e.cause := rfl
@[simp] theorem errorRegs_errOffset (e : Raise) (s : State) : (errorRegs e s).errOffset = BitVec.ofNat 32 e.offset := rfl
@[simp] theorem errorRegs_seqState (e : Raise) (s : State) : (errorRegs e s).seqState = .idle := rfl
@[simp] theorem errorRegs_phase (e : Raise) (s : State) : (errorRegs e s).phase = s.phase := rfl
@[simp] theorem errorRegs_latched (e : Raise) (s : State) : (errorRegs e s).latched = s.latched := rfl
@[simp] theorem errorRegs_latchedLenchk (e : Raise) (s : State) : (errorRegs e s).latchedLenchk = s.latchedLenchk := rfl
@[simp] theorem errorRegs_store (e : Raise) (s : State) : (errorRegs e s).store = Store.fresh := rfl
@[simp] theorem errorRegs_mem (e : Raise) (s : State) : (errorRegs e s).mem = s.mem := rfl
@[simp] theorem errorRegs_inTouched (e : Raise) (s : State) : (errorRegs e s).inTouched = false := rfl
@[simp] theorem errorRegs_outTouched (e : Raise) (s : State) : (errorRegs e s).outTouched = false := rfl
@[simp] theorem errorRegs_draws (e : Raise) (s : State) : (errorRegs e s).draws = s.draws := rfl
@[simp] theorem errorRegs_hostData (e : Raise) (s : State) : (errorRegs e s).hostData = s.hostData := rfl
@[simp] theorem errorRegs_events (e : Raise) (s : State) : (errorRegs e s).events = s.events := rfl

/-! ## writeCtrl -/

@[simp] theorem writeCtrl_params (v : Word) (s : State) : (writeCtrl v s).params = s.params := rfl
@[simp] theorem writeCtrl_irqEn (v : Word) (s : State) : (writeCtrl v s).irqEn = v.getLsbD 0 := rfl
@[simp] theorem writeCtrl_lenchk (v : Word) (s : State) : (writeCtrl v s).lenchk = v.getLsbD 1 := rfl
@[simp] theorem writeCtrl_done (v : Word) (s : State) : (writeCtrl v s).done = s.done := rfl
@[simp] theorem writeCtrl_error (v : Word) (s : State) : (writeCtrl v s).error = s.error := rfl
@[simp] theorem writeCtrl_cmdRejected (v : Word) (s : State) : (writeCtrl v s).cmdRejected = s.cmdRejected := rfl
@[simp] theorem writeCtrl_progress (v : Word) (s : State) : (writeCtrl v s).progress = s.progress := rfl
@[simp] theorem writeCtrl_operands (v : Word) (s : State) : (writeCtrl v s).operands = s.operands := rfl
@[simp] theorem writeCtrl_resLen (v : Word) (s : State) : (writeCtrl v s).resLen = s.resLen := rfl
@[simp] theorem writeCtrl_resAuxLen (v : Word) (s : State) : (writeCtrl v s).resAuxLen = s.resAuxLen := rfl
@[simp] theorem writeCtrl_info (v : Word) (s : State) : (writeCtrl v s).info = s.info := rfl
@[simp] theorem writeCtrl_dictSize (v : Word) (s : State) : (writeCtrl v s).dictSize = s.dictSize := rfl
@[simp] theorem writeCtrl_err (v : Word) (s : State) : (writeCtrl v s).err = s.err := rfl
@[simp] theorem writeCtrl_errOffset (v : Word) (s : State) : (writeCtrl v s).errOffset = s.errOffset := rfl
@[simp] theorem writeCtrl_seqState (v : Word) (s : State) : (writeCtrl v s).seqState = s.seqState := rfl
@[simp] theorem writeCtrl_phase (v : Word) (s : State) : (writeCtrl v s).phase = s.phase := rfl
@[simp] theorem writeCtrl_latched (v : Word) (s : State) : (writeCtrl v s).latched = s.latched := rfl
@[simp] theorem writeCtrl_latchedLenchk (v : Word) (s : State) : (writeCtrl v s).latchedLenchk = s.latchedLenchk := rfl
@[simp] theorem writeCtrl_store (v : Word) (s : State) : (writeCtrl v s).store = s.store := rfl
@[simp] theorem writeCtrl_mem (v : Word) (s : State) : (writeCtrl v s).mem = s.mem := rfl
@[simp] theorem writeCtrl_inTouched (v : Word) (s : State) : (writeCtrl v s).inTouched = s.inTouched := rfl
@[simp] theorem writeCtrl_outTouched (v : Word) (s : State) : (writeCtrl v s).outTouched = s.outTouched := rfl
@[simp] theorem writeCtrl_draws (v : Word) (s : State) : (writeCtrl v s).draws = s.draws := rfl
@[simp] theorem writeCtrl_hostData (v : Word) (s : State) : (writeCtrl v s).hostData = s.hostData := rfl
@[simp] theorem writeCtrl_events (v : Word) (s : State) : (writeCtrl v s).events = s.events := rfl

/-! ## writeStatus -/

@[simp] theorem writeStatus_params (v : Word) (s : State) : (writeStatus v s).params = s.params := rfl
@[simp] theorem writeStatus_irqEn (v : Word) (s : State) : (writeStatus v s).irqEn = s.irqEn := rfl
@[simp] theorem writeStatus_lenchk (v : Word) (s : State) : (writeStatus v s).lenchk = s.lenchk := rfl
@[simp] theorem writeStatus_done (v : Word) (s : State) : (writeStatus v s).done = (s.done && !v.getLsbD 1) := rfl
@[simp] theorem writeStatus_error (v : Word) (s : State) : (writeStatus v s).error = (s.error && !v.getLsbD 2) := rfl
@[simp] theorem writeStatus_cmdRejected (v : Word) (s : State) : (writeStatus v s).cmdRejected = (s.cmdRejected && !v.getLsbD 3) := rfl
@[simp] theorem writeStatus_progress (v : Word) (s : State) : (writeStatus v s).progress = s.progress := rfl
@[simp] theorem writeStatus_operands (v : Word) (s : State) : (writeStatus v s).operands = s.operands := rfl
@[simp] theorem writeStatus_resLen (v : Word) (s : State) : (writeStatus v s).resLen = s.resLen := rfl
@[simp] theorem writeStatus_resAuxLen (v : Word) (s : State) : (writeStatus v s).resAuxLen = s.resAuxLen := rfl
@[simp] theorem writeStatus_info (v : Word) (s : State) : (writeStatus v s).info = s.info := rfl
@[simp] theorem writeStatus_dictSize (v : Word) (s : State) : (writeStatus v s).dictSize = s.dictSize := rfl
@[simp] theorem writeStatus_err (v : Word) (s : State) : (writeStatus v s).err = s.err := rfl
@[simp] theorem writeStatus_errOffset (v : Word) (s : State) : (writeStatus v s).errOffset = s.errOffset := rfl
@[simp] theorem writeStatus_seqState (v : Word) (s : State) : (writeStatus v s).seqState = s.seqState := rfl
@[simp] theorem writeStatus_phase (v : Word) (s : State) : (writeStatus v s).phase = s.phase := rfl
@[simp] theorem writeStatus_latched (v : Word) (s : State) : (writeStatus v s).latched = s.latched := rfl
@[simp] theorem writeStatus_latchedLenchk (v : Word) (s : State) : (writeStatus v s).latchedLenchk = s.latchedLenchk := rfl
@[simp] theorem writeStatus_store (v : Word) (s : State) : (writeStatus v s).store = s.store := rfl
@[simp] theorem writeStatus_mem (v : Word) (s : State) : (writeStatus v s).mem = s.mem := rfl
@[simp] theorem writeStatus_inTouched (v : Word) (s : State) : (writeStatus v s).inTouched = s.inTouched := rfl
@[simp] theorem writeStatus_outTouched (v : Word) (s : State) : (writeStatus v s).outTouched = s.outTouched := rfl
@[simp] theorem writeStatus_draws (v : Word) (s : State) : (writeStatus v s).draws = s.draws := rfl
@[simp] theorem writeStatus_hostData (v : Word) (s : State) : (writeStatus v s).hostData = s.hostData := rfl
@[simp] theorem writeStatus_events (v : Word) (s : State) : (writeStatus v s).events = s.events := rfl

/-! ## answer -/

@[simp] theorem answer_params (v : Word) (s : State) : (answer v s).params = s.params := rfl
@[simp] theorem answer_irqEn (v : Word) (s : State) : (answer v s).irqEn = s.irqEn := rfl
@[simp] theorem answer_lenchk (v : Word) (s : State) : (answer v s).lenchk = s.lenchk := rfl
@[simp] theorem answer_done (v : Word) (s : State) : (answer v s).done = s.done := rfl
@[simp] theorem answer_error (v : Word) (s : State) : (answer v s).error = s.error := rfl
@[simp] theorem answer_cmdRejected (v : Word) (s : State) : (answer v s).cmdRejected = s.cmdRejected := rfl
@[simp] theorem answer_progress (v : Word) (s : State) : (answer v s).progress = s.progress := rfl
@[simp] theorem answer_operands (v : Word) (s : State) : (answer v s).operands = s.operands := rfl
@[simp] theorem answer_resLen (v : Word) (s : State) : (answer v s).resLen = s.resLen := rfl
@[simp] theorem answer_resAuxLen (v : Word) (s : State) : (answer v s).resAuxLen = s.resAuxLen := rfl
@[simp] theorem answer_info (v : Word) (s : State) : (answer v s).info = s.info := rfl
@[simp] theorem answer_dictSize (v : Word) (s : State) : (answer v s).dictSize = s.dictSize := rfl
@[simp] theorem answer_err (v : Word) (s : State) : (answer v s).err = s.err := rfl
@[simp] theorem answer_errOffset (v : Word) (s : State) : (answer v s).errOffset = s.errOffset := rfl
@[simp] theorem answer_seqState (v : Word) (s : State) : (answer v s).seqState = s.seqState := rfl
@[simp] theorem answer_phase (v : Word) (s : State) : (answer v s).phase = s.phase := rfl
@[simp] theorem answer_latched (v : Word) (s : State) : (answer v s).latched = s.latched := rfl
@[simp] theorem answer_latchedLenchk (v : Word) (s : State) : (answer v s).latchedLenchk = s.latchedLenchk := rfl
@[simp] theorem answer_store (v : Word) (s : State) : (answer v s).store = s.store := rfl
@[simp] theorem answer_mem (v : Word) (s : State) : (answer v s).mem = s.mem := rfl
@[simp] theorem answer_inTouched (v : Word) (s : State) : (answer v s).inTouched = s.inTouched := rfl
@[simp] theorem answer_outTouched (v : Word) (s : State) : (answer v s).outTouched = s.outTouched := rfl
@[simp] theorem answer_draws (v : Word) (s : State) : (answer v s).draws = s.draws := rfl
@[simp] theorem answer_hostData (v : Word) (s : State) : (answer v s).hostData = v := rfl
@[simp] theorem answer_events (v : Word) (s : State) : (answer v s).events = s.events := rfl

/-! ## answerFree -/

@[simp] theorem answerFree_params (s : State) : (answerFree s).params = s.params := rfl
@[simp] theorem answerFree_irqEn (s : State) : (answerFree s).irqEn = s.irqEn := rfl
@[simp] theorem answerFree_lenchk (s : State) : (answerFree s).lenchk = s.lenchk := rfl
@[simp] theorem answerFree_done (s : State) : (answerFree s).done = s.done := rfl
@[simp] theorem answerFree_error (s : State) : (answerFree s).error = s.error := rfl
@[simp] theorem answerFree_cmdRejected (s : State) : (answerFree s).cmdRejected = s.cmdRejected := rfl
@[simp] theorem answerFree_progress (s : State) : (answerFree s).progress = s.progress := rfl
@[simp] theorem answerFree_operands (s : State) : (answerFree s).operands = s.operands := rfl
@[simp] theorem answerFree_resLen (s : State) : (answerFree s).resLen = s.resLen := rfl
@[simp] theorem answerFree_resAuxLen (s : State) : (answerFree s).resAuxLen = s.resAuxLen := rfl
@[simp] theorem answerFree_info (s : State) : (answerFree s).info = s.info := rfl
@[simp] theorem answerFree_dictSize (s : State) : (answerFree s).dictSize = s.dictSize := rfl
@[simp] theorem answerFree_err (s : State) : (answerFree s).err = s.err := rfl
@[simp] theorem answerFree_errOffset (s : State) : (answerFree s).errOffset = s.errOffset := rfl
@[simp] theorem answerFree_seqState (s : State) : (answerFree s).seqState = s.seqState := rfl
@[simp] theorem answerFree_phase (s : State) : (answerFree s).phase = s.phase := rfl
@[simp] theorem answerFree_latched (s : State) : (answerFree s).latched = s.latched := rfl
@[simp] theorem answerFree_latchedLenchk (s : State) : (answerFree s).latchedLenchk = s.latchedLenchk := rfl
@[simp] theorem answerFree_store (s : State) : (answerFree s).store = s.store := rfl
@[simp] theorem answerFree_mem (s : State) : (answerFree s).mem = s.mem := rfl
@[simp] theorem answerFree_inTouched (s : State) : (answerFree s).inTouched = s.inTouched := rfl
@[simp] theorem answerFree_outTouched (s : State) : (answerFree s).outTouched = s.outTouched := rfl
@[simp] theorem answerFree_draws (s : State) : (answerFree s).draws = s.draws + 1 := rfl
@[simp] theorem answerFree_hostData (s : State) : (answerFree s).hostData = Config.freeWord s.draws := rfl
@[simp] theorem answerFree_events (s : State) : (answerFree s).events = s.events := rfl

/-! ## writeBuf -/

@[simp] theorem writeBuf_params (a : Nat) (b : Byte) (s : State) : (writeBuf a b s).params = s.params := rfl
@[simp] theorem writeBuf_irqEn (a : Nat) (b : Byte) (s : State) : (writeBuf a b s).irqEn = s.irqEn := rfl
@[simp] theorem writeBuf_lenchk (a : Nat) (b : Byte) (s : State) : (writeBuf a b s).lenchk = s.lenchk := rfl
@[simp] theorem writeBuf_done (a : Nat) (b : Byte) (s : State) : (writeBuf a b s).done = s.done := rfl
@[simp] theorem writeBuf_error (a : Nat) (b : Byte) (s : State) : (writeBuf a b s).error = s.error := rfl
@[simp] theorem writeBuf_cmdRejected (a : Nat) (b : Byte) (s : State) : (writeBuf a b s).cmdRejected = s.cmdRejected := rfl
@[simp] theorem writeBuf_progress (a : Nat) (b : Byte) (s : State) : (writeBuf a b s).progress = s.progress := rfl
@[simp] theorem writeBuf_operands (a : Nat) (b : Byte) (s : State) : (writeBuf a b s).operands = s.operands := rfl
@[simp] theorem writeBuf_resLen (a : Nat) (b : Byte) (s : State) : (writeBuf a b s).resLen = s.resLen := rfl
@[simp] theorem writeBuf_resAuxLen (a : Nat) (b : Byte) (s : State) : (writeBuf a b s).resAuxLen = s.resAuxLen := rfl
@[simp] theorem writeBuf_info (a : Nat) (b : Byte) (s : State) : (writeBuf a b s).info = s.info := rfl
@[simp] theorem writeBuf_dictSize (a : Nat) (b : Byte) (s : State) : (writeBuf a b s).dictSize = s.dictSize := rfl
@[simp] theorem writeBuf_err (a : Nat) (b : Byte) (s : State) : (writeBuf a b s).err = s.err := rfl
@[simp] theorem writeBuf_errOffset (a : Nat) (b : Byte) (s : State) : (writeBuf a b s).errOffset = s.errOffset := rfl
@[simp] theorem writeBuf_seqState (a : Nat) (b : Byte) (s : State) : (writeBuf a b s).seqState = s.seqState := rfl
@[simp] theorem writeBuf_phase (a : Nat) (b : Byte) (s : State) : (writeBuf a b s).phase = s.phase := rfl
@[simp] theorem writeBuf_latched (a : Nat) (b : Byte) (s : State) : (writeBuf a b s).latched = s.latched := rfl
@[simp] theorem writeBuf_latchedLenchk (a : Nat) (b : Byte) (s : State) : (writeBuf a b s).latchedLenchk = s.latchedLenchk := rfl
@[simp] theorem writeBuf_store (a : Nat) (b : Byte) (s : State) : (writeBuf a b s).store = s.store := rfl
@[simp] theorem writeBuf_mem (a : Nat) (b : Byte) (s : State) : (writeBuf a b s).mem = s.mem.set a b := rfl
@[simp] theorem writeBuf_inTouched (a : Nat) (b : Byte) (s : State) : (writeBuf a b s).inTouched = (s.inTouched || (s.busy && s.inInput a)) := rfl
@[simp] theorem writeBuf_outTouched (a : Nat) (b : Byte) (s : State) : (writeBuf a b s).outTouched = (s.outTouched || (s.busy && s.inOutput a)) := rfl
@[simp] theorem writeBuf_draws (a : Nat) (b : Byte) (s : State) : (writeBuf a b s).draws = s.draws := rfl
@[simp] theorem writeBuf_hostData (a : Nat) (b : Byte) (s : State) : (writeBuf a b s).hostData = s.hostData := rfl
@[simp] theorem writeBuf_events (a : Nat) (b : Byte) (s : State) : (writeBuf a b s).events = s.events := rfl

end Sys2Proof.Machine
end

