-- ==== Sys2Proof/Laws/Ops.lean ====
section
/-! SUPPORT. For each shared operation, once, everything it can do. -/

namespace Sys2Proof.Machine

/-! ## Regions and their checks -/

theorem Region.has_iff (r : Region) (a : Nat) : r.has a = true ↔ r.base ≤ a ∧ a < r.base + r.len := by
  simp [Region.has]

theorem Region.has_eq_false_iff (r : Region) (a : Nat) :
    r.has a = false ↔ a < r.base ∨ r.base + r.len ≤ a := by
  rw [← Bool.not_eq_true, Region.has_iff]; omega

theorem Region.inRange_iff (r : Region) (n : Nat) : r.inRange n = true ↔ r.base + r.len ≤ n := by
  simp [Region.inRange]

theorem Region.overlaps_iff (r q : Region) :
    r.overlaps q = true ↔ 0 < r.len ∧ 0 < q.len ∧ r.base < q.base + q.len ∧ q.base < r.base + r.len := by
  simp [Region.overlaps, and_assoc]

theorem firstOutOfRange_eq_none {n : Nat} {l : List (Region × Cause)} :
    firstOutOfRange n l = none ↔ ∀ p ∈ l, p.1.base + p.1.len ≤ n := by
  induction l with
  | nil => simp [firstOutOfRange]
  | cons p l ih =>
    obtain ⟨r, c⟩ := p
    by_cases h : r.base + r.len ≤ n <;> simp [firstOutOfRange, Region.inRange_iff, h, ih]

/-- CHECK passes exactly when every range check and every overlap check of the command passes. -/
theorem checkRegions_eq_none {n : Nat} {i : Instr} {o : Operands} :
    checkRegions n i o = none ↔
      (∀ p ∈ rangeChecks i o, p.1.base + p.1.len ≤ n) ∧ ∀ p ∈ overlapChecks i o, p.1.overlaps p.2 = false := by
  unfold checkRegions
  split
  · next c h =>
    refine ⟨fun h' => by simp at h', fun h' => ?_⟩
    rw [firstOutOfRange_eq_none.mpr h'.1] at h; simp at h
  · next h =>
    rw [firstOutOfRange_eq_none] at h
    simp only [ite_eq_right_iff, reduceCtorEq, imp_false, List.any_eq_true, not_exists, not_and,
      Bool.not_eq_true]
    exact ⟨fun h' => ⟨h, h'⟩, fun h' => h'.2⟩

/-! ## Free values in regions -/

/-- Scrambling a region writes bytes that lie in the region and in BUF, and counts them. -/
theorem scrambleRegion_eq (r : Region) (s : State) :
    ∃ bs : List Byte, scrambleRegion r s = { s with mem := s.mem.setBytes r.base bs, draws := s.draws + bs.length } ∧
      bs.length = min r.len (s.params.memSize - r.base) :=
  ⟨(List.range (min r.len (s.params.memSize - r.base))).map fun k => Config.freeByte (s.draws + k),
    by simp [scrambleRegion], by simp⟩

/-- What a change of BUF and of the count of free values within some regions comes to. -/
structure Scrambled (rs : List Region) (s t : State) : Prop where
  eq : t = { s with mem := t.mem, draws := t.draws }
  same : SameOutside rs s t
  wf : s.mem.wf s.params.memSize = true → t.mem.wf s.params.memSize = true
  draws : s.draws ≤ t.draws

theorem Scrambled.refl (rs : List Region) (s : State) : Scrambled rs s s :=
  ⟨rfl, fun _ _ => rfl, id, le_refl _⟩

theorem Scrambled.trans {rs : List Region} {s t u : State} (h : Scrambled rs s t) (h' : Scrambled rs t u) :
    Scrambled rs s u where
  eq := by rw [h'.eq, h.eq]
  same a ha := (h'.same a ha).trans (h.same a ha)
  wf hw := by
    have hp : t.params = s.params := by rw [h.eq]
    have := h'.wf (by rw [hp]; exact h.wf hw)
    rwa [hp] at this
  draws := h.draws.trans h'.draws

theorem scrambleRegion_scrambled {rs : List Region} {r : Region} (hr : r ∈ rs) (s : State) :
    Scrambled rs s (scrambleRegion r s) := by
  obtain ⟨bs, heq, hlen⟩ := scrambleRegion_eq r s
  rw [heq]
  refine ⟨rfl, fun a ha => ?_, fun hw => ?_, Nat.le_add_right _ _⟩
  · have hr' := List.any_eq_false.mp ha r hr
    rw [Bool.not_eq_true, Region.has_eq_false_iff] at hr'
    exact Memory.byteAt_setBytes_outside bs s.mem r.base a (by omega)
  · refine Memory.wf_setBytes bs hw fun hne => ?_
    have := List.length_pos_iff.mpr hne
    omega

theorem foldl_scrambleRegion {rs : List Region} : ∀ (l : List Region), (∀ r ∈ l, r ∈ rs) → ∀ s : State,
    Scrambled rs s (l.foldl (fun t r => scrambleRegion r t) s)
  | [], _, s => Scrambled.refl rs s
  | r :: l, h, s =>
    (scrambleRegion_scrambled (h r List.mem_cons_self) s).trans
      (foldl_scrambleRegion l (fun q hq => h q (List.mem_cons_of_mem _ hq)) _)

/-- Scrambling the outputs changes BUF in the running command's output regions only. -/
theorem scrambleOutputs_scrambled (s : State) :
    Scrambled (outputRegions s.phase.command s.latched) s (scrambleOutputs s) :=
  foldl_scrambleRegion _ (fun _ h => h) s

/-! ## A command's accesses -/

@[simp] theorem State.regionBytes_length (s : State) (r : Region) : (s.regionBytes r).length = r.len := by
  simp [State.regionBytes]

/-- A write that fits its region, in BUF, writes all its bytes. -/
theorem writeRegion_of_fits {r : Region} {off : Nat} {bs : List Byte} {s : State} (h : off + bs.length ≤ r.len)
    (h' : r.base + r.len ≤ s.params.memSize) :
    writeRegion r off bs s = { s with mem := s.mem.setBytes (r.base + off) bs } := by
  unfold writeRegion
  rw [List.take_of_length_le (by omega)]

/-- A write changes BUF only. -/
theorem writeRegion_frame (r : Region) (off : Nat) (bs : List Byte) (s : State) :
    writeRegion r off bs s = { s with mem := (writeRegion r off bs s).mem } := rfl

/-- No byte of a write lands outside the region. -/
theorem writeRegion_byteAt {r : Region} {off : Nat} {bs : List Byte} {s : State} {a : Nat} (h : r.has a = false) :
    (writeRegion r off bs s).byteAt a = s.byteAt a := by
  rw [Region.has_eq_false_iff] at h
  refine Memory.byteAt_setBytes_outside _ s.mem (r.base + off) a ?_
  simp only [List.length_take]
  omega

/-- A write keeps the canonical form of BUF. -/
theorem writeRegion_wf {r : Region} {off : Nat} {bs : List Byte} {s : State}
    (h : s.mem.wf s.params.memSize = true) : (writeRegion r off bs s).mem.wf s.params.memSize = true := by
  refine Memory.wf_setBytes _ h fun hne => ?_
  have := List.length_pos_iff.mpr hne
  simp only [List.length_take] at this ⊢
  omega

/-! ## Field words -/

/-- The reserved bits of INFO are 0. -/
theorem infoWord_masked (l d : Nat) : infoWord l d &&& ~~~infoMask = 0 := by
  apply BitVec.eq_of_getLsbD_eq
  intro i hi
  have : i = 0 ∨ i = 1 ∨ i = 2 ∨ i = 3 ∨ i = 4 ∨ i = 5 ∨ i = 6 ∨ i = 7 ∨ i = 8 ∨ i = 9 ∨ i = 10 ∨ i = 11 ∨
      i = 12 ∨ i = 13 ∨ i = 14 ∨ i = 15 ∨ i = 16 ∨ i = 17 ∨ i = 18 ∨ i = 19 ∨ i = 20 ∨ i = 21 ∨ i = 22 ∨
      i = 23 ∨ i = 24 ∨ i = 25 ∨ i = 26 ∨ i = 27 ∨ i = 28 ∨ i = 29 ∨ i = 30 ∨ i = 31 := by omega
  rcases this with h | h | h | h | h | h | h | h | h | h | h | h | h | h | h | h | h | h | h | h | h | h | h |
    h | h | h | h | h | h | h | h | h <;> subst h <;> simp [infoWord, infoMask]

theorem mask_masked (w : Word) : w &&& infoMask &&& ~~~infoMask = 0 := by
  rw [BitVec.and_assoc]; simp

/-- Every word of the table R302 is legal. -/
theorem errLegal_errWord (c : Cause) : errLegal (errWord c) = true := by
  cases c <;> decide

theorem errLegal_table (i : Nat) : errLegal ((allCauses[i]?.map errWord).getD 0) = true := by
  cases h : allCauses[i]? with
  | none => decide
  | some c => simpa using errLegal_errWord c

/-! ## Completions -/

/-- What every completion of the command running in `s` leaves in `t`, whatever its kind. -/
structure Ended (s t : State) : Prop where
  idle : t.seqState = .idle
  done : t.done = true
  progress : t.progress = 4
  store : t.store = Store.fresh
  marks : t.inTouched = false ∧ t.outTouched = false
  host : HostSame s t
  latched : t.latched = s.latched ∧ t.latchedLenchk = s.latchedLenchk ∧ t.phase.command = s.phase.command
  err : errLegal t.err = true
  info : t.info &&& ~~~infoMask = 0
  same : SameOutside (outputRegions s.phase.command s.latched) s t
  wf : s.mem.wf s.params.memSize = true → t.mem.wf s.params.memSize = true

/-- A record update that keeps everything but results, flags and the sequencer's end ends the command. -/
theorem ended_of_scrambled {s u t : State} (hu : Scrambled (outputRegions s.phase.command s.latched) s u)
    (hm : t.mem = u.mem) (hi : t.seqState = .idle) (hd : t.done = true) (hp : t.progress = 4)
    (hst : t.store = Store.fresh) (hmk : t.inTouched = false ∧ t.outTouched = false) (hh : HostSame u t)
    (hl : t.latched = u.latched ∧ t.latchedLenchk = u.latchedLenchk ∧ t.phase = u.phase)
    (he : errLegal t.err = true) (hf : t.info &&& ~~~infoMask = 0) : Ended s t where
  idle := hi
  done := hd
  progress := hp
  store := hst
  marks := hmk
  host := by
    have h := hu.eq
    obtain ⟨h1, h2, h3, h4, h5, h6, h7⟩ := hh
    refine ⟨h1.trans ?_, h2.trans ?_, h3.trans ?_, h4.trans ?_, h5.trans ?_, h6.trans ?_, h7.trans ?_⟩ <;> rw [h]
  latched := by
    have h := hu.eq
    obtain ⟨h1, h2, h3⟩ := hl
    refine ⟨h1.trans ?_, h2.trans ?_, (congrArg Phase.command h3).trans ?_⟩ <;> rw [h]
  err := he
  info := hf
  same a ha := by
    show t.mem.byteAt a = _
    rw [hm]; exact hu.same a ha
  wf hw := by rw [hm]; exact hu.wf hw

theorem freeCompletion_ended (s : State) : Ended s (freeCompletion s) :=
  ended_of_scrambled (scrambleOutputs_scrambled s) rfl rfl rfl rfl rfl ⟨rfl, rfl⟩
    ⟨rfl, rfl, rfl, rfl, rfl, rfl, rfl⟩ ⟨rfl, rfl, rfl⟩ (errLegal_table _) (mask_masked _)

theorem successRegs_ended {s u : State} {r : Results} (hi : r.info &&& ~~~infoMask = 0)
    (hu : Scrambled (outputRegions s.phase.command s.latched) s u) : Ended s (successRegs r u) :=
  ended_of_scrambled hu rfl rfl rfl rfl rfl ⟨rfl, rfl⟩ ⟨rfl, rfl, rfl, rfl, rfl, rfl, rfl⟩ ⟨rfl, rfl, rfl⟩
    (show errLegal 0 = true by decide) hi

theorem errorRegs_ended {s u : State} {e : Raise}
    (hu : Scrambled (outputRegions s.phase.command s.latched) s u) : Ended s (errorRegs e u) :=
  ended_of_scrambled hu rfl rfl rfl rfl rfl ⟨rfl, rfl⟩ ⟨rfl, rfl, rfl, rfl, rfl, rfl, rfl⟩ ⟨rfl, rfl, rfl⟩
    (errLegal_errWord _) (by simp)

/-- complete always answers a next state, and it has ended the command. -/
theorem complete_ended {r : Results} {s : State} (hi : r.info &&& ~~~infoMask = 0) :
    ∃ t, complete r s = .next t ∧ Ended s t := by
  unfold complete
  split
  · exact ⟨_, rfl, freeCompletion_ended s⟩
  · split
    · exact ⟨_, rfl, successRegs_ended hi (scrambleOutputs_scrambled s)⟩
    · exact ⟨_, rfl, successRegs_ended hi (Scrambled.refl _ s)⟩

/-- raiseError always answers a next state, and it has ended the command. -/
theorem raiseError_ended (w : WriteClass) (e : Raise) (s : State) :
    ∃ t, raiseError w e s = .next t ∧ Ended s t := by
  unfold raiseError
  split
  · exact ⟨_, rfl, freeCompletion_ended s⟩
  · split
    · exact ⟨_, rfl, errorRegs_ended (scrambleOutputs_scrambled s)⟩
    · exact ⟨_, rfl, errorRegs_ended (Scrambled.refl _ s)⟩

/-- A success completion of a command whose regions the host left alone (R138). -/
theorem complete_untouched {r : Results} {s : State} (h1 : s.inTouched = false) (h2 : s.outTouched = false) :
    complete r s = .next (successRegs r s) := by
  simp [complete, h1, h2]

/-- An error raised before any write, of a command whose regions the host left alone (R139, R140). -/
theorem raiseError_before {e : Raise} {s : State} (h1 : s.inTouched = false) (h2 : s.outTouched = false) :
    raiseError .beforeWrite e s = .next (errorRegs e s) := by
  simp [raiseError, h1, h2]

/-- Any other error, of a command whose input regions the host left alone (R139, R140). -/
theorem raiseError_after {e : Raise} {s : State} (h1 : s.inTouched = false) :
    raiseError .afterWrite e s = .next (errorRegs e (scrambleOutputs s)) := by
  simp [raiseError, h1]

/-! ## Turns of the core -/

/-- What a turn of the core that does not end the command leaves: only the phase, the internal storage and the
output regions of BUF differ. -/
structure RunsOn (s t : State) : Prop where
  eq : t = { s with phase := t.phase, store := t.store, mem := t.mem }
  command : t.phase.command = s.phase.command
  same : SameOutside (outputRegions s.phase.command s.latched) s t
  wf : s.mem.wf s.params.memSize = true → t.mem.wf s.params.memSize = true

/-- What a turn of the core comes to: the command runs on, or it has ended. -/
abbrev TurnsTo (s t : State) : Prop := RunsOn s t ∨ Ended s t

/-- A phase that writes nothing runs on. -/
theorem runsOn_quiet {s : State} {p : Phase} {st : Store} (h : p.command = s.phase.command) :
    RunsOn s { s with phase := p, store := st } :=
  ⟨rfl, h, fun _ _ => rfl, id⟩

theorem raiseError_turnsTo {w : WriteClass} {e : Raise} {s t : State} (h : raiseError w e s = .next t) :
    TurnsTo s t := by
  obtain ⟨u, hu, he⟩ := raiseError_ended w e s
  rw [hu] at h
  cases h
  exact .inr he

theorem complete_turnsTo {r : Results} {s t : State} (hi : r.info &&& ~~~infoMask = 0)
    (h : complete r s = .next t) : TurnsTo s t := by
  obtain ⟨u, hu, he⟩ := complete_ended (r := r) (s := s) hi
  rw [hu] at h
  cases h
  exact .inr he

/-- Turns one after another: what runs on and then ends has ended. -/
theorem RunsOn.trans_ended {s t u : State} (h : RunsOn s t) (h' : Ended t u) : Ended s u where
  idle := h'.idle
  done := h'.done
  progress := h'.progress
  store := h'.store
  marks := h'.marks
  host := by
    have e := h.eq
    obtain ⟨h1, h2, h3, h4, h5, h6, h7⟩ := h'.host
    refine ⟨h1.trans ?_, h2.trans ?_, h3.trans ?_, h4.trans ?_, h5.trans ?_, h6.trans ?_, h7.trans ?_⟩ <;> rw [e]
  latched := by
    have e := h.eq
    obtain ⟨h1, h2, h3⟩ := h'.latched
    refine ⟨h1.trans ?_, h2.trans ?_, h3.trans h.command⟩ <;> rw [e]
  err := h'.err
  info := h'.info
  same a ha := by
    have e : t.latched = s.latched := by rw [h.eq]
    have := h'.same a (by rw [h.command, e]; exact ha)
    exact this.trans (h.same a ha)
  wf hw := by
    have e : t.params = s.params := by rw [h.eq]
    have := h'.wf (by rw [e]; exact h.wf hw)
    rwa [e] at this

end Sys2Proof.Machine
end

