-- ==== Sys2Proof/Laws/PerInstr.lean ====
section
/-! SUPPORT. Statements about every command as syntax, one lemma per constructor. -/

/-- The encoded word of a command carries its opcode in OP, zero in MBZ, and has the opcode's value (R90). -/
def Sys2Proof.Laws.CommandFields.Statement (i : Sys2Proof.Instr) : Prop :=
  Sys2Proof.opField (Sys2Proof.encode i) = i.opcode ∧ Sys2Proof.mbzField (Sys2Proof.encode i) = 0 ∧
    (Sys2Proof.encode i).toNat = i.opcode.toNat

theorem Sys2Proof.Laws.CommandFields.henc : Sys2Proof.Laws.CommandFields.Statement .henc := by
  unfold Sys2Proof.Laws.CommandFields.Statement; decide

theorem Sys2Proof.Laws.CommandFields.hdec : Sys2Proof.Laws.CommandFields.Statement .hdec := by
  unfold Sys2Proof.Laws.CommandFields.Statement; decide

theorem Sys2Proof.Laws.CommandFields.lenc : Sys2Proof.Laws.CommandFields.Statement .lenc := by
  unfold Sys2Proof.Laws.CommandFields.Statement; decide

theorem Sys2Proof.Laws.CommandFields.ldec : Sys2Proof.Laws.CommandFields.Statement .ldec := by
  unfold Sys2Proof.Laws.CommandFields.Statement; decide
end

