-- ==== Sys2Proof/Laws/Turns.lean ====
section
/-! SUPPORT. What a turn of the core can do, phase by phase: the command runs on, or it has ended. -/

namespace Sys2Proof.Machine

/-- A phase that writes into an output region and then runs on. -/
theorem runsOn_write {s : State} {r : Region} {off : Nat} {bs : List Byte} {p : Phase} {st : Store}
    (hr : r ∈ outputRegions s.phase.command s.latched) (hp : p.command = s.phase.command) :
    RunsOn s { writeRegion r off bs s with phase := p, store := st } where
  eq := rfl
  command := hp
  same a ha := writeRegion_byteAt (by simpa using List.any_eq_false.mp ha r hr)
  wf := writeRegion_wf

/-- A phase that writes into an output region and then completes has ended the command. -/
theorem ended_write {s t : State} {r : Region} {off : Nat} {bs : List Byte} {st : Store} {res : Results}
    (hr : r ∈ outputRegions s.phase.command s.latched) (hi : res.info &&& ~~~infoMask = 0)
    (hc : complete res { writeRegion r off bs s with store := st } = .next t) : Ended s t := by
  obtain ⟨u, hu, he⟩ := complete_ended (s := { writeRegion r off bs s with store := st }) hi
  rw [hu] at hc
  cases hc
  exact (runsOn_write (p := s.phase) (st := st) hr rfl).trans_ended he

/-- CHECK, for a command that is running: BAD_REGION, or on to the next phase. -/
theorem checkPhase_turnsTo {i : Instr} {p : Phase} {s t : State} (hp : p.command = s.phase.command)
    (h : checkPhase i p s = .next t) : TurnsTo s t := by
  unfold checkPhase at h
  split at h
  · exact raiseError_turnsTo h
  · cases h; exact .inl (runsOn_quiet hp)

/-! ## HENC -/

theorem hencCount_turnsTo {s t : State} (hp : s.phase.command = .henc) (h : hencCount s = .next t) :
    TurnsTo s t := by
  unfold hencCount at h
  split at h
  · exact raiseError_turnsTo h
  · cases h; exact .inl (runsOn_quiet hp.symm)

theorem hencBuild_turnsTo {s t : State} (hp : s.phase.command = .henc) (h : hencBuild s = .next t) :
    TurnsTo s t := by
  cases h; exact .inl (runsOn_quiet hp.symm)

theorem hencCodegen_turnsTo {s t : State} (hp : s.phase.command = .henc) (h : hencCodegen s = .next t) :
    TurnsTo s t := by
  cases h; exact .inl (runsOn_quiet hp.symm)

theorem hencSize_turnsTo {s t : State} (hp : s.phase.command = .henc) (h : hencSize s = .next t) :
    TurnsTo s t := by
  simp only [hencSize] at h
  split at h
  · exact raiseError_turnsTo h
  · split at h
    · exact raiseError_turnsTo h
    · cases h; exact .inl (runsOn_quiet hp.symm)

theorem hencSerialize_turnsTo {s t : State} (hp : s.phase.command = .henc) (h : hencSerialize s = .next t) :
    TurnsTo s t := by
  cases h
  exact .inl (runsOn_write (by simp [hp, outputRegions]) hp.symm)

theorem hencPack_turnsTo {s t : State} (hp : s.phase.command = .henc) (h : hencPack s = .next t) :
    TurnsTo s t :=
  .inr (ended_write (st := s.store) (by simp [hp, outputRegions]) (infoWord_masked _ _) h)

theorem hencPhase_turnsTo {p : HencPhase} {s t : State} (hp : s.phase.command = .henc)
    (h : hencPhase p s = .next t) : TurnsTo s t := by
  cases p
  · exact checkPhase_turnsTo (p := .henc .count) hp.symm h
  · exact hencCount_turnsTo hp h
  · exact hencBuild_turnsTo hp h
  · exact hencCodegen_turnsTo hp h
  · exact hencSize_turnsTo hp h
  · exact hencSerialize_turnsTo hp h
  · exact hencPack_turnsTo hp h

/-! ## HDEC -/

theorem hdecParse_turnsTo {s t : State} (hp : s.phase.command = .hdec) (h : hdecParse s = .next t) :
    TurnsTo s t := by
  unfold hdecParse at h
  split at h
  · exact raiseError_turnsTo h
  · cases h; exact .inl (runsOn_quiet hp.symm)

theorem hdecHeader_turnsTo {s t : State} (hp : s.phase.command = .hdec) (h : hdecHeader s = .next t) :
    TurnsTo s t := by
  unfold hdecHeader at h
  split at h
  · exact raiseError_turnsTo h
  · cases h; exact .inl (runsOn_quiet hp.symm)

theorem hdecWalk_turnsTo {s t : State} (hp : s.phase.command = .hdec) (h : hdecWalk s = .next t) :
    TurnsTo s t := by
  unfold hdecWalk at h
  split at h
  · unfold hdecSingleLeaf at h
    split at h
    · exact raiseError_turnsTo h
    · split at h
      · exact raiseError_turnsTo h
      · cases h
        exact .inl (runsOn_write (by simp [hp, outputRegions]) hp.symm)
  · unfold hdecWalkTree at h
    split at h
    · exact raiseError_turnsTo h
    · cases h
      exact .inl (runsOn_write (by simp [hp, outputRegions]) hp.symm)

theorem hdecFinish_turnsTo {s t : State} (h : hdecFinish s = .next t) : TurnsTo s t := by
  unfold hdecFinish at h
  split at h
  · exact complete_turnsTo (infoWord_masked _ _) h
  · split at h
    · exact raiseError_turnsTo h
    · split at h
      · exact raiseError_turnsTo h
      · exact complete_turnsTo (infoWord_masked _ _) h

theorem hdecPhase_turnsTo {p : HdecPhase} {s t : State} (hp : s.phase.command = .hdec)
    (h : hdecPhase p s = .next t) : TurnsTo s t := by
  cases p
  · exact checkPhase_turnsTo (p := .hdec .parse) hp.symm h
  · exact hdecParse_turnsTo hp h
  · exact hdecHeader_turnsTo hp h
  · exact hdecWalk_turnsTo hp h
  · exact hdecFinish_turnsTo h

/-! ## LENC -/

theorem lencScan_turnsTo {s t : State} (hp : s.phase.command = .lenc) (h : lencScan s = .next t) :
    TurnsTo s t := by
  unfold lencScan at h
  split at h
  · exact raiseError_turnsTo h
  · cases h
    exact .inl (runsOn_write (by simp [hp, outputRegions]) hp.symm)

theorem lencFlush_turnsTo {s t : State} (hp : s.phase.command = .lenc) (h : lencFlush s = .next t) :
    TurnsTo s t := by
  unfold lencFlush at h
  split at h
  · exact complete_turnsTo (by simp [lencResults]) h
  · split at h
    · exact raiseError_turnsTo h
    · exact .inr (ended_write (by simp [hp, outputRegions]) (by simp [lencResults]) h)

theorem lencPhase_turnsTo {p : LencPhase} {s t : State} (hp : s.phase.command = .lenc)
    (h : lencPhase p s = .next t) : TurnsTo s t := by
  cases p
  · exact checkPhase_turnsTo (p := .lenc .scan) hp.symm h
  · exact lencScan_turnsTo hp h
  · exact lencFlush_turnsTo hp h

/-! ## LDEC -/

theorem ldecFirst_turnsTo {s t : State} (hp : s.phase.command = .ldec) (h : ldecFirst s = .next t) :
    TurnsTo s t := by
  unfold ldecFirst at h
  split at h
  · exact raiseError_turnsTo h
  · split at h
    · cases h; exact .inl (runsOn_quiet hp.symm)
    · split at h
      · exact raiseError_turnsTo h
      · split at h
        · exact raiseError_turnsTo h
        · cases h
          exact .inl (runsOn_write (by simp [hp, outputRegions]) hp.symm)

theorem ldecLoop_turnsTo {s t : State} (hp : s.phase.command = .ldec) (h : ldecLoop s = .next t) :
    TurnsTo s t := by
  unfold ldecLoop at h
  split at h
  · exact raiseError_turnsTo h
  · cases h
    exact .inl (runsOn_write (by simp [hp, outputRegions]) hp.symm)

theorem ldecFinish_turnsTo {s t : State} (h : ldecFinish s = .next t) : TurnsTo s t := by
  unfold ldecFinish at h
  split at h
  · exact raiseError_turnsTo h
  · exact complete_turnsTo (by simp [ldecResults]) h

theorem ldecPhase_turnsTo {p : LdecPhase} {s t : State} (hp : s.phase.command = .ldec)
    (h : ldecPhase p s = .next t) : TurnsTo s t := by
  cases p
  · exact checkPhase_turnsTo (p := .ldec .first) hp.symm h
  · exact ldecFirst_turnsTo hp h
  · exact ldecLoop_turnsTo hp h
  · exact ldecFinish_turnsTo h

/-! ## Turns and runs of turns -/

theorem coreTurn_idle {s : State} (hb : s.busy = false) : coreTurn s = .next s := by
  simp [coreTurn, hb]

/-- A turn of the core while a command is BUSY: it runs on, or it has ended. -/
theorem coreTurn_turnsTo {s t : State} (hb : s.busy = true) (h : coreTurn s = .next t) : TurnsTo s t := by
  unfold coreTurn at h
  rw [if_pos hb] at h
  split at h
  · next p hp => exact hencPhase_turnsTo (by rw [hp]; rfl) h
  · next p hp => exact hdecPhase_turnsTo (by rw [hp]; rfl) h
  · next p hp => exact lencPhase_turnsTo (by rw [hp]; rfl) h
  · next p hp => exact ldecPhase_turnsTo (by rw [hp]; rfl) h

theorem RunsOn.refl (s : State) : RunsOn s s := ⟨rfl, rfl, fun _ _ => rfl, id⟩

theorem RunsOn.trans {s t u : State} (h : RunsOn s t) (h' : RunsOn t u) : RunsOn s u where
  eq := by rw [h'.eq, h.eq]
  command := h'.command.trans h.command
  same a ha := by
    have e : t.latched = s.latched := by rw [h.eq]
    exact (h'.same a (by rw [h.command, e]; exact ha)).trans (h.same a ha)
  wf hw := by
    have e : t.params = s.params := by rw [h.eq]
    have := h'.wf (by rw [e]; exact h.wf hw)
    rwa [e] at this

theorem Ended.busy {s t : State} (h : Ended s t) : t.busy = false := by simp [State.busy, h.idle]

/-- Turns one after another come to what one turn comes to. -/
theorem runTurns_turnsTo {turn : State → Out}
    (ht : ∀ s t, s.busy = true → turn s = .next t → TurnsTo s t) :
    ∀ (n : Nat) (s t : State), runTurns turn n s = .next t → TurnsTo s t
  | 0, s, t, h => by cases h; exact .inl (RunsOn.refl s)
  | n + 1, s, t, h => by
    unfold runTurns at h
    split at h
    · next hb =>
      split at h
      · next u hu =>
        rcases ht s u hb hu with hr | he
        · rcases runTurns_turnsTo ht n u t h with hr' | he'
          · exact .inl (hr.trans hr')
          · exact .inr (hr.trans_ended he')
        · have : t = u := by
            cases n with
            | zero => cases h; rfl
            | succ n => simp [runTurns, he.busy] at h; exact h.symm
          exact .inr (this ▸ he)
      · cases h
      · cases h
    · cases h; exact .inl (RunsOn.refl s)

/-- The core's run, when no event waits. -/
theorem coreRun_turnsTo {s t : State} (h : coreRun s = .next t) : TurnsTo s t :=
  runTurns_turnsTo (fun _ _ => coreTurn_turnsTo) _ s t h

theorem coreRun_idle {s : State} (hb : s.busy = false) : coreRun s = .next s := by
  simp [coreRun, maxPhases, runTurns, hb]

/-- A command word written while BUSY, to any command. -/
theorem launch_busy {p : Phase} {turn : State → Out} {s : State} (h : s.busy = true) :
    launch p turn s = .next (rejectCommand s) := by
  simp [launch, h]

/-- A command started while an event waits. -/
theorem launch_waiting {p : Phase} {turn : State → Out} {s : State} (h : s.busy = false) (he : s.events ≠ []) :
    launch p turn s = .next (startCommand p s) := by
  simp [launch, h, he]

/-- A command started while no event waits runs on. -/
theorem launch_ready {p : Phase} {turn : State → Out} {s : State} (h : s.ready) :
    launch p turn s = runTurns turn maxPhases (startCommand p s) := by
  simp [launch, State.busy, h.1, h.2]

end Sys2Proof.Machine
end

