-- ==== Sys2Proof/Laws/Steps.lean ====
section
/-! SUPPORT. What exec and a step can do, and what the register map answers. -/

namespace Sys2Proof.Machine

/-! ## exec -/

/-- A command word written while BUSY. -/
theorem exec_busy {i : Instr} {s : State} (h : s.busy = true) : exec i s = .next (rejectCommand s) := by
  cases i <;> exact launch_busy h

/-- The phase a command starts at. -/
def firstPhase : Instr → Phase
  | .henc => .henc .check
  | .hdec => .hdec .check
  | .lenc => .lenc .check
  | .ldec => .ldec .check

@[simp] theorem firstPhase_command (i : Instr) : (firstPhase i).command = i := by cases i <;> rfl

/-- A command started while an event waits. -/
theorem exec_waiting {i : Instr} {s : State} (h : s.busy = false) (he : s.events ≠ []) :
    exec i s = .next (startCommand (firstPhase i) s) := by
  cases i <;> exact launch_waiting h he

/-- The turn of a command, while that command runs, is the core's turn. -/
theorem hencTurn_eq {s : State} (hb : s.busy = true) (hp : s.phase.command = .henc) : hencTurn s = coreTurn s := by
  cases h : s.phase <;> simp_all [Phase.command, hencTurn, coreTurn]

theorem hdecTurn_eq {s : State} (hb : s.busy = true) (hp : s.phase.command = .hdec) : hdecTurn s = coreTurn s := by
  cases h : s.phase <;> simp_all [Phase.command, hdecTurn, coreTurn]

theorem lencTurn_eq {s : State} (hb : s.busy = true) (hp : s.phase.command = .lenc) : lencTurn s = coreTurn s := by
  cases h : s.phase <;> simp_all [Phase.command, lencTurn, coreTurn]

theorem ldecTurn_eq {s : State} (hb : s.busy = true) (hp : s.phase.command = .ldec) : ldecTurn s = coreTurn s := by
  cases h : s.phase <;> simp_all [Phase.command, ldecTurn, coreTurn]

/-- A turn that agrees with the core's turn while command `i` runs, runs `i` as the core does. -/
theorem runTurns_eq_core {turn : State → Out} {i : Instr}
    (ht : ∀ s, s.busy = true → s.phase.command = i → turn s = coreTurn s) :
    ∀ (n : Nat) (s : State), s.phase.command = i → runTurns turn n s = runTurns coreTurn n s
  | 0, _, _ => rfl
  | n + 1, s, hi => by
    unfold runTurns
    split
    · next hb =>
      rw [ht s hb hi]
      split
      · next t h =>
        rcases coreTurn_turnsTo hb h with hr | he
        · exact runTurns_eq_core ht n t (hr.command.trans hi)
        · exact runTurns_eq_core ht n t (he.latched.2.2.trans hi)
      · rfl
      · rfl
    · rfl

/-- A command started while no event waits runs on as the core runs it. -/
theorem exec_ready {i : Instr} {s : State} (h : s.ready) :
    exec i s = coreRun (startCommand (firstPhase i) s) := by
  cases i
  · exact (launch_ready h).trans (runTurns_eq_core (fun _ => hencTurn_eq) _ _ rfl)
  · exact (launch_ready h).trans (runTurns_eq_core (fun _ => hdecTurn_eq) _ _ rfl)
  · exact (launch_ready h).trans (runTurns_eq_core (fun _ => lencTurn_eq) _ _ rfl)
  · exact (launch_ready h).trans (runTurns_eq_core (fun _ => ldecTurn_eq) _ _ rfl)

/-- All that exec can do: drop the word, start and wait, or start and run. -/
theorem exec_cases {i : Instr} {s t : State} (h : exec i s = .next t) :
    (s.busy = true ∧ t = rejectCommand s) ∨
    (s.busy = false ∧ s.events ≠ [] ∧ t = startCommand (firstPhase i) s) ∨
    (s.ready ∧ TurnsTo (startCommand (firstPhase i) s) t) := by
  cases hb : s.busy
  · refine .inr ?_
    by_cases he : s.events = []
    · have hr : s.ready := ⟨by cases hs : s.seqState <;> simp_all [State.busy], he⟩
      rw [exec_ready hr] at h
      exact .inr ⟨hr, coreRun_turnsTo h⟩
    · rw [exec_waiting hb he] at h
      cases h
      exact .inl ⟨rfl, he, rfl⟩
  · rw [exec_busy hb] at h
    cases h
    exact .inl ⟨rfl, rfl⟩

/-! ## The register map -/

/-- regAt inverts the offsets of R23's map. -/
@[simp] theorem regAt_offset (r : Reg) : regAt r.offset = some r := by cases r <;> decide

theorem offset_aligned (r : Reg) : r.offset % 4 = 0 ∧ r.offset < windowSize := by cases r <;> decide

/-- What a 32-bit write at a register's offset is. -/
theorem windowWrite_offset (r : Reg) : windowWrite r.offset 4 = if r = .cmd then .command else .register r := by
  cases r <;> decide

/-- A 32-bit read at a register's offset reads that register. -/
theorem readWindow_offset (r : Reg) (s : State) : readWindow r.offset 4 s = readReg r s := by
  simp [readWindow, (offset_aligned r).1]

/-- Every register read changes the model's own fields only. -/
theorem readReg_frame (r : Reg) (s : State) :
    { readReg r s with hostData := s.hostData, draws := s.draws } = s := by
  cases r <;> simp only [readReg, readResult, readStatus, answer, answerFree] <;> try rfl
  all_goals split <;> rfl

theorem readWindow_frame (off width : Nat) (s : State) :
    { readWindow off width s with hostData := s.hostData, draws := s.draws } = s := by
  unfold readWindow
  split
  · split
    · exact readReg_frame _ s
    · rfl
  · rfl

/-! ## Steps -/

theorem step_nil {s : State} (h : s.events = []) : step s = coreRun s := by
  unfold step; rw [h]

theorem step_cons {s : State} {e : Event} {rest : List Event} (h : s.events = e :: rest) :
    step s = serve e { s with events := rest } := by
  unfold step; rw [h]

/-- The host access that is not a command request answers as it is served. -/
theorem serve_outcome {a : Access} {s : State} {o : Out} (h : serveAccess a s = .outcome o) :
    serve (.access a) s = o := by
  simp [serve, h, finishServed]

/-- A 32-bit write to CMD is a command request. -/
theorem serveAccess_cmd (w : Word) (s : State) : serveAccess (.regWrite Reg.cmd.offset 4 w) s = .command w s := by
  rfl

/-- A command request runs the decoded command. -/
theorem serve_cmdWrite {w : Word} {i : Instr} {s : State} (h : decode w = .ok i) : serve (cmdWrite w) s = exec i s := by
  simp [serve, cmdWrite, serveAccess_cmd, finishServed, h]

theorem serve_cmdWrite_illegal {w : Word} {r : DecodeReject} {s : State} (h : decode w = .error r) :
    serve (cmdWrite w) s = .next (illegalWord s) := by
  simp [serve, cmdWrite, serveAccess_cmd, finishServed, h]

end Sys2Proof.Machine
end

