-- ==== Sys2Proof/Tests/Slice0.lean ====
section
/-! SUPPORT. Tests on fixed values, with expected results taken from the spec (41 R177, 42 R218, 43 R251, 44 R285,
95_test_vectors.md), and for each statement a concrete state that meets its hypotheses. -/

namespace Sys2Proof.Tests

open Sys2Proof.Machine

set_option maxRecDepth 100000

/-! ## Building states and looking at outcomes -/

/-- Bytes by their values. -/
def bytes (l : List Nat) : List Byte := l.map (BitVec.ofNat 8)

/-- An instance with 4 KiB of BUF and LZW_DICT_CAP = 256 + `spare`. -/
def demoParams (spare : Fin 4294967040) : Params :=
  { memLast := 0xFFF, dictSpare := spare, csrPage := 16, bufHostBase := 0x100000 }

/-- The largest LZW_DICT_CAP. -/
def big : Fin 4294967040 := 4294967039

/-- After reset, with `src` at 0x400 as SRC, `aux` at 0x10, and DST at 0x800. -/
def demo (src aux : List Byte) (dstLen auxLen exp : Nat) (chk : Bool) (spare : Fin 4294967040) : State :=
  { State.reset with
    params := demoParams spare
    lenchk := chk
    operands :=
      { srcAddr := 0x400, srcLen := BitVec.ofNat 32 src.length, dstAddr := 0x800, dstLen := BitVec.ofNat 32 dstLen,
        auxAddr := 0x10, auxLen := BitVec.ofNat 32 auxLen, expLen := BitVec.ofNat 32 exp }
    mem := (Memory.setBytes [] 0x10 aux).setBytes 0x400 src }

/-- The state with the given events to come. -/
def withEvents (s : State) (es : List Event) : State := { s with events := es }

/-- The outcome is a next state with the property. -/
def nextHas (o : Out) (p : State → Bool) : Bool :=
  match o with
  | .next t => p t
  | .fault _ => false
  | .refused _ => false

theorem exists_of_nextHas {o : Out} {p : State → Bool} (h : nextHas o p = true) : ∃ t, o = .next t ∧ p t = true := by
  cases o with
  | next t => exact ⟨t, rfl, h⟩
  | fault f => simp [nextHas] at h
  | refused r => simp [nextHas] at h

theorem passes {s : State} {i : Instr} (h : checkRegions s.params.memSize i s.operands = none) :
    s.regionsPass i := h

/-- The message "AB". -/
def ab : List Byte := bytes [0x41, 0x42]

/-- The tree of "AB": A on the left. -/
def abTree : HTree := .node (.leaf 0x41) (.leaf 0x42)

/-- A LENC of "AB" that has just started and waits for its first phase. -/
def busyLenc : State := startCommand (.lenc .check) (demo ab [] 16 0 0 false big)

/-! ## Decoding -/

theorem test_decode_henc : decode 0b00000000000000000000000000000001#32 = .ok .henc := by rfl
theorem test_decode_hdec : decode 0b00000000000000000000000000000010#32 = .ok .hdec := by rfl
theorem test_decode_lenc : decode 0b00000000000000000000000000000011#32 = .ok .lenc := by rfl
theorem test_decode_ldec : decode 0b00000000000000000000000000000100#32 = .ok .ldec := by rfl
/-- 95 LC2, LC3. -/
theorem test_decode_zero : decode 0 = .error (.illegalOpcode 0) := by rfl
theorem test_decode_five : decode 5 = .error (.illegalOpcode 5) := by rfl
theorem test_decode_mbz : decode 0x11 = .error (.nonzeroMbz 1) := by rfl
theorem test_decode_top_bit : decode 0x80000001 = .error (.nonzeroMbz 0x8000000) := by rfl
theorem test_table_words : (decodeTableWord 32 1, decodeTableWord 32 4, decodeTableWord 32 5) =
    (some .henc, some .ldec, none) := by decide

/-! ## Well-formedness: an ill-formed term for each check -/

theorem smoke_mbz_refused : commandWordWf 0x00000011 = false := by decide
theorem smoke_opcode_low_refused : commandWordWf 0x00000000 = false := by decide
theorem smoke_opcode_high_refused : commandWordWf 0x00000005 = false := by decide
theorem smoke_opcode_field_refused : opcodeWf 0 = false ∧ opcodeWf 5 = false ∧ opcodeWf 15 = false := by decide
theorem smoke_instructions_accepted : ∀ i ∈ [Instr.henc, .hdec, .lenc, .ldec], i.wf = true := by decide

/-! ## Reset and the first command after it -/

/-- From reset all regions are empty: HENC reports EMPTY_INPUT (R162), HDEC DESC_EMPTY (R201). -/
theorem test_reset_henc : nextHas (step (State.reset.withFetchWord 32 1)) (fun t => t.err == 0x101) = true := by
  decide
theorem test_reset_hdec : nextHas (step (State.reset.withFetchWord 32 2)) (fun t => t.err == 0x102) = true := by
  decide
/-- 95 LC17: LENC and LDEC accept empty input. -/
theorem test_reset_lenc : nextHas (step (State.reset.withFetchWord 32 3))
    (fun t => t.done && !t.error && t.dictSize == 256) = true := by decide
theorem test_reset_ldec : nextHas (step (State.reset.withFetchWord 32 4))
    (fun t => t.done && !t.error && t.dictSize == 256) = true := by decide
/-- 95 LC2: STATUS = 0x46 and ERR = 0x106 after an illegal word. -/
theorem test_illegal_status : nextHas (step (State.reset.withFetchWord 32 5))
    (fun t => statusWord t t.progress.val == 0x46 && t.err == 0x106) = true := by decide

/-! ## Commands, one step each -/

/-- 41 R177: "AB". -/
theorem test_henc_ab : nextHas (exec .henc (demo ab [] 16 16 0 false big)) (fun t =>
    t.regionBytes ⟨0x800, 2⟩ == bytes [0x06, 0x40] && t.regionBytes ⟨0x10, 4⟩ == bytes [0x01, 0x50, 0x68, 0x40] &&
      t.info == 0x00010002 && t.resLen == 2 && t.resAuxLen == 4) = true := by decide
/-- 41 R177: 00 00 01, where the smaller symbol is not the first extracted. -/
theorem test_henc_tie : nextHas (exec .henc (demo (bytes [0, 0, 1]) [] 16 16 0 false big)) (fun t =>
    t.regionBytes ⟨0x800, 2⟩ == bytes [0x05, 0xC0] &&
      t.regionBytes ⟨0x10, 4⟩ == bytes [0x01, 0x40, 0x60, 0x00]) = true := by decide
/-- 42 R218: the AB pair. -/
theorem test_hdec_ab : nextHas (exec .hdec (demo (bytes [0x06, 0x40]) (bytes [0x01, 0x50, 0x68, 0x40]) 16 4 0 false big))
    (fun t => t.regionBytes ⟨0x800, 2⟩ == ab && t.resLen == 2 && t.resAuxLen == 4 && t.info == 0x00010002) = true := by
  decide
/-- 42 R218: A twice in the descriptor. -/
theorem test_hdec_dup : nextHas (exec .hdec (demo (bytes [0x06, 0x40]) (bytes [0x01, 0x50, 0x68, 0x20]) 16 4 0 false big))
    (fun t => t.err == 0x402 && t.errOffset == 3) = true := by decide
/-- 43 R251: "ABABABAB". -/
theorem test_lenc_abab : nextHas (exec .lenc
      (demo (bytes [0x41, 0x42, 0x41, 0x42, 0x41, 0x42, 0x41, 0x42]) [] 32 0 0 false big))
    (fun t => codesOfBytes (t.regionBytes ⟨0x800, 20⟩) == [65, 66, 256, 258, 66] && t.resLen == 20 &&
      t.dictSize == 260) = true := by decide
/-- 43 R251: "AB" with LZW_DICT_CAP = 256. -/
theorem test_lenc_cap : nextHas (exec .lenc (demo ab [] 32 0 0 false 0))
    (fun t => t.err == 0x104 && t.errOffset == 1) = true := by decide
/-- 44 R285: the stream of "ABABABAB", with a KwKwK code. -/
theorem test_ldec_abab : nextHas (exec .ldec (demo (streamBytes [65, 66, 256, 258, 66]) [] 16 0 8 true big))
    (fun t => t.regionBytes ⟨0x800, 8⟩ == bytes [0x41, 0x42, 0x41, 0x42, 0x41, 0x42, 0x41, 0x42] &&
      t.resLen == 8 && t.dictSize == 260) = true := by decide
/-- 44 R285: 257 > NEXT = 256. -/
theorem test_ldec_undefined : nextHas (exec .ldec (demo (streamBytes [65, 257]) [] 16 0 0 false big))
    (fun t => t.err == 0x303 && t.errOffset == 4) = true := by decide

/-- HENC of two bytes A at its PACK, where the host has written SRC since the code table was made, and A's code of 16
bits no longer fits the DST of one byte. -/
def touchedHenc : State :=
  let s := startCommand (.henc .pack) (demo (bytes [0x41, 0x41]) [] 1 3 0 false big)
  { s with
    inTouched := true
    store := { s.store with code := s.store.code.set 0x41 (some (List.replicate 16 true)) } }

/-- R350: the command still completes. -/
theorem test_henc_touched_completes : nextHas (coreTurn touchedHenc)
    (fun t => t.seqState == .idle && t.done && t.mem.get? 0x801 == none && t.progress == 4) = true := by
  decide
/-- R61: 258 is stored as 02 01 00 00. -/
theorem test_code_word_bytes : streamBytes [258] = bytes [0x02, 0x01, 0x00, 0x00] := by decide
/-- R122: `wait` is a label, a read of STATUS and a branch back. -/
theorem test_expand_wait : expandLine 3 .wait =
    [.label (.fresh 3), .rd .status "t", .bne "t" 0x2 0x2 (.fresh 3)] := by decide

/-! ## Witnesses: command words and steps -/

theorem wit_DecodeEncode : Instr.wf .ldec = true := by decide

theorem wit_StepRunsDecodedCommand_access :
    decode 3 = .ok .lenc ∧ (withEvents busyLenc [cmdWrite 3, .core]).events = cmdWrite 3 :: [.core] := ⟨rfl, rfl⟩

theorem wit_StepRunsDecodedCommand_bus :
    let s := withEvents (demo ab [] 16 0 0 false big) [.bus ⟨0x100C, 4, some 3⟩]
    decode 3 = .ok .lenc ∧ s.events = .bus ⟨s.params.csrBase + 0x0C, 4, some 3⟩ :: [] ∧
      ¬ (s.params.bufHostBase ≤ s.params.csrBase + 0x0C ∧
          s.params.csrBase + 0x0C < s.params.bufHostBase + s.params.memSize) := ⟨rfl, rfl, by decide⟩

theorem wit_IllegalCommandCompletesAtOnce :
    let s := withEvents (demo ab [] 16 0 0 false big) [cmdWrite 5, .core]
    s.seqState = .idle ∧ s.events = cmdWrite 5 :: [.core] ∧ (5 : Word) ≠ 1 ∧ (5 : Word) ≠ 2 ∧ (5 : Word) ≠ 3 ∧
      (5 : Word) ≠ 4 := ⟨rfl, rfl, by decide, by decide, by decide, by decide⟩

theorem wit_BusyCommandWriteDropped :
    (withEvents busyLenc [cmdWrite 1]).seqState = .busy ∧ (withEvents busyLenc [cmdWrite 1]).events = cmdWrite 1 :: [] :=
  ⟨rfl, rfl⟩

/-! ## Witnesses: the lifecycle -/

theorem wit_StartLatchesOperands :
    (withEvents (demo ab [] 16 0 0 true big) [.core]).seqState = .idle ∧
      (withEvents (demo ab [] 16 0 0 true big) [.core]).events ≠ [] := ⟨rfl, by decide⟩

/-- The demo instance with operand registers for regions of BUF (4096 bytes). -/
def withRegions (src dst aux : Word × Word) : State :=
  { demo [] [] 0 0 0 false big with
    operands := { srcAddr := src.1, srcLen := src.2, dstAddr := dst.1, dstLen := dst.2, auxAddr := aux.1, auxLen := aux.2,
                  expLen := 0 } }

theorem wit_BadRegionReported_src : (withRegions (0xFFF, 2) (0, 1) (0, 0)).ready ∧
    (withRegions (0xFFF, 2) (0, 1) (0, 0)).params.memSize <
      (withRegions (0xFFF, 2) (0, 1) (0, 0)).operands.src.base + (withRegions (0xFFF, 2) (0, 1) (0, 0)).operands.src.len :=
  ⟨⟨rfl, rfl⟩, by decide⟩

theorem wit_BadRegionReported_dst :
    let s := withRegions (0xFFF, 1) (0x1001, 0) (0, 0)
    s.ready ∧ ¬ s.params.memSize < s.operands.src.base + s.operands.src.len ∧
      s.params.memSize < s.operands.dst.base + s.operands.dst.len := ⟨⟨rfl, rfl⟩, by decide, by decide⟩

theorem wit_BadRegionReported_aux :
    let s := withRegions (0, 4) (0x100, 4) (0x1000, 1)
    s.ready ∧ ¬ s.params.memSize < s.operands.src.base + s.operands.src.len ∧
      ¬ s.params.memSize < s.operands.dst.base + s.operands.dst.len ∧
      s.params.memSize < s.operands.aux.base + s.operands.aux.len := ⟨⟨rfl, rfl⟩, by decide, by decide, by decide⟩

theorem wit_BadRegionReported_overlap :
    let s := withRegions (0, 8) (7, 8) (0x1000, 0)
    s.ready ∧ ¬ s.params.memSize < s.operands.src.base + s.operands.src.len ∧
      ¬ s.params.memSize < s.operands.dst.base + s.operands.dst.len ∧
      ¬ s.params.memSize < s.operands.aux.base + s.operands.aux.len ∧
      s.operands.src.base < s.operands.dst.base + s.operands.dst.len ∧
      s.operands.dst.base < s.operands.src.base + s.operands.src.len ∧ 0 < s.operands.src.len ∧
      0 < s.operands.dst.len :=
  ⟨⟨rfl, rfl⟩, by decide, by decide, by decide, by decide, by decide, by decide, by decide⟩

theorem wit_BadRegionReported_pass : (withRegions (0, 8) (8, 8) (0x1000, 0)).ready ∧
    (withRegions (0, 8) (8, 8) (0x1000, 0)).regionsPass .henc ∧
    (withRegions (0, 8) (8, 8) (0x1000, 0)).regionsPass .ldec := ⟨⟨rfl, rfl⟩, passes (by decide), passes (by decide)⟩

theorem wit_EveryCommandCompletes_written : (demo ab [] 16 0 0 false big).ready := ⟨rfl, rfl⟩

theorem wit_EveryCommandCompletes_running : touchedHenc.seqState = .busy ∧ touchedHenc.events = [] := ⟨rfl, rfl⟩

theorem wit_CommandWritesOnlyOutputs : (demo ab [] 16 0 0 false big).seqState = .idle ∧
    ∃ t, exec .lenc (demo ab [] 16 0 0 false big) = .next t ∧ (!t.error) = true :=
  ⟨rfl, exists_of_nextHas (by decide)⟩

theorem wit_ResultsWithinBounds : (demo ab [] 8 0 0 false big).ready ∧
    ∃ t, exec .lenc (demo ab [] 8 0 0 false big) = .next t ∧ (t.resLen == 8) = true :=
  ⟨⟨rfl, rfl⟩, exists_of_nextHas (by decide)⟩

theorem wit_CompletionRaisesIrq : (demo ab [] 8 0 0 false big).ready ∧
    ∃ t, exec .ldec (demo ab [] 8 0 0 false big) = .next t ∧ t.done = true :=
  ⟨⟨rfl, rfl⟩, exists_of_nextHas (by decide)⟩

/-- As the demo, but with other bytes outside SRC and another IRQ_EN. -/
def otherDemo : State := { demo ab (bytes [7, 7, 7]) 16 0 0 false big with irqEn := true }

theorem wit_CommandDependsOnInputsOnly : (demo ab [] 16 0 0 false big).ready ∧ otherDemo.ready ∧
    (demo ab [] 16 0 0 false big).params = otherDemo.params ∧
    (demo ab [] 16 0 0 false big).operands = otherDemo.operands ∧
    (demo ab [] 16 0 0 false big).lenchk = otherDemo.lenchk ∧
    (∀ r ∈ inputRegions .lenc (demo ab [] 16 0 0 false big).operands,
      (demo ab [] 16 0 0 false big).regionBytes r = otherDemo.regionBytes r) ∧
    (∃ t, exec .lenc (demo ab [] 16 0 0 false big) = .next t ∧ (!t.error) = true) ∧
    ∃ t, exec .lenc otherDemo = .next t ∧ (!t.error) = true :=
  ⟨⟨rfl, rfl⟩, ⟨rfl, rfl⟩, rfl, rfl, rfl, by decide, exists_of_nextHas (by decide), exists_of_nextHas (by decide)⟩

theorem wit_LateRunEqualsRunAtOnce : (demo ab [] 16 0 0 false big).ready ∧
    exec .lenc { demo ab [] 16 0 0 false big with events := .core :: [] } =
      .next (startCommand (.lenc .check) { demo ab [] 16 0 0 false big with events := .core :: [] }) :=
  ⟨⟨rfl, rfl⟩, rfl⟩

theorem wit_HostWriteCommutesWithCore_register : busyLenc.seqState = .busy ∧ Reg.srcLen ≠ .cmd ∧ Reg.srcLen ≠ .status ∧
    ∃ t, coreTurn busyLenc = .next t ∧ (t.phase == .lenc .scan) = true :=
  ⟨rfl, by decide, by decide, exists_of_nextHas (by decide)⟩

/-- SRC is 0x400 and 0x401, so that 0x402 is the first byte after it. -/
theorem wit_HostWriteCommutesWithCore_outside : busyLenc.seqState = .busy ∧ busyLenc.inInput 0x402 = false ∧
    busyLenc.inOutput 0x402 = false ∧ (∃ t, coreTurn busyLenc = .next t ∧ (t.phase == .lenc .scan) = true) ∧
    ∃ t, coreRun busyLenc = .next t ∧ (t.dictSize == 257) = true :=
  ⟨rfl, by decide, by decide, exists_of_nextHas (by decide), exists_of_nextHas (by decide)⟩

/-- DST is 0x800 to 0x80F. -/
theorem wit_HostWriteCommutesWithCore_output : busyLenc.seqState = .busy ∧ busyLenc.inInput 0x80F = false ∧
    busyLenc.inOutput 0x80F = true ∧ (∃ t, coreTurn busyLenc = .next t ∧ (t.phase == .lenc .scan) = true) ∧
    ∃ t, coreRun busyLenc = .next t ∧ (t.seqState == .idle) = true :=
  ⟨rfl, by decide, by decide, exists_of_nextHas (by decide), exists_of_nextHas (by decide)⟩

theorem wit_HostAccessKeepsRunningCommand :
    let s := withEvents busyLenc [.access (.bufWrite 0x401 1 7)]
    s.seqState = .busy ∧ s.events = .access (.bufWrite 0x401 1 7) :: [] ∧
      Event.access (.bufWrite 0x401 1 7) ≠ .core ∧ Event.access (.bufWrite 0x401 1 7) ≠ .reset ∧
      ∃ t, step s = .next t ∧ t.inTouched = true :=
  ⟨rfl, rfl, by decide, by decide, exists_of_nextHas (by decide)⟩

/-- LENC about to complete, after the host wrote a byte of its SRC. -/
def touchedLenc : State := { busyLenc with phase := .lenc .flush, inTouched := true }

theorem wit_CoreTurnConfined_ends : touchedLenc.seqState = .busy ∧
    ∃ t, coreTurn touchedLenc = .next t ∧ (t.seqState == .idle) = true := ⟨rfl, exists_of_nextHas (by decide)⟩

theorem wit_CoreTurnConfined_runs_on : { busyLenc with phase := .lenc .scan }.seqState = .busy ∧
    ∃ t, coreTurn { busyLenc with phase := .lenc .scan } = .next t ∧ (t.seqState == .busy) = true :=
  ⟨rfl, exists_of_nextHas (by decide)⟩

/-! ## Witnesses: HENC -/

theorem wit_BuildMakesTree_input : ab ≠ [] ∧ (0x42 : Byte) ∈ ab ∧
    (hencTree ab).node[2]? = some (.internal 2 0 1) := by decide

theorem wit_BuildMakesTree_extract : extractMin [.leaf 2 0x41, .leaf 1 0x42, .leaf 1 0x43] [0, 1, 2] =
    some (1, [0, 2]) := by decide

theorem wit_HencCodesPrefixFree : 2 ≤ distinctCount ab ∧ (0x41 : Byte) ∈ ab ∧ (0x42 : Byte) ∈ ab ∧
    (0x41 : Byte) ≠ 0x42 := by decide

theorem wit_DescriptorLength : bytes [0x41] ≠ [] := by decide

theorem wit_HencCompletes :
    let s := demo ab [] 2 4 0 false big
    s.ready ∧ s.regionsPass .henc ∧ 0 < s.operands.src.len ∧
      hencPayLen (s.regionBytes s.operands.src) ≤ s.operands.dst.len ∧
      descriptorLen (distinctCount (s.regionBytes s.operands.src)) ≤ s.operands.aux.len :=
  ⟨⟨rfl, rfl⟩, passes (by decide), by decide, by decide, by decide⟩

theorem wit_HencEmptyInput : (demo [] [] 0 0 0 false big).ready ∧ (demo [] [] 0 0 0 false big).regionsPass .henc ∧
    (demo [] [] 0 0 0 false big).operands.src.len = 0 := ⟨⟨rfl, rfl⟩, passes (by decide), rfl⟩

theorem wit_HencOutputOverflow_dst :
    let s := demo ab [] 1 3 0 false big
    s.ready ∧ s.regionsPass .henc ∧ 0 < s.operands.src.len ∧
      s.operands.dst.len < hencPayLen (s.regionBytes s.operands.src) :=
  ⟨⟨rfl, rfl⟩, passes (by decide), by decide, by decide⟩

theorem wit_HencOutputOverflow_aux :
    let s := demo ab [] 2 3 0 false big
    s.ready ∧ s.regionsPass .henc ∧ 0 < s.operands.src.len ∧
      hencPayLen (s.regionBytes s.operands.src) ≤ s.operands.dst.len ∧
      s.operands.aux.len < descriptorLen (distinctCount (s.regionBytes s.operands.src)) :=
  ⟨⟨rfl, rfl⟩, passes (by decide), by decide, by decide, by decide⟩

theorem wit_HencErrorKeepsBuf : (demo ab [] 2 3 0 false big).ready ∧
    ∃ t, exec .henc (demo ab [] 2 3 0 false big) = .next t ∧ t.error = true :=
  ⟨⟨rfl, rfl⟩, exists_of_nextHas (by decide)⟩

/-! ## Witnesses: HDEC -/

theorem wit_ParseInvertsSerialize : abTree.syms.Nodup := by decide

theorem wit_DescriptorDamageFound_cut : abTree.syms.Nodup ∧ 1 ≤ 1 ∧ 1 < abTree.descriptor.length ∧
    1 ≤ 3 ∧ 3 < abTree.descriptor.length := by decide

/-- Nodes are unfinished where every beginning of them is, and the beginnings are finitely many. -/
theorem unfinished_of_inits {ts : List (Option Byte)}
    (h : ∀ p ∈ ts.inits, (leafSyms p).length ≤ p.count none) : Unfinished ts :=
  fun p hp => h p ((List.mem_inits p ts).2 hp)

/-- An internal node and the first seven bits of a leaf, which end inside its symbol; and at the boundary, an empty area. -/
theorem wit_DescriptorDamageFound_short :
    let part := [true, false, true, false, false, false, false]
    Unfinished [none] ∧ (leafSyms [none]).Nodup ∧ [(none : Option Byte)].count none ≤ 255 ∧ part.head? = some true ∧
      part.length < 9 ∧ unpackBits [0x50] = tokenBits [none] ++ part ∧
      Unfinished [] ∧ unpackBits [] = tokenBits [] ++ [] :=
  ⟨unfinished_of_inits (by decide), by decide, by decide, by decide, by decide, by decide,
    unfinished_of_inits (by decide), by decide⟩

theorem wit_DescriptorDamageFound_more : abTree.syms.Nodup ∧ bytes [0] ≠ [] := by decide

theorem wit_DescriptorDamageFound_pad : abTree.syms.Nodup ∧
    [false, false, false, false, true].length = padLen abTree.bits.length ∧
    true ∈ [false, false, false, false, true] := by decide

/-- 42 R218: 01 50 68 20, with further bytes after it. -/
theorem wit_DescriptorDamageFound_dup :
    let ts : List (Option Byte) := [none, some 0x41]
    Unfinished ts ∧ (leafSyms ts).Nodup ∧ ts.count none ≤ 255 ∧ 0x41 ∈ leafSyms ts ∧
      tokenBits (ts ++ [some 0x41]) <+: unpackBits (bytes [0x50, 0x68, 0x20, 0xFF]) :=
  ⟨unfinished_of_inits (by decide), by decide, by decide, by decide, by decide⟩

theorem leafSyms_replicate (n : Nat) : leafSyms (List.replicate n none) = [] := by simp [leafSyms]

theorem unfinished_replicate (n : Nat) : Unfinished (List.replicate n none) := fun p hp => by
  rw [(List.prefix_replicate_iff.1 hp).2, leafSyms_replicate]
  exact Nat.zero_le _

/-- 42 R218: 01, then 32 bytes 00. -/
theorem wit_DescriptorDamageFound_internal :
    let ts : List (Option Byte) := List.replicate 255 none
    Unfinished ts ∧ (leafSyms ts).Nodup ∧ ts.count none ≤ 255 ∧ ts.count none = 255 ∧
      tokenBits (ts ++ [none]) <+: unpackBits (List.replicate 32 0) :=
  ⟨unfinished_replicate 255, by rw [leafSyms_replicate]; decide, by rw [List.count_replicate_self],
    List.count_replicate_self, by decide⟩

theorem wit_DescriptorDamageFound_exec :
    let s := demo (bytes [0x06, 0x40]) (bytes [0x01, 0x50, 0x68, 0x20]) 16 4 0 false big
    s.ready ∧ s.regionsPass .hdec ∧ parseDescriptor (s.regionBytes s.operands.aux) = .error ⟨.descDupSymbol, 3⟩ :=
  ⟨⟨rfl, rfl⟩, passes (by decide), by rfl⟩

theorem wit_HdecDescriptorStart_empty : (demo ab [] 4 0 0 false big).ready ∧
    (demo ab [] 4 0 0 false big).regionsPass .hdec ∧ (demo ab [] 4 0 0 false big).operands.aux.len = 0 :=
  ⟨⟨rfl, rfl⟩, passes (by decide), rfl⟩

theorem wit_HdecDescriptorStart_version :
    let s := demo ab (bytes [2, 0x50]) 4 2 0 false big
    s.ready ∧ s.regionsPass .hdec ∧ 0 < s.operands.aux.len ∧ s.byteAt s.operands.aux.base ≠ 0x01 :=
  ⟨⟨rfl, rfl⟩, passes (by decide), by decide, by decide⟩

/-- HDEC with the descriptor of `abTree` and the given payload. -/
def hdecDemo (payload : List Byte) (dstLen exp : Nat) (chk : Bool) : State :=
  demo payload abTree.descriptor dstLen abTree.descriptor.length exp chk big

theorem wit_HdecPayloadHeader_empty :
    let s := hdecDemo [] 4 0 false
    s.ready ∧ s.regionsPass .hdec ∧ abTree.syms.Nodup ∧ s.regionBytes s.operands.aux = abTree.descriptor ∧
      s.operands.src.len = 0 := ⟨⟨rfl, rfl⟩, passes (by decide), by decide, by decide, by decide⟩

theorem wit_HdecPayloadHeader_header :
    let s := hdecDemo (bytes [8]) 4 0 false
    s.ready ∧ s.regionsPass .hdec ∧ abTree.syms.Nodup ∧ s.regionBytes s.operands.aux = abTree.descriptor ∧
      0 < s.operands.src.len ∧ 7 < (s.byteAt s.operands.src.base).toNat :=
  ⟨⟨rfl, rfl⟩, passes (by decide), by decide, by decide, by decide, by decide⟩

theorem wit_HdecPayloadHeader_short :
    let s := hdecDemo (bytes [1]) 4 0 false
    s.ready ∧ s.regionsPass .hdec ∧ abTree.syms.Nodup ∧ s.regionBytes s.operands.aux = abTree.descriptor ∧
      0 < s.operands.src.len ∧ (s.byteAt s.operands.src.base).toNat ≤ 7 ∧
      8 * (s.operands.src.len - 1) < (s.byteAt s.operands.src.base).toNat :=
  ⟨⟨rfl, rfl⟩, passes (by decide), by decide, by decide, by decide, by decide, by decide⟩

theorem wit_HdecPayloadHeader_pad :
    let s := hdecDemo (bytes [7, 0x40]) 4 0 false
    s.ready ∧ s.regionsPass .hdec ∧ abTree.syms.Nodup ∧ s.regionBytes s.operands.aux = abTree.descriptor ∧
      0 < s.operands.src.len ∧ 0 < (s.byteAt s.operands.src.base).toNat ∧
      (s.byteAt s.operands.src.base).toNat ≤ 7 ∧
      (s.byteAt s.operands.src.base).toNat ≤ 8 * (s.operands.src.len - 1) ∧
      (s.byteAt (s.operands.src.base + s.operands.src.len - 1)).toNat %
        2 ^ (s.byteAt s.operands.src.base).toNat ≠ 0 :=
  ⟨⟨rfl, rfl⟩, passes (by decide), by decide, by decide, by decide, by decide, by decide, by decide, by decide⟩

theorem wit_HdecDecodesMessage :
    let s := hdecDemo (abTree.payload ab) 2 2 true
    s.ready ∧ s.regionsPass .hdec ∧ abTree.syms.Nodup ∧ (∀ b ∈ ab, b ∈ abTree.syms) ∧
      s.regionBytes s.operands.aux = abTree.descriptor ∧ s.regionBytes s.operands.src = abTree.payload ab ∧
      ab.length ≤ s.operands.dst.len ∧ (s.lenchk = true → s.operands.expLen.toNat = ab.length) :=
  ⟨⟨rfl, rfl⟩, passes (by decide), by decide, by decide, by decide, by decide, by decide, fun _ => by decide⟩

/-- HDEC with the descriptor of the single leaf A and the given payload. -/
def leafDemo (payload : List Byte) (dstLen exp : Nat) : State :=
  demo payload (HTree.leaf 0x41).descriptor dstLen 3 exp true big

theorem wit_HdecSingleLeafCount_fits :
    let s := leafDemo (bytes [0]) 3 3
    s.ready ∧ s.regionsPass .hdec ∧ s.regionBytes s.operands.aux = (HTree.leaf 0x41).descriptor ∧
      s.regionBytes s.operands.src = [0x00] ∧ s.operands.expLen.toNat ≤ s.operands.dst.len :=
  ⟨⟨rfl, rfl⟩, passes (by decide), by decide, by decide, by decide⟩

theorem wit_HdecSingleLeafCount_overflow :
    let s := leafDemo (bytes [0]) 2 3
    s.ready ∧ s.regionsPass .hdec ∧ s.regionBytes s.operands.aux = (HTree.leaf 0x41).descriptor ∧
      s.regionBytes s.operands.src = [0x00] ∧ s.operands.dst.len < s.operands.expLen.toNat :=
  ⟨⟨rfl, rfl⟩, passes (by decide), by decide, by decide, by decide⟩

theorem wit_HdecSingleLeafCount_bits :
    let s := leafDemo (bytes [7, 0]) 3 3
    s.ready ∧ s.regionsPass .hdec ∧ s.regionBytes s.operands.aux = (HTree.leaf 0x41).descriptor ∧
      0 < s.operands.src.len ∧ (s.byteAt s.operands.src.base).toNat ≤ 7 ∧
      (s.byteAt s.operands.src.base).toNat < 8 * (s.operands.src.len - 1) ∧
      ((s.byteAt s.operands.src.base).toNat = 0 ∨ (s.byteAt (s.operands.src.base + s.operands.src.len - 1)).toNat %
        2 ^ (s.byteAt s.operands.src.base).toNat = 0) :=
  ⟨⟨rfl, rfl⟩, passes (by decide), by decide, by decide, by decide, by decide, by decide⟩

theorem wit_HdecWalkErrors_dst :
    let s := hdecDemo (abTree.payload ab) 1 0 false
    s.ready ∧ s.regionsPass .hdec ∧ abTree.syms.Nodup ∧ (∀ b ∈ ab, b ∈ abTree.syms) ∧
      s.regionBytes s.operands.aux = abTree.descriptor ∧ s.regionBytes s.operands.src = abTree.payload ab ∧
      s.operands.dst.len < ab.length :=
  ⟨⟨rfl, rfl⟩, passes (by decide), by decide, by decide, by decide, by decide, by decide⟩

theorem wit_HdecWalkErrors_length :
    let s := hdecDemo (abTree.payload ab) 2 1 true
    s.ready ∧ s.regionsPass .hdec ∧ abTree.syms.Nodup ∧ (∀ b ∈ ab, b ∈ abTree.syms) ∧
      s.regionBytes s.operands.aux = abTree.descriptor ∧ s.regionBytes s.operands.src = abTree.payload ab ∧
      ab.length ≤ s.operands.dst.len ∧ s.lenchk = true ∧ s.operands.expLen.toNat ≠ ab.length :=
  ⟨⟨rfl, rfl⟩, passes (by decide), by decide, by decide, by decide, by decide, by decide, rfl, by decide⟩

/-- The tree with A = 0, B = 10 and C = 11. -/
def abcTree : HTree := .node (.leaf 0x41) (.node (.leaf 0x42) (.leaf 0x43))

theorem wit_HdecWalkErrors_incomplete :
    let s := demo (bitsPayload (abcTree.encode ab ++ [true])) abcTree.descriptor 2 abcTree.descriptor.length 0 true big
    s.ready ∧ s.regionsPass .hdec ∧ abcTree.syms.Nodup ∧ (∀ b ∈ ab, b ∈ abcTree.syms) ∧
      s.regionBytes s.operands.aux = abcTree.descriptor ∧ 0x42 ∈ abcTree.syms ∧ [true] <+: abcTree.codeOf 0x42 ∧
      [true] ≠ [] ∧ [true] ≠ abcTree.codeOf 0x42 ∧
      s.regionBytes s.operands.src = bitsPayload (abcTree.encode ab ++ [true]) ∧ ab.length ≤ s.operands.dst.len :=
  ⟨⟨rfl, rfl⟩, passes (by decide), by decide, by decide, by decide, by decide, by decide, by decide, by decide,
    by decide, by decide⟩

theorem wit_HuffmanRoundTrip :
    let s := demo ab [] 2 4 0 false big
    let u := demo (bytes [0x06, 0x40]) (bytes [0x01, 0x50, 0x68, 0x40]) 2 4 2 true big
    s.ready ∧ u.ready ∧ u.regionsPass .hdec ∧ u.operands.expLen = s.operands.srcLen ∧
      s.operands.src.len ≤ u.operands.dst.len ∧
      ∃ t, exec .henc s = .next t ∧
        (!t.error && u.operands.src.len == t.resLen.toNat && u.operands.aux.len == t.resAuxLen.toNat &&
          u.regionBytes u.operands.src == t.regionBytes ⟨s.operands.dst.base, t.resLen.toNat⟩ &&
          u.regionBytes u.operands.aux == t.regionBytes ⟨s.operands.aux.base, t.resAuxLen.toNat⟩) = true :=
  ⟨⟨rfl, rfl⟩, ⟨rfl, rfl⟩, passes (by decide), by decide, by decide, exists_of_nextHas (by decide)⟩

/-! ## Witnesses: LENC and LDEC -/

theorem wit_LencCompletes :
    let s := demo ab [] 8 0 0 false 1
    let k := (lzwCodes (s.regionBytes s.operands.src)).length
    s.ready ∧ s.regionsPass .lenc ∧ 4 * k ≤ s.operands.dst.len ∧ lzwDictSize k ≤ s.params.dictCap :=
  ⟨⟨rfl, rfl⟩, passes (by decide), by decide, by decide⟩

theorem wit_LencLimits_dst :
    let s := demo ab [] 3 0 0 false 0
    let k := (lzwCodes (s.regionBytes s.operands.src)).length
    s.ready ∧ s.regionsPass .lenc ∧ s.operands.dst.len / 4 < k ∧ s.operands.dst.len / 4 ≤ s.params.dictCap - 256 :=
  ⟨⟨rfl, rfl⟩, passes (by decide), by decide, by decide⟩

theorem wit_LencLimits_dict :
    let s := demo ab [] 4 0 0 false 0
    let k := (lzwCodes (s.regionBytes s.operands.src)).length
    s.ready ∧ s.regionsPass .lenc ∧ s.params.dictCap - 256 + 1 < k ∧
      s.params.dictCap - 256 < s.operands.dst.len / 4 := ⟨⟨rfl, rfl⟩, passes (by decide), by decide, by decide⟩

theorem wit_LencEmptyInput : (demo [] [] 0 0 0 false 0).ready ∧ (demo [] [] 0 0 0 false 0).regionsPass .lenc ∧
    (demo [] [] 0 0 0 false 0).operands.src.len = 0 := ⟨⟨rfl, rfl⟩, passes (by decide), rfl⟩

theorem wit_LzwCodeBounds : (lzwCodes (bytes [0x41, 0x41, 0x41]))[1]? = some 256 ∧
    (lzwCodes (bytes [0x41, 0x41, 0x41]))[0]? = some 0x41 ∧ bytes [0x41, 0x41, 0x41] ≠ [] := by decide

theorem wit_LdecFirstErrors_partial : (demo (bytes [1, 2, 3, 4, 5]) [] 4 0 0 false big).ready ∧
    (demo (bytes [1, 2, 3, 4, 5]) [] 4 0 0 false big).regionsPass .ldec ∧
    (demo (bytes [1, 2, 3, 4, 5]) [] 4 0 0 false big).operands.src.len % 4 ≠ 0 :=
  ⟨⟨rfl, rfl⟩, passes (by decide), by decide⟩

theorem wit_LdecFirstErrors_code :
    let s := demo (streamBytes [256]) [] 4 0 0 false big
    s.ready ∧ s.regionsPass .ldec ∧ s.operands.src.len % 4 = 0 ∧
      codesOfBytes (s.regionBytes s.operands.src) = 256 :: [] ∧ 256 ≤ 256 :=
  ⟨⟨rfl, rfl⟩, passes (by decide), by decide, by decide, by decide⟩

theorem wit_LdecEmptyStream_success :
    let s := demo [] [] 0 0 0 true 0
    s.ready ∧ s.regionsPass .ldec ∧ s.operands.src.len = 0 ∧ (s.lenchk = false ∨ s.operands.expLen = 0) :=
  ⟨⟨rfl, rfl⟩, passes (by decide), rfl, by decide⟩

theorem wit_LdecEmptyStream_mismatch :
    let s := demo [] [] 0 0 1 true 0
    s.ready ∧ s.regionsPass .ldec ∧ s.operands.src.len = 0 ∧ s.lenchk = true ∧ s.operands.expLen ≠ 0 :=
  ⟨⟨rfl, rfl⟩, passes (by decide), rfl, rfl, by decide⟩

/-- 95 L2.4: the stream 0 0 0, which LENC never makes, with the cap at its DICT_SIZE. -/
theorem wit_LdecDecodesStream :
    let s := demo (streamBytes [0, 0, 0]) [] 3 0 3 true 2
    let y := bytes [0, 0, 0]
    s.ready ∧ s.regionsPass .ldec ∧ s.regionBytes s.operands.src = streamBytes [0, 0, 0] ∧
      lzwDecode [0, 0, 0] = some y ∧ y.length ≤ s.operands.dst.len ∧ lzwDictSize 3 = s.params.dictCap ∧
      (s.lenchk = true → s.operands.expLen.toNat = y.length) ∧ lzwCodes y = [0, 256] :=
  ⟨⟨rfl, rfl⟩, passes (by decide), by decide, by decide, by decide, by decide, fun _ => by decide, by decide⟩

/-- The boundary of the codes of a good stream. -/
theorem wit_LdecDecodesStream_bound : (lzwDecode [255, 256, 257]).isSome = true ∧
    lzwDecode [255, 256, 258] = none ∧ lzwDecode [256] = none := by decide

theorem wit_LdecUndefinedCode :
    let s := demo (streamBytes [65, 257, 5]) [] 1 0 0 false 0
    s.ready ∧ s.regionsPass .ldec ∧ [65] ≠ [] ∧ lzwDecode [65] = some [0x41] ∧ (∀ d ∈ [257, 5], d < 2 ^ 32) ∧
      s.regionBytes s.operands.src = streamBytes ([65] ++ 257 :: [5]) ∧ lzwDictSize 1 < 257 ∧
      lzwDictSize 1 ≤ s.params.dictCap ∧ 1 ≤ s.operands.dst.len :=
  ⟨⟨rfl, rfl⟩, passes (by decide), by decide, by decide, by decide, by decide, by decide, by decide, by decide⟩

theorem wit_LzwRoundTrip :
    let s := demo (streamBytes [65, 256]) [] 3 0 3 true 1
    let x := bytes [0x41, 0x41, 0x41]
    s.ready ∧ s.regionsPass .ldec ∧ s.regionBytes s.operands.src = streamBytes (lzwCodes x) ∧
      x.length ≤ s.operands.dst.len ∧ lzwDictSize (lzwCodes x).length ≤ s.params.dictCap ∧
      (s.lenchk = true → s.operands.expLen.toNat = x.length) :=
  ⟨⟨rfl, rfl⟩, passes (by decide), by decide, by decide, by decide, fun _ => by decide⟩

theorem wit_LdecLimits_dst :
    let s := demo (streamBytes [65, 256, 9]) [] 2 0 0 false 0
    let y := bytes [0x41, 0x41, 0x41]
    s.ready ∧ s.regionsPass .ldec ∧ lzwDecode [65, 256] = some y ∧ (∀ d ∈ [9], d < 2 ^ 32) ∧
      s.regionBytes s.operands.src = streamBytes ([65, 256] ++ [9]) ∧
      s.operands.dst.len < y.length ∧ lzwDictSize (2 - 1) ≤ s.params.dictCap :=
  ⟨⟨rfl, rfl⟩, passes (by decide), by decide, by decide, by decide, by decide, by decide⟩

theorem wit_LdecLimits_dict :
    let s := demo (streamBytes [65, 256, 9]) [] 3 0 0 false 0
    let y := bytes [0x41, 0x41, 0x41]
    s.ready ∧ s.regionsPass .ldec ∧ lzwDecode [65, 256] = some y ∧ (∀ d ∈ [9], d < 2 ^ 32) ∧
      s.regionBytes s.operands.src = streamBytes ([65, 256] ++ [9]) ∧
      y.length ≤ s.operands.dst.len ∧ lzwDictSize 2 = s.params.dictCap + 1 :=
  ⟨⟨rfl, rfl⟩, passes (by decide), by decide, by decide, by decide, by decide, by decide⟩

theorem wit_LdecLimits_length :
    let s := demo (streamBytes [65, 256]) [] 3 0 2 true 1
    let y := bytes [0x41, 0x41, 0x41]
    s.ready ∧ s.regionsPass .ldec ∧ lzwDecode [65, 256] = some y ∧
      s.regionBytes s.operands.src = streamBytes ([65, 256] ++ []) ∧
      y.length ≤ s.operands.dst.len ∧ lzwDictSize 2 ≤ s.params.dictCap ∧ s.lenchk = true ∧
      s.operands.expLen.toNat ≠ y.length :=
  ⟨⟨rfl, rfl⟩, passes (by decide), by decide, by decide, by decide, by decide, rfl, by decide⟩

/-! ## Witnesses: bits and bytes -/

theorem wit_BitPackingInverse : [false, true, false, false, false, false, false, false].length % 8 = 0 ∧
    (bytes [0x40])[7 / 8]? = some 0x40 := by decide

theorem wit_CodeStreamInverse : [65, 258][1]? = some 258 ∧ 3 < 4 ∧
    (∀ c ∈ [0, 2 ^ 32 - 1], c < 2 ^ 32) ∧ (bytes [1, 2, 3, 4]).length % 4 = 0 := by decide

/-! ## Witnesses: registers, BUF and reset -/

theorem wit_ResetAbandonsCommand_busy : (withEvents busyLenc [.reset]).events = .reset :: [] ∧
    (withEvents busyLenc [.reset]).seqState = .busy := ⟨rfl, rfl⟩

theorem wit_ResetAbandonsCommand_idle : (withEvents (demo ab [] 16 0 0 true big) [.reset, .core]).events =
      .reset :: [.core] ∧
    (withEvents (demo ab [] 16 0 0 true big) [.reset, .core]).seqState = .idle := ⟨rfl, rfl⟩

theorem wit_OperandRegistersReadBack :
    let s := withEvents busyLenc [.access (.regWrite 0x28 4 0xFFFFFFFF), .access (.regRead 0x28 4)]
    (0x28, { s.operands with expLen := 0xFFFFFFFF }) ∈
      [(0x10, { s.operands with srcAddr := 0xFFFFFFFF }), (0x14, { s.operands with srcLen := 0xFFFFFFFF }),
        (0x18, { s.operands with dstAddr := 0xFFFFFFFF }), (0x1C, { s.operands with dstLen := 0xFFFFFFFF }),
        (0x20, { s.operands with auxAddr := 0xFFFFFFFF }), (0x24, { s.operands with auxLen := 0xFFFFFFFF }),
        (0x28, { s.operands with expLen := 0xFFFFFFFF })] ∧
      s.events = .access (.regWrite 0x28 4 0xFFFFFFFF) :: .access (.regRead 0x28 4) :: [] := ⟨by decide, rfl⟩

theorem wit_ReadOnlyAndReserved_write : (0x50 ≤ 0xFC ∧ 0xFC < 0x100 ∧ 0xFC % 4 = 0) ∧
    (withEvents busyLenc [.access (.regWrite 0xFC 4 1)]).events = .access (.regWrite 0xFC 4 1) :: [] := ⟨by decide, rfl⟩

theorem wit_ReadOnlyAndReserved_read_constant :
    (0x0C, (0 : Word)) ∈ [(0x00, 0x484C5A01), (0x0C, 0), (0x2C, 0),
      (0x48, BitVec.ofNat 32 (busyLenc.params.memSize - 1)), (0x4C, BitVec.ofNat 32 busyLenc.params.dictCap)] ∧
    (withEvents busyLenc [.access (.regRead 0x0C 4)]).events = .access (.regRead 0x0C 4) :: [] := ⟨by decide, rfl⟩

theorem wit_ReadOnlyAndReserved_read_reserved : (0x50 ≤ 0xFC ∧ 0xFC < 0x100 ∧ 0xFC % 4 = 0 ∧ (0 : Word) = 0) ∧
    (withEvents busyLenc [.access (.regRead 0xFC 4)]).events = .access (.regRead 0xFC 4) :: [] := ⟨by decide, rfl⟩

theorem wit_ReadOnlyAndReserved_read_result :
    let idle := withEvents (demo ab [] 1 0 0 false big) [.access (.regRead 0x44 4)]
    let busy := withEvents busyLenc [.access (.regRead 0x30 4)]
    (0x44, idle.errOffset) ∈ [(0x30, idle.resLen), (0x34, idle.resAuxLen), (0x38, idle.info), (0x3C, idle.dictSize),
        (0x40, idle.err), (0x44, idle.errOffset)] ∧
      idle.seqState = .idle ∧ idle.events = .access (.regRead 0x44 4) :: [] ∧
      (0x30, busy.resLen) ∈ [(0x30, busy.resLen), (0x34, busy.resAuxLen), (0x38, busy.info), (0x3C, busy.dictSize),
        (0x40, busy.err), (0x44, busy.errOffset)] ∧
      busy.seqState = .busy ∧ busy.events = .access (.regRead 0x30 4) :: [] :=
  ⟨by decide, rfl, rfl, by decide, rfl, rfl⟩

theorem wit_StatusWriteOneToClear :
    (withEvents busyLenc [.access (.regWrite 0x08 4 0xE)]).events = .access (.regWrite 0x08 4 0xE) :: [] := rfl

theorem wit_CtrlWriteReadsBack :
    (withEvents busyLenc [.access (.regWrite 0x04 4 0xFFFFFFFF), .access (.regRead 0x04 4)]).events =
      .access (.regWrite 0x04 4 0xFFFFFFFF) :: .access (.regRead 0x04 4) :: [] := rfl

theorem wit_RegisterReadsHaveNoSideEffect :
    (withEvents busyLenc [.access (.regRead 0xFC 4)]).events = .access (.regRead 0xFC 4) :: [] ∧
      ∃ t, step (withEvents busyLenc [.access (.regRead 0xFC 4)]) = .next t ∧ (t.hostData == 0) = true :=
  ⟨rfl, exists_of_nextHas (by decide)⟩

theorem wit_UnalignedAccessHasNoEffect_write : 0x06 < 0x100 ∧ ¬ (4 = 4 ∧ 0x06 % 4 = 0) ∧
    (withEvents busyLenc [.access (.regWrite 0x06 4 9)]).events = .access (.regWrite 0x06 4 9) :: [] :=
  ⟨by decide, by decide, rfl⟩

theorem wit_UnalignedAccessHasNoEffect_read : 0xFF < 0x100 ∧ ¬ (1 = 4 ∧ 0xFF % 4 = 0) ∧
    (withEvents busyLenc [.access (.regRead 0xFF 1)]).events = .access (.regRead 0xFF 1) :: [] :=
  ⟨by decide, by decide, rfl⟩

theorem wit_StatusReads_busy : (withEvents busyLenc [.access (.regRead 0x08 4)]).events =
      .access (.regRead 0x08 4) :: [] ∧
    (withEvents busyLenc [.access (.regRead 0x08 4)]).seqState = .busy := ⟨rfl, rfl⟩

theorem wit_StatusReads_idle : (withEvents (demo ab [] 1 0 0 false big) [.access (.regRead 0x08 4)]).events =
      .access (.regRead 0x08 4) :: [] ∧
    (withEvents (demo ab [] 1 0 0 false big) [.access (.regRead 0x08 4)]).seqState = .idle := ⟨rfl, rfl⟩

theorem wit_HostBufAccess_write : 0xFFF < busyLenc.params.memSize ∧
    (withEvents busyLenc [.access (.bufWrite 0xFFF 1 5)]).events = .access (.bufWrite 0xFFF 1 5) :: [] :=
  ⟨by decide, rfl⟩

theorem wit_HostBufAccess_read :
    let s := withEvents busyLenc [.access (.bufRead 0x7FF 1)]
    0x7FF < s.params.memSize ∧ s.events = .access (.bufRead 0x7FF 1) :: [] ∧ (s.busy && s.inOutput 0x7FF) = false :=
  ⟨by decide, rfl, by decide⟩

theorem wit_HostBufAccess_read_output :
    let s := withEvents busyLenc [.access (.bufRead 0x800 1)]
    0x800 < s.params.memSize ∧ s.events = .access (.bufRead 0x800 1) :: [] ∧ (s.busy && s.inOutput 0x800) = true :=
  ⟨by decide, rfl, by decide⟩

theorem wit_HostBufAccess_wide : 0 < busyLenc.params.memSize ∧ 4 ≠ 1 ∧
    (withEvents busyLenc [.access (.bufRead 0 4)]).events = .access (.bufRead 0 4) :: [] ∧
    (withEvents busyLenc [.access (.bufWrite 0 4 7)]).events = .access (.bufWrite 0 4 7) :: [] :=
  ⟨by decide, by decide, rfl, rfl⟩

/-! ## Witnesses: the whole machine -/

theorem wit_StepKeepsInv : Inv busyLenc ∧ ∃ t, step busyLenc = .next t ∧ (t.dictSize == 257) = true :=
  ⟨{ memOk := by decide, errOk := by decide, infoOk := by decide, progressOk := by decide,
     busyFlags := fun _ => ⟨rfl, rfl, rfl⟩, dictOk := by decide, checked := fun _ => by decide,
     marksOk := fun h => by cases h }, exists_of_nextHas (by decide)⟩

theorem wit_BusyOnlyByCommand : (withEvents (demo ab [] 16 0 0 false big) [cmdWrite 3, .core]).seqState = .idle ∧
    ∃ t, step (withEvents (demo ab [] 16 0 0 false big) [cmdWrite 3, .core]) = .next t ∧ (t.seqState == .busy) = true :=
  ⟨rfl, exists_of_nextHas (by decide)⟩

theorem wit_BusyEndsOnlyByCompletionOrReset_core : (withEvents touchedLenc [.core]).seqState = .busy ∧
    ∃ t, step (withEvents touchedLenc [.core]) = .next t ∧ (t.seqState == .idle) = true :=
  ⟨rfl, exists_of_nextHas (by decide)⟩

theorem wit_BusyEndsOnlyByCompletionOrReset_reset : (withEvents busyLenc [.reset]).seqState = .busy ∧
    ∃ t, step (withEvents busyLenc [.reset]) = .next t ∧ (t.seqState == .idle) = true :=
  ⟨rfl, exists_of_nextHas (by decide)⟩

theorem wit_RejectedOnlyWhileBusy : (withEvents busyLenc [cmdWrite 0]).cmdRejected = false ∧
    ∃ t, step (withEvents busyLenc [cmdWrite 0]) = .next t ∧ t.cmdRejected = true :=
  ⟨rfl, exists_of_nextHas (by decide)⟩

theorem wit_ScriptGoAndWait_go :
    let s := demo ab [] 16 0 0 false big
    let prog : List Action := [.wr .cmd (encode .lenc), .halt]
    let h : ScriptHost := { line := 0, vars := [], halted := false }
    s.ready ∧ prog[h.line]? = some (.wr .cmd (encode .lenc)) ∧
      ¬ (s.params.bufHostBase ≤ s.params.csrBase + 0x0C ∧
          s.params.csrBase + 0x0C < s.params.bufHostBase + s.params.memSize) ∧
      ∃ t, exec .lenc s = .next t ∧ (t.resLen == 8) = true :=
  ⟨⟨rfl, rfl⟩, rfl, by decide, exists_of_nextHas (by decide)⟩

theorem wit_ScriptGoAndWait_wait :
    let prog : List Action := [.wr .cmd 3, .label (.fresh 7), .rd .status "t", .bne "t" 2 2 (.fresh 7), .halt]
    let h : ScriptHost := { line := 1, vars := [], halted := false }
    let gaps : Nat → List Event := fun _ => [.core]
    busyLenc.seqState = .busy ∧ busyLenc.done = false ∧ h.halted = false ∧
      (prog.drop h.line).take 3 = expandLine 7 .wait ∧ prog.idxOf (.label (.fresh 7)) = h.line ∧
      ¬ (busyLenc.params.bufHostBase ≤ busyLenc.params.csrBase + 0x08 ∧
          busyLenc.params.csrBase + 0x08 < busyLenc.params.bufHostBase + busyLenc.params.memSize) ∧
      FairGaps gaps ∧ ∀ n, ∀ e ∈ gaps n, e = .core :=
  ⟨rfl, rfl, rfl, by decide, by decide, by decide, fun n => ⟨n, le_refl n, by simp⟩, fun _ _ he => by simpa using he⟩

end Sys2Proof.Tests
end

section
/-! Turns of the core come nearer to the completion, and what serving one event can do. -/

namespace Sys2Proof.Machine

/-! ## Every turn comes nearer to the completion -/

/-- What a turn leaves of the sequencer: the command has ended, or it has fewer turns left than `n`. -/
def NearsEnd (n : Nat) (t : State) : Prop := t.seqState = .idle ∨ t.phase.turnsLeft < n

theorem raiseError_nearsEnd {w : WriteClass} {e : Raise} {s t : State} (n : Nat) (h : raiseError w e s = .next t) :
    NearsEnd n t := by
  obtain ⟨u, hu, he⟩ := raiseError_ended w e s
  cases hu.symm.trans h
  exact .inl he.idle

theorem complete_nearsEnd {r : Results} {s t : State} (n : Nat) (h : complete r s = .next t) : NearsEnd n t := by
  unfold complete at h
  split at h
  · cases h; exact .inl rfl
  · split at h <;> cases h <;> exact .inl rfl

theorem checkPhase_nearsEnd {i : Instr} {p : Phase} {s t : State} {n : Nat} (hp : p.turnsLeft < n)
    (h : checkPhase i p s = .next t) : NearsEnd n t := by
  unfold checkPhase at h
  split at h
  · exact raiseError_nearsEnd n h
  · cases h; exact .inr hp

theorem hencCount_nearsEnd {s t : State} (h : hencCount s = .next t) : NearsEnd 6 t := by
  unfold hencCount at h
  split at h
  · exact raiseError_nearsEnd 6 h
  · cases h; exact .inr (Nat.lt_succ_self 5)

theorem hencSize_nearsEnd {s t : State} (h : hencSize s = .next t) : NearsEnd 3 t := by
  simp only [hencSize] at h
  split at h
  · exact raiseError_nearsEnd 3 h
  · split at h
    · exact raiseError_nearsEnd 3 h
    · cases h; exact .inr (Nat.lt_succ_self 2)

theorem hencPhase_nearsEnd {p : HencPhase} {s t : State} (h : hencPhase p s = .next t) :
    NearsEnd (Phase.henc p).turnsLeft t := by
  cases p with
  | check => exact checkPhase_nearsEnd (p := .henc .count) (Nat.lt_succ_self 6) h
  | count => exact hencCount_nearsEnd h
  | build => cases h; exact .inr (Nat.lt_succ_self 4)
  | codegen => cases h; exact .inr (Nat.lt_succ_self 3)
  | size => exact hencSize_nearsEnd h
  | serialize => cases h; exact .inr (Nat.lt_succ_self 1)
  | pack => exact complete_nearsEnd _ h

theorem hdecParse_nearsEnd {s t : State} (h : hdecParse s = .next t) : NearsEnd 4 t := by
  unfold hdecParse at h
  split at h
  · exact raiseError_nearsEnd 4 h
  · cases h; exact .inr (Nat.lt_succ_self 3)

theorem hdecHeader_nearsEnd {s t : State} (h : hdecHeader s = .next t) : NearsEnd 3 t := by
  unfold hdecHeader at h
  split at h
  · exact raiseError_nearsEnd 3 h
  · cases h; exact .inr (Nat.lt_succ_self 2)

theorem hdecSingleLeaf_nearsEnd {b : Byte} {s t : State} (h : hdecSingleLeaf b s = .next t) : NearsEnd 2 t := by
  unfold hdecSingleLeaf at h
  split at h
  · exact raiseError_nearsEnd 2 h
  · split at h
    · exact raiseError_nearsEnd 2 h
    · cases h; exact .inr (Nat.lt_succ_self 1)

theorem hdecWalkTree_nearsEnd {s t : State} (h : hdecWalkTree s = .next t) : NearsEnd 2 t := by
  unfold hdecWalkTree at h
  split at h
  · exact raiseError_nearsEnd 2 h
  · cases h; exact .inr (Nat.lt_succ_self 1)

theorem hdecWalk_nearsEnd {s t : State} (h : hdecWalk s = .next t) : NearsEnd 2 t := by
  unfold hdecWalk at h
  split at h
  · exact hdecSingleLeaf_nearsEnd h
  · exact hdecWalkTree_nearsEnd h

theorem hdecFinish_nearsEnd {s t : State} (h : hdecFinish s = .next t) : NearsEnd 1 t := by
  unfold hdecFinish at h
  split at h
  · exact complete_nearsEnd 1 h
  · split at h
    · exact raiseError_nearsEnd 1 h
    · split at h
      · exact raiseError_nearsEnd 1 h
      · exact complete_nearsEnd 1 h

theorem hdecPhase_nearsEnd {p : HdecPhase} {s t : State} (h : hdecPhase p s = .next t) :
    NearsEnd (Phase.hdec p).turnsLeft t := by
  cases p with
  | check => exact checkPhase_nearsEnd (p := .hdec .parse) (Nat.lt_succ_self 4) h
  | parse => exact hdecParse_nearsEnd h
  | header => exact hdecHeader_nearsEnd h
  | walk => exact hdecWalk_nearsEnd h
  | finish => exact hdecFinish_nearsEnd h

theorem lencScan_nearsEnd {s t : State} (h : lencScan s = .next t) : NearsEnd 2 t := by
  unfold lencScan at h
  split at h
  · exact raiseError_nearsEnd 2 h
  · cases h; exact .inr (Nat.lt_succ_self 1)

theorem lencFlush_nearsEnd {s t : State} (h : lencFlush s = .next t) : NearsEnd 1 t := by
  unfold lencFlush at h
  split at h
  · exact complete_nearsEnd 1 h
  · split at h
    · exact raiseError_nearsEnd 1 h
    · exact complete_nearsEnd 1 h

theorem lencPhase_nearsEnd {p : LencPhase} {s t : State} (h : lencPhase p s = .next t) :
    NearsEnd (Phase.lenc p).turnsLeft t := by
  cases p with
  | check => exact checkPhase_nearsEnd (p := .lenc .scan) (Nat.lt_succ_self 2) h
  | scan => exact lencScan_nearsEnd h
  | flush => exact lencFlush_nearsEnd h

theorem ldecFirst_nearsEnd {s t : State} (h : ldecFirst s = .next t) : NearsEnd 3 t := by
  unfold ldecFirst at h
  split at h
  · exact raiseError_nearsEnd 3 h
  · split at h
    · cases h; exact .inr (show 1 < 3 by decide)
    · split at h
      · exact raiseError_nearsEnd 3 h
      · split at h
        · exact raiseError_nearsEnd 3 h
        · cases h; exact .inr (Nat.lt_succ_self 2)

theorem ldecLoop_nearsEnd {s t : State} (h : ldecLoop s = .next t) : NearsEnd 2 t := by
  unfold ldecLoop at h
  split at h
  · exact raiseError_nearsEnd 2 h
  · cases h; exact .inr (Nat.lt_succ_self 1)

theorem ldecFinish_nearsEnd {s t : State} (h : ldecFinish s = .next t) : NearsEnd 1 t := by
  unfold ldecFinish at h
  split at h
  · exact raiseError_nearsEnd 1 h
  · exact complete_nearsEnd 1 h

theorem ldecPhase_nearsEnd {p : LdecPhase} {s t : State} (h : ldecPhase p s = .next t) :
    NearsEnd (Phase.ldec p).turnsLeft t := by
  cases p with
  | check => exact checkPhase_nearsEnd (p := .ldec .first) (Nat.lt_succ_self 3) h
  | first => exact ldecFirst_nearsEnd h
  | loop => exact ldecLoop_nearsEnd h
  | finish => exact ldecFinish_nearsEnd h

/-- A turn of the core on a BUSY command ends it or moves it to a phase with fewer turns left. -/
theorem coreTurn_nearsEnd {s t : State} (hb : s.busy = true) (h : coreTurn s = .next t) :
    NearsEnd s.phase.turnsLeft t := by
  unfold coreTurn at h
  rw [if_pos hb] at h
  split at h
  · next p hp => rw [hp]; exact hencPhase_nearsEnd h
  · next p hp => rw [hp]; exact hdecPhase_nearsEnd h
  · next p hp => rw [hp]; exact lencPhase_nearsEnd h
  · next p hp => rw [hp]; exact ldecPhase_nearsEnd h

theorem RunsOn.busy {s t : State} (h : RunsOn s t) : t.busy = s.busy := by rw [h.eq]; rfl

theorem RunsOn.seqState {s t : State} (h : RunsOn s t) : t.seqState = s.seqState := by rw [h.eq]

theorem busy_iff {s : State} : s.busy = true ↔ s.seqState = .busy := by simp [State.busy]

theorem busy_eq_false_iff {s : State} : s.busy = false ↔ s.seqState = .idle := by
  cases h : s.seqState <;> simp [State.busy, h]

/-- A BUSY command has a turn left in every phase. -/
theorem turnsLeft_pos (p : Phase) : 0 < p.turnsLeft := by
  rcases p with p | p | p | p <;> cases p <;> decide

theorem turnsLeft_le_maxPhases (p : Phase) : p.turnsLeft ≤ maxPhases := by
  rcases p with p | p | p | p <;> cases p <;> decide

/-- As many turns of the core as a BUSY command has left at most end it. -/
theorem runTurns_ended : ∀ (n : Nat) {s t : State}, s.busy = true → s.phase.turnsLeft ≤ n →
    runTurns coreTurn n s = .next t → Ended s t
  | 0, s, _, _, hn, _ => absurd (turnsLeft_pos s.phase) (by omega)
  | n + 1, s, t, hb, hn, h => by
    rw [runTurns, if_pos hb] at h
    split at h
    · next u hu =>
      rcases coreTurn_turnsTo hb hu with hr | he
      · have hub : u.busy = true := hr.busy.trans hb
        have hlt : u.phase.turnsLeft < s.phase.turnsLeft :=
          (coreTurn_nearsEnd hb hu).resolve_left (by simp [busy_iff.mp hub])
        exact hr.trans_ended (runTurns_ended n hub (by omega) h)
      · have htu : runTurns coreTurn n u = .next u := by cases n <;> simp [runTurns, he.busy]
        cases htu.symm.trans h
        exact he
    · cases h
    · cases h

/-- With no event waiting, the core's run ends a BUSY command. -/
theorem coreRun_ended {s t : State} (hb : s.busy = true) (h : coreRun s = .next t) : Ended s t :=
  runTurns_ended maxPhases hb (turnsLeft_le_maxPhases _) h

/-- A command started while no event waits has ended when exec answers. -/
theorem exec_ready_ended {i : Instr} {s t : State} (h : s.ready) (he : exec i s = .next t) :
    Ended (startCommand (firstPhase i) s) t :=
  coreRun_ended rfl ((exec_ready h).symm.trans he)

/-- Settles O11: exec from a ready state ends the command, which sets DONE and keeps CTRL. -/
theorem completionRaisesIrq : Obligations.CompletionRaisesIrq := by
  intro i s t hs h
  have he := exec_ready_ended hs h
  obtain ⟨-, hirq, -⟩ := he.host
  simp [State.irq, he.done, hirq]

/-! ## What serving one event can do -/

/-- The event delivers the word `w` to CMD: a 32-bit write there, decoded or through the bus (R77, R90). -/
def DeliversWord (p : Params) (e : Event) (w : Word) : Prop :=
  e = cmdWrite w ∨ ∃ tr, e = .bus tr ∧ route p tr = .ok (.regWrite 0x0C 4 w)

/-- What a host access other than a command word keeps of the sequencer; it may clear CMD_REJECTED, but not set it. -/
structure HostKeeps (s t : State) : Prop where
  seqState : t.seqState = s.seqState
  rejected : t.cmdRejected = true → s.cmdRejected = true

theorem HostKeeps.refl (s : State) : HostKeeps s s := ⟨rfl, id⟩

theorem writeReg_hostKeeps (r : Reg) (v : Word) (s : State) : HostKeeps s (writeReg r v s) := by
  cases r with
  | status => exact ⟨rfl, fun h => (Bool.and_eq_true_iff.mp h).1⟩
  | _ => exact ⟨rfl, id⟩

/-- A read, which changes the model's own fields only. -/
theorem hostKeeps_of_frame {s t : State} (h : { t with hostData := s.hostData, draws := s.draws } = s) :
    HostKeeps s t := by
  have hseq := congrArg State.seqState h
  have hrej := congrArg State.cmdRejected h
  exact ⟨hseq, fun ht => hrej.symm.trans ht⟩

/-- A read of BUF changes the model's own fields only. -/
theorem readBuf_frame (a : Nat) (s : State) :
    { readBuf a s with hostData := s.hostData, draws := s.draws } = s := by
  unfold readBuf
  split <;> rfl

/-- The register map answers a register at its own offset alone. -/
theorem offset_of_regAt {off : Nat} {r : Reg} (h : regAt off = some r) : r.offset = off :=
  beq_iff_eq.mp (List.find?_some (p := fun q : Reg => q.offset == off) h)

/-- A window write is a command request exactly at CMD, 32 bits wide. -/
theorem windowWrite_command {off width : Nat} (h : windowWrite off width = .command) : off = 0x0C ∧ width = 4 := by
  unfold windowWrite at h
  split at h
  · next hw =>
    split at h
    · next hr => exact ⟨(offset_of_regAt hr).symm, hw.1⟩
    · cases h
    · cases h
  · cases h

/-- The only host access that hands a word to the decoder is a 32-bit write to CMD. -/
theorem serveAccess_command {a : Access} {s u : State} {w : Word} (h : serveAccess a s = .command w u) :
    a = .regWrite 0x0C 4 w ∧ u = s := by
  cases a with
  | regRead off width => simp only [serveAccess] at h; split at h <;> cases h
  | regWrite off width v =>
    simp only [serveAccess] at h
    split at h
    · split at h
      · next hc =>
        obtain ⟨rfl, rfl⟩ := windowWrite_command hc
        cases h
        exact ⟨rfl, rfl⟩
      · cases h
      · cases h
    · cases h
  | bufRead addr width =>
    simp only [serveAccess] at h
    split at h
    · split at h <;> cases h
    · cases h
  | bufWrite addr width b =>
    simp only [serveAccess] at h
    split at h
    · split at h <;> cases h
    · cases h

/-- A host access that is no command word keeps the sequencer. -/
theorem serveAccess_hostKeeps {a : Access} {s t : State} (h : serveAccess a s = .outcome (.next t)) :
    HostKeeps s t := by
  cases a with
  | regRead off width =>
    simp only [serveAccess] at h
    split at h
    · cases h; exact hostKeeps_of_frame (readWindow_frame off width s)
    · cases h
  | regWrite off width v =>
    simp only [serveAccess] at h
    split at h
    · split at h
      · cases h
      · cases h; exact writeReg_hostKeeps _ v s
      · cases h; exact HostKeeps.refl s
    · cases h
  | bufRead addr width =>
    simp only [serveAccess] at h
    split at h
    · split at h
      · cases h; exact hostKeeps_of_frame (readBuf_frame addr s)
      · cases h
    · cases h
  | bufWrite addr width b =>
    simp only [serveAccess] at h
    split at h
    · split at h
      · cases h; exact ⟨rfl, id⟩
      · cases h
    · cases h

/-- All that the decoder makes of a command word: the decoded command, or an illegal word. -/
theorem finishServed_command {w : Word} {s t : State} (h : finishServed (.command w s) = .next t) :
    (∃ i, decode w = .ok i ∧ exec i s = .next t) ∨ t = illegalWord s := by
  simp only [finishServed] at h
  split at h
  · next i hi => exact .inl ⟨i, hi, h⟩
  · cases h; exact .inr rfl

/-- All that serving a host access can do: deliver a command word, or keep the sequencer. -/
theorem finishServed_access {a : Access} {s t : State} (h : finishServed (serveAccess a s) = .next t) :
    (∃ w, a = .regWrite 0x0C 4 w ∧ finishServed (.command w s) = .next t) ∨ HostKeeps s t := by
  cases hs : serveAccess a s with
  | outcome o =>
    rw [hs] at h
    cases h
    exact .inr (serveAccess_hostKeeps hs)
  | command w u =>
    obtain ⟨ha, rfl⟩ := serveAccess_command hs
    exact .inl ⟨w, ha, hs ▸ h⟩

/-- All that serving one event can do: a turn of the core, reset, a command word, or a host access that keeps the
sequencer. -/
theorem serve_cases {e : Event} {s t : State} (h : serve e s = .next t) :
    (e = .core ∧ coreTurn s = .next t) ∨ (e = .reset ∧ t = resetEvent s) ∨
    (∃ w, DeliversWord s.params e w ∧ finishServed (.command w s) = .next t) ∨ HostKeeps s t := by
  cases e with
  | bus tr =>
    simp only [serve, serveBus] at h
    split at h
    · next a hr =>
      rcases finishServed_access h with ⟨w, rfl, hw⟩ | hk
      · exact .inr (.inr (.inl ⟨w, .inr ⟨tr, rfl, hr⟩, hw⟩))
      · exact .inr (.inr (.inr hk))
    · cases h
    · cases h
  | access a =>
    rcases finishServed_access h with ⟨w, rfl, hw⟩ | hk
    · exact .inr (.inr (.inl ⟨w, .inl rfl, hw⟩))
    · exact .inr (.inr (.inr hk))
  | core => exact .inl ⟨rfl, h⟩
  | reset => cases h; exact .inr (.inl ⟨rfl, rfl⟩)

/-! ## When BUSY and CMD_REJECTED change -/

theorem illegalWord_busy {s : State} (h : s.busy = true) : illegalWord s = rejectCommand s := by
  simp [illegalWord, h]

theorem illegalWord_idle {s : State} (h : s.busy = false) : illegalWord s = illegalCommand s := by
  simp [illegalWord, h]

/-- A word written to CMD while BUSY is dropped, whether it decodes or not (R142). -/
theorem finishServed_command_busy {w : Word} {s t : State} (hb : s.busy = true)
    (h : finishServed (.command w s) = .next t) : t = rejectCommand s := by
  rcases finishServed_command h with ⟨i, -, hi⟩ | rfl
  · cases (exec_busy hb).symm.trans hi; rfl
  · exact illegalWord_busy hb

/-- A word written to CMD while IDLE leaves CMD_REJECTED as it is. -/
theorem finishServed_command_idle_rejected {w : Word} {s t : State} (hb : s.busy = false)
    (h : finishServed (.command w s) = .next t) : t.cmdRejected = s.cmdRejected := by
  rcases finishServed_command h with ⟨i, -, hi⟩ | rfl
  · rcases exec_cases hi with ⟨hb', -⟩ | ⟨-, -, rfl⟩ | ⟨hr, -⟩
    · simp [hb] at hb'
    · rfl
    · obtain ⟨-, -, -, -, hrej, -⟩ := (exec_ready_ended hr hi).host
      exact hrej
  · rw [illegalWord_idle hb]; rfl

/-- A word that makes an IDLE machine BUSY decodes to the command that then runs, on the operand registers. -/
theorem finishServed_command_starts {w : Word} {s t : State} (hi : s.busy = false) (ht : t.busy = true)
    (h : finishServed (.command w s) = .next t) :
    ∃ i, decode w = .ok i ∧ t.phase.command = i ∧ t.latched = s.operands := by
  rcases finishServed_command h with ⟨i, hd, he⟩ | rfl
  · refine ⟨i, hd, ?_⟩
    rcases exec_cases he with ⟨hb, -⟩ | ⟨-, -, rfl⟩ | ⟨hr, -⟩
    · simp [hi] at hb
    · exact ⟨firstPhase_command i, rfl⟩
    · simp [(exec_ready_ended hr he).busy] at ht
  · rw [illegalWord_idle hi] at ht; cases ht

/-- Turns of the core leave CMD_REJECTED alone. -/
theorem TurnsTo.cmdRejected {s t : State} (h : TurnsTo s t) : t.cmdRejected = s.cmdRejected := by
  rcases h with hr | he
  · rw [hr.eq]
  · obtain ⟨-, -, -, -, hrej, -⟩ := he.host
    exact hrej

theorem coreTurn_cmdRejected {s t : State} (h : coreTurn s = .next t) : t.cmdRejected = s.cmdRejected := by
  cases hb : s.busy with
  | false => cases (coreTurn_idle hb).symm.trans h; rfl
  | true => exact (coreTurn_turnsTo hb h).cmdRejected

/-- Settles O57: of all that one event can do, only a decoded command word makes an IDLE machine BUSY. -/
theorem busyOnlyByCommand : Obligations.BusyOnlyByCommand := by
  intro s t hs h ht
  have hi : s.busy = false := busy_eq_false_iff.mpr hs
  cases hev : s.events with
  | nil =>
    cases (coreRun_idle hi).symm.trans ((step_nil hev).symm.trans h)
    simp [hs] at ht
  | cons e rest =>
    rw [step_cons hev] at h
    rcases serve_cases h with ⟨-, hc⟩ | ⟨-, rfl⟩ | ⟨w, hw, hf⟩ | hk
    · cases (coreTurn_idle (s := { s with events := rest }) hi).symm.trans hc
      simp [hs] at ht
    · cases ht
    · obtain ⟨i, hd, hp, hl⟩ :=
        finishServed_command_starts (s := { s with events := rest }) hi (busy_iff.mpr ht) hf
      exact ⟨e, rest, w, i, rfl, hd, hw, hp, hl⟩
    · have := hk.seqState
      simp [hs, ht] at this

/-- A turn or a run of the core that ends SEQ's BUSY is a completion. -/
theorem TurnsTo.ended {s t : State} (hs : s.seqState = .busy) (ht : t.seqState = .idle) (h : TurnsTo s t) :
    Ended s t :=
  h.resolve_left fun hr => by simp [hr.seqState, hs] at ht

/-- Settles O58: of all that one event can do to a BUSY machine, only the core's completion and reset make it IDLE. -/
theorem busyEndsOnlyByCompletionOrReset : Obligations.BusyEndsOnlyByCompletionOrReset := by
  intro s t hs h ht
  have hb : s.busy = true := busy_iff.mpr hs
  cases hev : s.events with
  | nil =>
    have he := coreRun_ended hb ((step_nil hev).symm.trans h)
    exact .inr ⟨.inl rfl, he.done, he.progress⟩
  | cons e rest =>
    rw [step_cons hev] at h
    rcases serve_cases h with ⟨rfl, hc⟩ | ⟨rfl, rfl⟩ | ⟨w, -, hf⟩ | hk
    · have he := TurnsTo.ended (s := { s with events := rest }) hs ht (coreTurn_turnsTo hb hc)
      exact .inr ⟨.inr ⟨rest, rfl⟩, he.done, he.progress⟩
    · exact .inl ⟨rest, rfl, rfl⟩
    · cases finishServed_command_busy (s := { s with events := rest }) hb hf
      simp [hs] at ht
    · have := hk.seqState
      simp [hs, ht] at this

/-- Settles O59: turns, reset and other host accesses do not set CMD_REJECTED, and a command word does so only while
BUSY. -/
theorem rejectedOnlyWhileBusy : Obligations.RejectedOnlyWhileBusy := by
  intro s t h hs ht
  cases hev : s.events with
  | nil =>
    have hrej := (coreRun_turnsTo ((step_nil hev).symm.trans h)).cmdRejected
    simp [hrej, hs] at ht
  | cons e rest =>
    rw [step_cons hev] at h
    rcases serve_cases h with ⟨-, hc⟩ | ⟨-, rfl⟩ | ⟨w, hw, hf⟩ | hk
    · have hrej := coreTurn_cmdRejected hc
      simp [hrej, hs] at ht
    · cases ht
    · refine ⟨?_, e, rest, w, rfl, hw⟩
      by_contra hn
      have hrej := finishServed_command_idle_rejected (by simpa [State.busy] using hn) hf
      simp [hrej, hs] at ht
    · have hrej := hk.rejected ht
      simp [hs] at hrej

end Sys2Proof.Machine
end

section
/-! The register window and BUF as the host sees them, access by access. -/

namespace Sys2Proof.Machine

/-! ## Steps that serve one decoded access -/

/-- A 32-bit read at a register's offset. -/
theorem step_regRead {s : State} {rest : List Event} (r : Reg)
    (h : s.events = .access (.regRead r.offset 4) :: rest) : step s = .next (readReg r { s with events := rest }) := by
  rw [step_cons h]
  refine serve_outcome ?_
  simp [serveAccess, (offset_aligned r).2, readWindow_offset]

/-- A 32-bit write at the offset of a register other than CMD. -/
theorem step_regWrite {s : State} {rest : List Event} {v : Word} (r : Reg) (hr : r ≠ .cmd)
    (h : s.events = .access (.regWrite r.offset 4 v) :: rest) :
    step s = .next (writeReg r v { s with events := rest }) := by
  rw [step_cons h]
  refine serve_outcome ?_
  simp [serveAccess, (offset_aligned r).2, windowWrite_offset, hr]

/-- A read inside the register window. -/
theorem step_readWindow {s : State} {rest : List Event} {off width : Nat} (ho : off < windowSize)
    (h : s.events = .access (.regRead off width) :: rest) :
    step s = .next (readWindow off width { s with events := rest }) := by
  rw [step_cons h]
  exact serve_outcome (if_pos ho)

/-- A write inside the register window that names no register does nothing. -/
theorem step_ignoredWrite {s : State} {rest : List Event} {off width : Nat} {v : Word} (ho : off < windowSize)
    (hw : windowWrite off width = .ignored) (h : s.events = .access (.regWrite off width v) :: rest) :
    step s = .next { s with events := rest } := by
  rw [step_cons h]
  refine serve_outcome ?_
  simp [serveAccess, ho, hw]

theorem Reg.offset_le (r : Reg) : r.offset ≤ 0x4C := by cases r <;> decide

/-- The offsets of the window that hold no register (R35). -/
theorem regAt_reserved {off : Nat} (h : off = 0x2C ∨ 0x50 ≤ off) : regAt off = none := by
  refine List.find?_eq_none.mpr fun r _ => ?_
  rcases h with rfl | h
  · cases r <;> decide
  · have := r.offset_le
    simp; omega

theorem windowWrite_reserved {off : Nat} (h : regAt off = none) : windowWrite off 4 = .ignored := by
  unfold windowWrite
  split <;> simp [h]

theorem windowWrite_unaligned {off width : Nat} (h : ¬ (width = 4 ∧ off % 4 = 0)) :
    windowWrite off width = .ignored := if_neg h

theorem readWindow_unaligned {off width : Nat} (s : State) (h : ¬ (width = 4 ∧ off % 4 = 0)) :
    readWindow off width s = answerFree s := if_neg h

theorem readWindow_reserved {off : Nat} (s : State) (ha : off % 4 = 0) (h : regAt off = none) :
    readWindow off 4 s = answer 0 s := by
  simp [readWindow, ha, h]

theorem readResult_idle {v : Word} {s : State} (h : s.seqState = .idle) : readResult v s = answer v s := by
  simp [readResult, State.busy, h]

theorem readResult_busy {v : Word} {s : State} (h : s.seqState = .busy) : readResult v s = answerFree s := by
  simp [readResult, State.busy, h]

/-! ## The bits of the register words -/

/-- The bits of a number's word. -/
theorem getElem_ofNat_word {w p i : Nat} (hi : i < w) : (BitVec.ofNat w p)[i] = p.testBit i := by
  simp [← BitVec.getLsbD_eq_getElem, BitVec.getLsbD_ofNat, hi]

/-- `bitWord` sets its bit alone. -/
@[simp] theorem getElem_bitWord (b : Bool) (n i : Nat) (hi : i < 32) :
    (bitWord b n)[i] = (b && decide (i = n)) := by
  cases b with
  | false => simp [bitWord]
  | true =>
    have h : i < n ∨ i = n ∨ n < i := by omega
    rcases h with h | rfl | h
    · simp [bitWord, h, show i ≠ n by omega]
    · simp [bitWord]
    · simp [bitWord, show i ≠ n by omega, show ¬ i < n by omega, show i - n ≠ 0 by omega]

/-- CTRL reads back the two low bits that were written (R25, R35). -/
theorem ctrlWord_writeCtrl (v : Word) (s : State) : ctrlWord (writeCtrl v s) = v &&& 3 := by
  refine BitVec.eq_of_getElem_eq fun i hi => ?_
  have h3 : (3 : Word)[i] = decide (i < 2) := (getElem_ofNat_word hi).trans (Nat.testBit_two_pow_sub_one 2 i)
  rw [BitVec.getElem_and, h3]
  have h : i = 0 ∨ i = 1 ∨ 2 ≤ i := by omega
  rcases h with rfl | rfl | h
  · simp [ctrlWord]
  · simp [ctrlWord]
  · simp [ctrlWord, show i ≠ 0 by omega, show i ≠ 1 by omega, show ¬ i < 2 by omega]

/-- The bits of STATUS: BUSY, the three flags, and PROGRESS from bit 4 up (R26). -/
theorem getElem_statusWord (s : State) (p i : Nat) (hi : i < 32) :
    (statusWord s p)[i] =
      if i = 0 then s.busy else if i = 1 then s.done else if i = 2 then s.error
      else if i = 3 then s.cmdRejected else p.testBit (i - 4) := by
  unfold statusWord
  have h : i = 0 ∨ i = 1 ∨ i = 2 ∨ i = 3 ∨ 4 ≤ i := by omega
  rcases h with rfl | rfl | rfl | rfl | h
  · simp
  · simp
  · simp
  · simp
  · simp [show ¬ i < 4 by omega, show i ≠ 0 by omega, show i ≠ 1 by omega, show i ≠ 2 by omega,
      show i ≠ 3 by omega, getElem_ofNat_word]

/-- The PROGRESS field of STATUS (R26). -/
theorem progress_statusWord (s : State) {p : Nat} (hp : p < 8) :
    ((statusWord s p).extractLsb' 4 3).toNat = p := by
  have h : (statusWord s p).extractLsb' 4 3 = BitVec.ofNat 3 p := by
    refine BitVec.eq_of_getElem_eq fun i hi => ?_
    rw [BitVec.getElem_extractLsb', BitVec.getLsbD_eq_getElem (by omega), getElem_statusWord,
      getElem_ofNat_word]
    simp [show 4 + i ≠ 1 by omega, show 4 + i ≠ 2 by omega, show 4 + i ≠ 3 by omega]
  simpa [h] using hp

/-- The bits of STATUS above PROGRESS read 0 (R26, R35). -/
theorem statusWord_shift (s : State) {p : Nat} (hp : p < 8) : statusWord s p >>> 7 = 0 := by
  refine BitVec.eq_of_getElem_eq fun i hi => ?_
  rw [BitVec.getElem_ushiftRight]
  by_cases h : 7 + i < 32
  · have ht : p.testBit (7 + i - 4) = false :=
      Nat.testBit_lt_two_pow (hp.trans_le (Nat.pow_le_pow_right (n := 2) (by omega) (by omega : 3 ≤ 7 + i - 4)))
    rw [BitVec.getLsbD_eq_getElem h, getElem_statusWord, ht]
    simp [show 7 + i ≠ 1 by omega, show 7 + i ≠ 2 by omega, show 7 + i ≠ 3 by omega]
  · rw [BitVec.getLsbD_of_ge _ _ (by omega)]; simp

/-- A read of STATUS answers the flags as they stand and a PROGRESS field below 8, from 0 to 3 while BUSY and PROGRESS
itself while IDLE (R26, R148). -/
theorem readStatus_hostData (s : State) : ∃ p, (readStatus s).hostData = statusWord s p ∧ p < 8 ∧
    (s.seqState = .busy → p ≤ 3) ∧ (s.seqState = .idle → p = s.progress.val) := by
  cases hs : s.seqState with
  | idle =>
    refine ⟨s.progress.val, ?_, by omega, by simp, fun _ => rfl⟩
    simp [readStatus, State.busy, hs]
  | busy =>
    refine ⟨(Config.freeWord s.draws).toNat % 4, ?_, by omega, fun _ => by omega, by simp⟩
    simp [readStatus, State.busy, hs]

/-! ## The registers -/

/-- A write of an operand register, which sets `operands` to `o`, and the read after it. -/
theorem operand_write_read {s : State} {rest : List Event} {v : Word} {o : Operands} (r : Reg) (hr : r ≠ .cmd)
    (hw : ∀ es, writeReg r v { s with events := es } = { s with operands := o, events := es })
    (hrd : ∀ es, readReg r { s with operands := o, events := es } =
      { s with operands := o, hostData := v, events := es })
    (h : s.events = .access (.regWrite r.offset 4 v) :: .access (.regRead r.offset 4) :: rest) :
    step s = .next { s with operands := o, events := .access (.regRead r.offset 4) :: rest } ∧
    step { s with operands := o, events := .access (.regRead r.offset 4) :: rest } =
      .next { s with operands := o, hostData := v, events := rest } :=
  ⟨(step_regWrite r hr h).trans (congrArg _ (hw _)), (step_regRead r rfl).trans (congrArg _ (hrd _))⟩

/-- Settles O47, register by register. -/
theorem operandRegistersReadBack : Obligations.OperandRegistersReadBack := by
  intro s rest off v o hm h
  simp only [List.mem_cons, Prod.mk.injEq, List.not_mem_nil, or_false] at hm
  rcases hm with ⟨rfl, rfl⟩ | ⟨rfl, rfl⟩ | ⟨rfl, rfl⟩ | ⟨rfl, rfl⟩ | ⟨rfl, rfl⟩ | ⟨rfl, rfl⟩ | ⟨rfl, rfl⟩
  · exact operand_write_read .srcAddr (by decide) (fun _ => rfl) (fun _ => rfl) h
  · exact operand_write_read .srcLen (by decide) (fun _ => rfl) (fun _ => rfl) h
  · exact operand_write_read .dstAddr (by decide) (fun _ => rfl) (fun _ => rfl) h
  · exact operand_write_read .dstLen (by decide) (fun _ => rfl) (fun _ => rfl) h
  · exact operand_write_read .auxAddr (by decide) (fun _ => rfl) (fun _ => rfl) h
  · exact operand_write_read .auxLen (by decide) (fun _ => rfl) (fun _ => rfl) h
  · exact operand_write_read .expLen (by decide) (fun _ => rfl) (fun _ => rfl) h

/-- A 32-bit aligned write to a reserved offset does nothing (R35). -/
theorem step_reservedWrite {s : State} {rest : List Event} {off : Nat} {v : Word} (ho : off < windowSize)
    (hr : regAt off = none) (h : s.events = .access (.regWrite off 4 v) :: rest) :
    step s = .next { s with events := rest } :=
  step_ignoredWrite ho (windowWrite_reserved hr) h

/-- A 32-bit aligned read of a reserved offset answers 0 (R35). -/
theorem step_reservedRead {s : State} {rest : List Event} {off : Nat} (ho : off < windowSize) (ha : off % 4 = 0)
    (hr : regAt off = none) (h : s.events = .access (.regRead off 4) :: rest) :
    step s = .next { s with events := rest, hostData := 0 } := by
  rw [step_readWindow ho h, readWindow_reserved _ ha hr]; rfl

/-- A write to a read-only register or to a reserved offset does nothing. -/
theorem step_readOnlyWrite {s : State} {rest : List Event} {off : Nat} {v : Word}
    (ho : off ∈ [0x00, 0x2C, 0x30, 0x34, 0x38, 0x3C, 0x40, 0x44, 0x48, 0x4C] ∨
      (0x50 ≤ off ∧ off < 0x100 ∧ off % 4 = 0))
    (h : s.events = .access (.regWrite off 4 v) :: rest) : step s = .next { s with events := rest } := by
  rcases ho with ho | ⟨hlo, hhi, -⟩
  · simp only [List.mem_cons, List.not_mem_nil, or_false] at ho
    rcases ho with rfl | rfl | rfl | rfl | rfl | rfl | rfl | rfl | rfl | rfl
    · exact step_regWrite .id (by decide) h
    · exact step_reservedWrite (by decide) (regAt_reserved (.inl rfl)) h
    · exact step_regWrite .resLen (by decide) h
    · exact step_regWrite .resAuxLen (by decide) h
    · exact step_regWrite .info (by decide) h
    · exact step_regWrite .dictSize (by decide) h
    · exact step_regWrite .err (by decide) h
    · exact step_regWrite .errOffset (by decide) h
    · exact step_regWrite .memLast (by decide) h
    · exact step_regWrite .dictCap (by decide) h
  · exact step_reservedWrite hhi (regAt_reserved (.inr hlo)) h

/-- The registers and offsets that read the same while IDLE and while BUSY. -/
theorem step_fixedRead {s : State} {rest : List Event} {off : Nat} {v : Word}
    (ho : (off, v) ∈ [(0x00, 0x484C5A01), (0x0C, 0), (0x2C, 0), (0x48, BitVec.ofNat 32 (s.params.memSize - 1)),
        (0x4C, BitVec.ofNat 32 s.params.dictCap)] ∨ (0x50 ≤ off ∧ off < 0x100 ∧ off % 4 = 0 ∧ v = 0))
    (h : s.events = .access (.regRead off 4) :: rest) :
    step s = .next { s with events := rest, hostData := v } := by
  rcases ho with ho | ⟨hlo, hhi, ha, rfl⟩
  · simp only [List.mem_cons, Prod.mk.injEq, List.not_mem_nil, or_false] at ho
    rcases ho with ⟨rfl, rfl⟩ | ⟨rfl, rfl⟩ | ⟨rfl, rfl⟩ | ⟨rfl, rfl⟩ | ⟨rfl, rfl⟩
    · exact step_regRead .id h
    · exact step_regRead .cmd h
    · exact step_reservedRead (by decide) (by decide) (regAt_reserved (.inl rfl)) h
    · have hm : BitVec.ofNat 32 (s.params.memSize - 1) = s.params.memLast := by simp [Params.memSize]
      rw [hm]
      exact step_regRead .memLast h
    · exact step_regRead .dictCap h
  · exact step_reservedRead hhi ha (regAt_reserved (.inr hlo)) h

/-- A result register reads its value while IDLE and a free word while BUSY. -/
theorem step_resultRead {s : State} {rest : List Event} {v : Word} (r : Reg)
    (hr : readReg r { s with events := rest } = readResult v { s with events := rest })
    (h : s.events = .access (.regRead r.offset 4) :: rest) :
    (s.seqState = .idle → step s = .next { s with events := rest, hostData := v }) ∧
    (s.seqState = .busy →
      step s = .next { s with events := rest, hostData := Config.freeWord s.draws, draws := s.draws + 1 }) := by
  rw [step_regRead r h, hr]
  exact ⟨fun hs => congrArg _ (readResult_idle hs), fun hs => congrArg _ (readResult_busy hs)⟩

/-- Settles O48. -/
theorem readOnlyAndReserved : Obligations.ReadOnlyAndReserved := by
  intro s rest off
  refine ⟨fun v ho h => step_readOnlyWrite ho h, fun h => ⟨fun v ho => step_fixedRead ho h, fun v ho => ?_⟩⟩
  simp only [List.mem_cons, Prod.mk.injEq, List.not_mem_nil, or_false] at ho
  rcases ho with ⟨rfl, rfl⟩ | ⟨rfl, rfl⟩ | ⟨rfl, rfl⟩ | ⟨rfl, rfl⟩ | ⟨rfl, rfl⟩ | ⟨rfl, rfl⟩
  · exact step_resultRead .resLen rfl h
  · exact step_resultRead .resAuxLen rfl h
  · exact step_resultRead .info rfl h
  · exact step_resultRead .dictSize rfl h
  · exact step_resultRead .err rfl h
  · exact step_resultRead .errOffset rfl h

/-- Settles O49: the step is `writeStatus`. -/
theorem statusWriteOneToClear : Obligations.StatusWriteOneToClear := by
  intro s rest v h
  exact ⟨_, step_regWrite .status (by decide) h, rfl, rfl, rfl, rfl⟩

/-- Settles O50: the steps are `writeCtrl` and the read of CTRL after it. -/
theorem ctrlWriteReadsBack : Obligations.CtrlWriteReadsBack := by
  intro s rest v h
  refine ⟨_, _, step_regWrite .ctrl (by decide) h, step_regRead .ctrl rfl, ?_, rfl, rfl⟩
  exact ctrlWord_writeCtrl v { s with events := .access (.regRead 0x04 4) :: rest }

/-- Settles O51: a read that is answered is one of the window, and that changes the model's own fields only. -/
theorem registerReadsHaveNoSideEffect : Obligations.RegisterReadsHaveNoSideEffect := by
  intro s t rest off width h ht
  by_cases ho : off < windowSize
  · cases (step_readWindow ho h).symm.trans ht
    have hf := readWindow_frame off width { s with events := rest }
    exact congrArg (fun u : State => { u with events := s.events }) hf
  · have hf : serveAccess (.regRead off width) { s with events := rest } = .outcome (.fault .noSuchHostAddress) :=
      if_neg ho
    rw [step_cons h, serve_outcome hf] at ht
    cases ht

/-- Settles O52: the write is ignored, and the read answers a free word. -/
theorem unalignedAccessHasNoEffect : Obligations.UnalignedAccessHasNoEffect := by
  intro s rest off width v ho hu
  refine ⟨fun h => step_ignoredWrite ho (windowWrite_unaligned hu) h, fun h => ?_⟩
  rw [step_readWindow ho h, readWindow_unaligned _ hu]; rfl

/-- Settles O53: the answer is a STATUS word, bit by bit. -/
theorem statusReads : Obligations.StatusReads := by
  intro s rest h
  refine ⟨_, step_regRead .status h, ?_⟩
  obtain ⟨p, hd, hp, hbusy, hidle⟩ := readStatus_hostData { s with events := rest }
  simp only [readReg, hd, progress_statusWord _ hp, statusWord_shift _ hp]
  refine ⟨fun hs => ⟨?_, hbusy hs⟩, fun hs => ⟨?_, hidle hs⟩, ?_, ?_, ?_, trivial⟩
  · simp [getElem_statusWord, State.busy, hs]
  · simp [getElem_statusWord, State.busy, hs]
  · simp [getElem_statusWord]
  · simp [getElem_statusWord]
  · simp [getElem_statusWord]

/-! ## BUF -/

/-- A byte write of the host to BUF. -/
theorem step_bufWrite {s : State} {rest : List Event} {a : Nat} {b : Byte} (ha : a < s.params.memSize)
    (h : s.events = .access (.bufWrite a 1 b) :: rest) : step s = .next (writeBuf a b { s with events := rest }) := by
  rw [step_cons h]
  exact serve_outcome (if_pos ha)

/-- A byte read of the host from BUF. -/
theorem step_bufRead {s : State} {rest : List Event} {a : Nat} (ha : a < s.params.memSize)
    (h : s.events = .access (.bufRead a 1) :: rest) : step s = .next (readBuf a { s with events := rest }) := by
  rw [step_cons h]
  exact serve_outcome (if_pos ha)

/-- An access of another width than a byte is refused. -/
theorem step_wideBufAccess {s : State} {rest : List Event} {a width : Nat} {c : Access} (ha : a < s.params.memSize)
    (hw : width ≠ 1) (hc : c = .bufRead a width ∨ ∃ b, c = .bufWrite a width b)
    (h : s.events = .access c :: rest) : step s = .refused .wideBufAccess := by
  rw [step_cons h]
  refine serve_outcome ?_
  rcases hc with rfl | ⟨b, rfl⟩ <;> simp [serveAccess, ha, hw]

/-- Settles O54: a write is `writeBuf`, a read is `readBuf` in its two cases, and any other width is refused. -/
theorem hostBufAccess : Obligations.HostBufAccess := by
  intro s rest a ha
  refine ⟨fun b h => ?_, fun h ho => ?_, fun h ho => ?_, fun width hw h => ?_, fun width b hw h => ?_⟩
  · exact ⟨_, step_bufWrite ha h, Memory.byteAt_set_self s.mem a b, fun c hc => Memory.byteAt_set_ne hc.symm,
      rfl, rfl, rfl⟩
  · exact (step_bufRead ha h).trans (congrArg _ (if_neg (Bool.eq_false_iff.mp ho)))
  · exact (step_bufRead ha h).trans (congrArg _ (if_pos ho))
  · exact step_wideBufAccess ha hw (.inl rfl) h
  · exact step_wideBufAccess ha hw (.inr ⟨b, rfl⟩) h

end Sys2Proof.Machine
end

section
/-! What COUNT, BUILD and CODEGEN make of an input (R161, R163 to R167). -/

namespace Sys2Proof.Machine

/-! ## The order of PQ -/

theorem keyLe_iff {node : List Node} {a b : Nat} : keyLe node a b = true ↔ KeyAtMost node a b := by
  simp [keyLe, KeyAtMost]

theorem KeyAtMost.refl (node : List Node) (a : Nat) : KeyAtMost node a a := .inr ⟨rfl, le_refl a⟩

theorem KeyAtMost.trans {node : List Node} {a b c : Nat} (h : KeyAtMost node a b) (h' : KeyAtMost node b c) :
    KeyAtMost node a c := by
  unfold KeyAtMost at *; omega

theorem KeyAtMost.of_not {node : List Node} {a b : Nat} (h : ¬ KeyAtMost node a b) : KeyAtMost node b a := by
  unfold KeyAtMost at *; omega

/-- extract_min takes a member whose key is least (R164). -/
theorem extractMin_least {node : List Node} : ∀ {pq rest : List Nat} {m : Nat},
    extractMin node pq = some (m, rest) → ∀ n ∈ pq, KeyAtMost node m n
  | [], _, _, h => by simp [extractMin] at h
  | x :: xs, rest, m, h => by
    unfold extractMin at h
    split at h
    · next hn =>
      cases h
      rw [extractMin_none] at hn
      simpa [hn] using KeyAtMost.refl node x
    · next m' rest' hs =>
      have ih := extractMin_least hs
      split at h
      · next hle =>
        cases h
        have hxm := keyLe_iff.mp hle
        intro n hn
        rcases List.mem_cons.mp hn with rfl | hn
        · exact KeyAtMost.refl node n
        · exact hxm.trans (ih n hn)
      · next hle =>
        cases h
        intro n hn
        rcases List.mem_cons.mp hn with rfl | hn
        · exact KeyAtMost.of_not fun hxm => hle (keyLe_iff.mpr hxm)
        · exact ih n hn

/-- The record of the merge of nodes `a` and `b` (R165). -/
abbrev parentOf (node : List Node) (a b : Nat) : Node := .internal (weightAt node a + weightAt node b) a b

/-- One merge: the two least members of PQ leave it, and their parent joins it (R165). -/
theorem mergeOnce_spec {node node' : List Node} {pq pq' : List Nat} (h : mergeOnce node pq = some (node', pq')) :
    ∃ a b pq2, pq.Perm (a :: b :: pq2) ∧ (∀ n ∈ pq, KeyAtMost node a n) ∧ (∀ n ∈ b :: pq2, KeyAtMost node b n) ∧
      node' = node ++ [parentOf node a b] ∧ pq' = pq2 ++ [node.length] := by
  unfold mergeOnce at h
  split at h
  · cases h
  · next a pq1 ha =>
    split at h
    · cases h
    · next b pq2 hb =>
      cases h
      have hp := extractMin_some hb
      exact ⟨a, b, pq2, (extractMin_some ha).trans (hp.cons a), extractMin_least ha,
        fun n hn => extractMin_least hb n (hp.mem_iff.mpr hn), rfl, rfl⟩

/-- No merge is left when PQ holds fewer than two members. -/
theorem mergeOnce_none {node : List Node} {pq : List Nat} (h : mergeOnce node pq = none) : pq.length ≤ 1 := by
  unfold mergeOnce at h
  split at h
  · next ha => simp [extractMin_none.mp ha]
  · next a pq1 ha =>
    split at h
    · next hb =>
      have := (extractMin_some ha).length_eq
      simp [extractMin_none.mp hb] at this
      omega
    · cases h

/-! ## The frequency table and its keys -/

theorem freqOf_bumpFreq (freq : Vector Nat 256) (x s : Byte) :
    freqOf (bumpFreq freq x) s = freqOf freq s + if x = s then 1 else 0 := by
  by_cases h : x = s
  · subst h; simp [freqOf, bumpFreq]
  · have : x.toNat ≠ s.toNat := fun h' => h (BitVec.eq_of_toNat_eq h')
    simp [freqOf, bumpFreq, h, this]

theorem freqOf_countFreq (x : List Byte) (freq : Vector Nat 256) (s : Byte) :
    freqOf (countFreq x freq) s = freqOf freq s + x.count s := by
  induction x generalizing freq with
  | nil => simp [countFreq]
  | cons b x ih =>
    have := ih (bumpFreq freq b)
    rw [freqOf_bumpFreq] at this
    simp only [countFreq, List.foldl_cons, List.count_cons, beq_iff_eq] at this ⊢
    omega

/-- After COUNT, FREQ[s] is the number of input bytes equal to s (R161). -/
theorem freqOf_freqTable (x : List Byte) (s : Byte) : freqOf (freqTable x) s = x.count s := by
  rw [freqTable, freqOf_countFreq]
  simp [freqOf]

theorem symbols_nodup : symbols.Nodup := by
  refine List.Nodup.map_on (fun a ha b hb h => ?_) List.nodup_range
  have := congrArg BitVec.toNat h
  simp only [BitVec.toNat_ofNat, List.mem_range] at this ha hb
  omega

theorem mem_symbols (s : Byte) : s ∈ symbols :=
  List.mem_map.mpr ⟨s.toNat, List.mem_range.mpr s.isLt, by simp⟩

theorem zip_symbols_freq (freq : Vector Nat 256) :
    symbols.zip freq.toList = symbols.map fun s => (s, freqOf freq s) := by
  refine List.ext_getElem (by simp [symbols]) fun i h1 _ => ?_
  have hi : i < 256 := by simpa [symbols] using h1
  simp [symbols, freqOf, Nat.mod_eq_of_lt hi]

theorem keys_eq (freq : Vector Nat 256) : keys freq = symbols.filter fun s => decide (0 < freqOf freq s) := by
  simp [keys, zip_symbols_freq, List.filter_map, Function.comp_def]

/-- The keys of an input's frequency table are its bytes in ascending order, each once (R163). -/
theorem keys_freqTable (x : List Byte) : keys (freqTable x) = symbols.filter fun s => decide (s ∈ x) := by
  simp [keys_eq, freqOf_freqTable, List.count_pos_iff]

theorem keys_nodup (freq : Vector Nat 256) : (keys freq).Nodup := by
  rw [keys_eq]; exact symbols_nodup.filter _

theorem mem_keys_freqTable {x : List Byte} {s : Byte} : s ∈ keys (freqTable x) ↔ s ∈ x := by
  simp [keys_freqTable, mem_symbols]

theorem keys_perm_dedup (x : List Byte) : (keys (freqTable x)).Perm x.dedup :=
  (List.perm_ext_iff_of_nodup (keys_nodup _) x.nodup_dedup).mpr fun s => by
    rw [mem_keys_freqTable, List.mem_dedup]

theorem length_keys_freqTable (x : List Byte) : (keys (freqTable x)).length = distinctCount x :=
  (keys_perm_dedup x).length_eq

/-- The counts of the keys sum to the input's length (R161). -/
theorem sum_freq_keys (x : List Byte) : ((keys (freqTable x)).map (freqOf (freqTable x))).sum = x.length := by
  simp only [funext (freqOf_freqTable x)]
  rw [((keys_perm_dedup x).map _).sum_eq]
  exact List.sum_map_count_dedup_eq_length x

/-! ## NODE grows at its end -/

/-- A record stays where it is when NODE grows. -/
theorem getElem?_append_of_some {node : List Node} {n : Nat} {r : Node} (l : List Node) (h : node[n]? = some r) :
    (node ++ l)[n]? = some r :=
  (List.getElem?_append_left (List.getElem?_eq_some_iff.mp h).1).trans h

theorem weightAt_append {node : List Node} {n : Nat} (l : List Node) (h : n < node.length) :
    weightAt (node ++ l) n = weightAt node n := by
  simp [weightAt, List.getElem?_append_left h]

theorem keyAtMost_append {node : List Node} {m n : Nat} (l : List Node) (hm : m < node.length)
    (hn : n < node.length) : KeyAtMost (node ++ l) m n ↔ KeyAtMost node m n := by
  simp [KeyAtMost, weightAt_append l hm, weightAt_append l hn]

theorem waits_append {node : List Node} {k n : Nat} (l : List Node) (hk : k ≤ node.length) :
    Waits (node ++ l) k n ↔ Waits node k n := by
  refine and_congr_right fun _ => forall_congr' fun j => ?_
  refine ⟨fun h w a b hj hr => h w a b hj (getElem?_append_of_some l hr), fun h w a b hj hr => h w a b hj ?_⟩
  rwa [List.getElem?_append_left (by omega)] at hr

theorem MergesLeast.append {node : List Node} {k w a b : Nat} (l : List Node) (hk : k ≤ node.length)
    (h : MergesLeast node k w a b) : MergesLeast (node ++ l) k w a b := by
  obtain ⟨ha, hb, hab, hw, hmin, hmin'⟩ := h
  have hlt : ∀ {n}, Waits node k n → n < node.length := fun hn => hn.1.trans_le hk
  refine ⟨(waits_append l hk).mpr ha, (waits_append l hk).mpr hb, hab, ?_, fun n hn => ?_, fun n hn hna => ?_⟩
  · rw [weightAt_append l (hlt ha), weightAt_append l (hlt hb), hw]
  · rw [waits_append l hk] at hn
    exact (keyAtMost_append l (hlt ha) (hlt hn)).mpr (hmin n hn)
  · rw [waits_append l hk] at hn
    exact (keyAtMost_append l (hlt hb) (hlt hn)).mpr (hmin' n hn hna)

theorem IsTree.append {node : List Node} (l : List Node) : ∀ {t : HTree} {n : Nat}, IsTree node n t →
    IsTree (node ++ l) n t
  | .leaf _, _, ⟨w, hw⟩ => ⟨w, getElem?_append_of_some l hw⟩
  | .node _ _, _, ⟨w, a, b, hn, ha, hb⟩ => ⟨w, a, b, getElem?_append_of_some l hn, ha.append l, hb.append l⟩

/-- Making NODE[k] takes its two children out of the waiting nodes and adds NODE[k] to them. -/
theorem waits_succ {node : List Node} {k w a b n : Nat}
    (hm : ∀ j w a b, node[j]? = some (.internal w a b) → MergesLeast node j w a b)
    (hk : node[k]? = some (.internal w a b)) :
    Waits node (k + 1) n ↔ (Waits node k n ∧ n ≠ a ∧ n ≠ b) ∨ n = k := by
  have hchild : ∀ {j w a b}, node[j]? = some (Node.internal w a b) → a < j ∧ b < j := fun hj => by
    obtain ⟨ha, hb, -⟩ := hm _ _ _ _ hj
    exact ⟨ha.1, hb.1⟩
  constructor
  · rintro ⟨hn, hw⟩
    by_cases hnk : n = k
    · exact .inr hnk
    · exact .inl ⟨⟨by omega, fun j w a b hj => hw j w a b (by omega)⟩, hw k w a b (by omega) hk⟩
  · rintro (⟨⟨hn, hw⟩, hna, hnb⟩ | rfl)
    · refine ⟨by omega, fun j w' a' b' hj hr => ?_⟩
      by_cases hjk : j = k
      · subst hjk
        cases hk.symm.trans hr
        exact ⟨hna, hnb⟩
      · exact hw j w' a' b' (by omega) hr
    · refine ⟨by omega, fun j w' a' b' hj hr => ?_⟩
      have := hchild hr
      omega

/-- When every merge of NODE is one of R165 and the next one is too, every merge is after it. -/
theorem mergesLeast_append_parent {node : List Node} {a b : Nat}
    (hm : ∀ k w c d, node[k]? = some (.internal w c d) → MergesLeast node k w c d)
    (hab : MergesLeast node node.length (weightAt node a + weightAt node b) a b) (k w c d : Nat)
    (hk : (node ++ [parentOf node a b])[k]? = some (.internal w c d)) :
    MergesLeast (node ++ [parentOf node a b]) k w c d := by
  rcases Nat.lt_trichotomy k node.length with hlt | rfl | hgt
  · rw [List.getElem?_append_left hlt] at hk
    exact (hm k w c d hk).append _ hlt.le
  · rw [List.getElem?_concat_length] at hk
    cases hk
    exact hab.append _ (le_refl _)
  · rw [List.getElem?_eq_none (by simpa using hgt)] at hk
    cases hk

/-! ## Forests -/

/-- The nodes `ns` are the roots of trees that share out the symbols `ks`. -/
def Forest (node : List Node) (ns : List Nat) (ks : List Byte) : Prop :=
  ∃ f : Nat → HTree, (∀ n ∈ ns, IsTree node n (f n)) ∧ (ns.flatMap fun n => (f n).syms).Perm ks

/-- The roots of a forest may be listed in any order. -/
theorem Forest.perm {node : List Node} {ns ns' : List Nat} {ks : List Byte} (h : Forest node ns ks)
    (hp : ns.Perm ns') : Forest node ns' ks := by
  obtain ⟨f, hf, hks⟩ := h
  exact ⟨f, fun n hn => hf n (hp.mem_iff.mpr hn), (hp.flatMap_right _).symm.trans hks⟩

/-- A merge makes one tree of two. -/
theorem Forest.merge {node : List Node} {a b : Nat} {ns : List Nat} {ks : List Byte}
    (h : Forest node (a :: b :: ns) ks) (hlt : ∀ n ∈ ns, n < node.length) :
    Forest (node ++ [parentOf node a b]) (ns ++ [node.length]) ks := by
  obtain ⟨f, hf, hks⟩ := h
  have hold : ∀ n ∈ ns, Function.update f node.length (.node (f a) (f b)) n = f n := fun n hn =>
    Function.update_of_ne (hlt n hn).ne _ _
  refine ⟨Function.update f node.length (.node (f a) (f b)), fun n hn => ?_, ?_⟩
  · rcases List.mem_append.mp hn with hn | hn
    · rw [hold n hn]
      exact (hf n (by simp [hn])).append _
    · rw [List.mem_singleton.mp hn, Function.update_self]
      exact ⟨_, a, b, List.getElem?_concat_length, (hf a (by simp)).append _, (hf b (by simp)).append _⟩
  · rw [List.flatMap_append, List.flatMap_congr fun n hn => by rw [hold n hn]]
    refine List.Perm.trans ?_ hks
    simpa [HTree.syms] using
      List.perm_append_comm (l₁ := ns.flatMap fun n => (f n).syms) (l₂ := (f a).syms ++ (f b).syms)

/-- A merge keeps the sum of the weights. -/
theorem sum_weightAt_merge {node : List Node} {a b : Nat} {ns : List Nat} (hlt : ∀ n ∈ ns, n < node.length) :
    ((ns ++ [node.length]).map (weightAt (node ++ [parentOf node a b]))).sum =
      ((a :: b :: ns).map (weightAt node)).sum := by
  have hold : ns.map (weightAt (node ++ [parentOf node a b])) = ns.map (weightAt node) :=
    List.map_congr_left fun n hn => weightAt_append _ (hlt n hn)
  have hnew : weightAt (node ++ [parentOf node a b]) node.length = weightAt node a + weightAt node b := by
    simp [weightAt, Node.weight]
  simp only [List.map_append, hold, List.map_cons, hnew, List.map_nil, List.sum_append, List.sum_cons, List.sum_nil]
  omega

/-! ## The merge loop -/

/-- What the merge loop of BUILD keeps: NODE begins with the leaves, every merge so far took the two least waiting
nodes, and PQ holds the nodes that wait, whose trees share out the symbols and the whole weight. -/
structure Merging (freq : Vector Nat 256) (node : List Node) (pq : List Nat) : Prop where
  leaves : ∃ l, node = leafNodes freq ++ l
  least : ∀ k w a b, node[k]? = some (.internal w a b) → MergesLeast node k w a b
  nodup : pq.Nodup
  waits : ∀ n, n ∈ pq ↔ Waits node node.length n
  size : node.length + pq.length = 2 * (keys freq).length
  forest : Forest node pq (keys freq)
  weight : (pq.map (weightAt node)).sum = ((keys freq).map (freqOf freq)).sum

@[simp] theorem length_leafNodes (freq : Vector Nat 256) : (leafNodes freq).length = (keys freq).length := by
  simp [leafNodes]

theorem getElem?_leafNodes {freq : Vector Nat 256} {n : Nat} (hn : n < (keys freq).length) :
    (leafNodes freq)[n]? = some (.leaf (freqOf freq (keys freq)[n]) (keys freq)[n]) := by
  simp [leafNodes, hn]

/-- No leaf is an internal record. -/
theorem leafNodes_ne_internal {freq : Vector Nat 256} {k w a b : Nat} :
    (leafNodes freq)[k]? ≠ some (.internal w a b) := by
  simp [leafNodes]

theorem map_range_getD (l : List Byte) : (List.range l.length).map (l.getD · 0) = l :=
  List.ext_getElem (by simp) fun i _ h => by simp [h]

/-- The merge loop starts on the leaves. -/
theorem merging_leafNodes (freq : Vector Nat 256) :
    Merging freq (leafNodes freq) (List.range (keys freq).length) where
  leaves := ⟨[], (List.append_nil _).symm⟩
  least _ _ _ _ h := absurd h leafNodes_ne_internal
  nodup := List.nodup_range
  waits n := by
    simp only [List.mem_range, Waits, length_leafNodes, iff_self_and]
    exact fun _ _ _ _ _ _ h => absurd h leafNodes_ne_internal
  size := by simp; omega
  forest := by
    refine ⟨fun n => .leaf ((keys freq).getD n 0), fun n hn => ?_, ?_⟩
    · rw [List.mem_range] at hn
      exact ⟨_, by rw [getElem?_leafNodes hn, List.getD_eq_getElem _ _ hn]⟩
    · simp only [HTree.syms, ← List.map_eq_flatMap, map_range_getD]
      exact List.Perm.refl _
  weight := by
    congr 1
    refine List.ext_getElem (by simp) fun i h _ => ?_
    have hi : i < (keys freq).length := by simpa using h
    simp [weightAt, getElem?_leafNodes hi, Node.weight]

/-- One merge keeps what the loop keeps. -/
theorem Merging.mergeOnce {freq : Vector Nat 256} {node node' : List Node} {pq pq' : List Nat}
    (h : Merging freq node pq) (hm : mergeOnce node pq = some (node', pq')) : Merging freq node' pq' := by
  obtain ⟨a, b, pq2, hp, hmin, hmin', rfl, rfl⟩ := mergeOnce_spec hm
  have hnd : (a :: b :: pq2).Nodup := hp.nodup_iff.mp h.nodup
  simp only [List.nodup_cons, List.mem_cons, not_or] at hnd
  obtain ⟨⟨hab, ha2⟩, hb2, hnd2⟩ := hnd
  have hmem : ∀ n, n ∈ pq ↔ n = a ∨ n = b ∨ n ∈ pq2 := fun n => by simp [hp.mem_iff]
  have hlt : ∀ {n}, n ∈ pq → n < node.length := fun hn => ((h.waits _).mp hn).1
  have hapq : a ∈ pq := (hmem a).mpr (.inl rfl)
  have hbpq : b ∈ pq := (hmem b).mpr (.inr (.inl rfl))
  have h2pq : ∀ {n}, n ∈ pq2 → n ∈ pq := fun hn => (hmem _).mpr (.inr (.inr hn))
  have hlt2 : ∀ n ∈ pq2, n < node.length := fun n hn => hlt (h2pq hn)
  have hleast := mergesLeast_append_parent h.least (a := a) (b := b)
    ⟨(h.waits a).mp hapq, (h.waits b).mp hbpq, hab, rfl, fun n hn => hmin n ((h.waits n).mpr hn), fun n hn hna =>
      hmin' n (List.mem_cons.mpr (((hmem n).mp ((h.waits n).mpr hn)).resolve_left hna))⟩
  obtain ⟨l, hl⟩ := h.leaves
  refine ⟨⟨l ++ [parentOf node a b], by rw [← List.append_assoc, ← hl]⟩, hleast, ?_, fun n => ?_, ?_,
    (h.forest.perm hp).merge hlt2, ?_⟩
  · exact hnd2.append (List.nodup_singleton _) (by simpa using fun hn => (hlt2 _ hn).ne rfl)
  · rw [List.length_append, List.length_singleton, waits_succ hleast List.getElem?_concat_length,
      waits_append _ (le_refl _), ← h.waits, hmem, List.mem_append, List.mem_singleton]
    refine or_congr_left ⟨fun hn => ⟨.inr (.inr hn), ?_, ?_⟩, ?_⟩
    · rintro rfl; exact ha2 hn
    · rintro rfl; exact hb2 hn
    · rintro ⟨hn, hna, hnb⟩; exact (hn.resolve_left hna).resolve_left hnb
  · have hsize := h.size
    have hlen := hp.length_eq
    simp only [List.length_cons, List.length_append, List.length_nil] at hlen ⊢
    omega
  · rw [sum_weightAt_merge hlt2, ← h.weight, (hp.map _).sum_eq]

/-- The merge loop keeps what one merge keeps, and leaves one node waiting at most. -/
theorem Merging.mergeAll {freq : Vector Nat 256} : ∀ (k : Nat) {node : List Node} {pq : List Nat},
    Merging freq node pq → pq.length ≤ k + 1 →
    Merging freq (mergeAll k node pq).1 (mergeAll k node pq).2 ∧ (mergeAll k node pq).2.length ≤ 1
  | 0, _, _, h, hk => ⟨h, hk⟩
  | k + 1, node, pq, h, hk => by
    unfold Machine.mergeAll
    split
    · next hn => exact ⟨h, mergeOnce_none hn⟩
    · next node' pq' hs =>
      have := (mergeOnce_some hs).2
      exact Merging.mergeAll k (h.mergeOnce hs) (by omega)

/-- While there are symbols, some node waits. -/
theorem Merging.pq_ne_nil {freq : Vector Nat 256} {node : List Node} {pq : List Nat} (h : Merging freq node pq)
    (hk : keys freq ≠ []) : pq ≠ [] := by
  rintro rfl
  obtain ⟨f, -, hp⟩ := h.forest
  exact hk (List.nil_perm.mp hp)

/-- BUILD, when the merge loop leaves one node waiting. -/
theorem buildTree_eq {freq : Vector Nat 256} {node : List Node} {root : Nat}
    (h : mergeAll (keys freq).length (leafNodes freq) (List.range (keys freq).length) = (node, [root])) :
    buildTree freq = ⟨node, root, []⟩ := by
  simp [buildTree, h, extractMin]

/-- BUILD ends with the root as the only node that waited, and takes it out of PQ (R163 to R166). -/
theorem buildTree_merging {freq : Vector Nat 256} (hk : keys freq ≠ []) :
    Merging freq (buildTree freq).node [(buildTree freq).root] ∧ (buildTree freq).pq = [] := by
  obtain ⟨h, hle⟩ := (merging_leafNodes freq).mergeAll (keys freq).length (by simp)
  rcases hm : mergeAll (keys freq).length (leafNodes freq) (List.range (keys freq).length) with ⟨node, pq⟩
  rw [hm] at h hle
  have hpos := List.length_pos_iff.mpr (h.pq_ne_nil hk)
  obtain ⟨root, rfl⟩ := List.length_eq_one_iff.mp (Nat.le_antisymm hle hpos)
  rw [buildTree_eq hm]
  exact ⟨h, rfl⟩

/-! ## The code table -/

/-- The number of nodes of a tree. -/
def HTree.size : HTree → Nat
  | .leaf _ => 1
  | .node l r => 1 + l.size + r.size

/-- A tree with L leaves has 2·L − 1 nodes (R16). -/
theorem HTree.size_add_one : ∀ t : HTree, t.size + 1 = 2 * t.syms.length
  | .leaf _ => rfl
  | .node l r => by
    have := l.size_add_one
    have := r.size_add_one
    simp only [HTree.size, HTree.syms, List.length_append]
    omega

/-- CODE after the codes of a tree's leaves, each after the path `p`, were written in pre-order (R167). -/
def HTree.writeCodes : HTree → BitString → Vector (Option BitString) 256 → Vector (Option BitString) 256
  | .leaf s, p, code => code.set s.toNat (some p) s.isLt
  | .node l r, p, code => r.writeCodes (p ++ [true]) (l.writeCodes (p ++ [false]) code)

/-- The loop of CODEGEN pops a tree from STK with one pop per node, and has then written its codes. -/
theorem codegenLoop_isTree {node : List Node} : ∀ {t : HTree} {n : Nat} (k : Nat) (p : BitString)
    (stk : List (Nat × BitString)) (code : Vector (Option BitString) 256), IsTree node n t →
    codegenLoop node (t.size + k) ((n, p) :: stk) code = codegenLoop node k stk (t.writeCodes p code)
  | .leaf s, n, k, p, stk, code, ⟨w, hn⟩ => by
    rw [HTree.size, Nat.add_comm, codegenLoop, hn]; rfl
  | .node l r, n, k, p, stk, code, ⟨w, a, b, hn, ha, hb⟩ => by
    rw [HTree.size, show 1 + l.size + r.size + k = l.size + (r.size + k) + 1 by omega, codegenLoop, hn]
    show codegenLoop node _ ((a, p ++ [false]) :: (b, p ++ [true]) :: stk) code = _
    rw [codegenLoop_isTree _ _ _ _ ha, codegenLoop_isTree _ _ _ _ hb]; rfl

theorem codeOf_set (code : Vector (Option BitString) 256) (s c : Byte) (p : BitString) :
    codeOf (code.set s.toNat (some p) s.isLt) c = if c = s then p else codeOf code c := by
  by_cases h : c = s
  · subst h; simp [codeOf]
  · have : s.toNat ≠ c.toNat := fun h' => h (BitVec.eq_of_toNat_eq h').symm
    simp [codeOf, h, this]

/-- A symbol's code after the codes of a tree were written: the path to its leaf, if it has one there. -/
theorem codeOf_writeCodes : ∀ (t : HTree) (p : BitString) (code : Vector (Option BitString) 256) (s : Byte),
    t.syms.Nodup → codeOf (t.writeCodes p code) s = if s ∈ t.syms then p ++ t.codeOf s else codeOf code s
  | .leaf c, p, code, s, _ => by simp [HTree.writeCodes, HTree.syms, HTree.codeOf, codeOf_set]
  | .node l r, p, code, s, hd => by
    obtain ⟨hl, hr, hdis⟩ := List.nodup_append'.mp hd
    rw [HTree.writeCodes, codeOf_writeCodes r _ _ _ hr, codeOf_writeCodes l _ _ _ hl]
    by_cases hsl : s ∈ l.syms
    · have hsr : s ∉ r.syms := hdis hsl
      simp [HTree.syms, HTree.codeOf, hsl, hsr]
    · simp [HTree.syms, HTree.codeOf, hsl]

/-- CODEGEN on a tree that fills NODE: CODE holds the path to every leaf (R167). -/
theorem codeOf_codegen {node : List Node} {root : Nat} {t : HTree} {s : Byte} (ht : IsTree node root t)
    (hd : t.syms.Nodup) (hn : node.length = t.size) (hs : s ∈ t.syms) (code : Vector (Option BitString) 256) :
    codeOf (codegen node root code).2 s = t.codeOf s := by
  have h := codegenLoop_isTree 0 [] [] code ht
  rw [Nat.add_zero] at h
  rw [codegen, hn, h, codegenLoop, codeOf_writeCodes t [] code s hd, if_pos hs, List.nil_append]

/-! ## BUILD as a whole -/

theorem keys_freqTable_ne_nil {x : List Byte} (hx : x ≠ []) : keys (freqTable x) ≠ [] := by
  obtain ⟨s, hs⟩ := List.exists_mem_of_ne_nil x hx
  exact List.ne_nil_of_mem (mem_keys_freqTable.mpr hs)

theorem leafNodes_freqTable (x : List Byte) :
    leafNodes (freqTable x) = (symbols.filter fun s => decide (s ∈ x)).map fun s => Node.leaf (x.count s) s := by
  simp [leafNodes, keys_freqTable, freqOf_freqTable]

/-- The tree of an input holds the bytes of the input, each once, and fills NODE. -/
theorem hencTree_isTree {x : List Byte} (hx : x ≠ []) :
    ∃ t, IsTree (hencTree x).node (hencTree x).root t ∧ t.syms.Perm (keys (freqTable x)) ∧
      (hencTree x).node.length = t.size := by
  obtain ⟨h, -⟩ := buildTree_merging (keys_freqTable_ne_nil hx)
  obtain ⟨f, hf, hp⟩ := h.forest
  simp only [List.flatMap_cons, List.flatMap_nil, List.append_nil] at hp
  refine ⟨_, hf _ List.mem_cons_self, hp, ?_⟩
  have hsize := h.size
  have htree := (f (buildTree (freqTable x)).root).size_add_one
  rw [List.length_singleton] at hsize
  rw [hp.length_eq] at htree
  exact Nat.add_right_cancel (hsize.trans htree.symm)

/-- The code table of an input holds the paths of its tree. -/
theorem hencCode_eq {x : List Byte} {t : HTree} {s : Byte} (ht : IsTree (hencTree x).node (hencTree x).root t)
    (hp : t.syms.Perm (keys (freqTable x))) (hn : (hencTree x).node.length = t.size) (hs : s ∈ x) :
    codeOf (hencCode x) s = t.codeOf s :=
  codeOf_codegen ht (hp.nodup_iff.mpr (keys_nodup _)) hn (hp.mem_iff.mpr (mem_keys_freqTable.mpr hs)) _

/-- Settles O18: the merge loop keeps `Merging`, which at its end says what BUILD made. -/
theorem buildMakesTree : Obligations.BuildMakesTree := by
  refine ⟨fun x hx => ?_, fun node pq rest m h => ⟨extractMin_some h, extractMin_least h⟩⟩
  obtain ⟨h, hpq⟩ := buildTree_merging (keys_freqTable_ne_nil hx)
  obtain ⟨t, ht, hp, hn⟩ := hencTree_isTree hx
  refine ⟨⟨t, ht, hp.nodup_iff.mpr (keys_nodup _), fun s => hp.mem_iff.trans mem_keys_freqTable,
    fun s hs => hencCode_eq ht hp hn hs⟩, ?_, ?_, h.least, ?_, hpq⟩
  · have := h.size
    rw [length_keys_freqTable, List.length_singleton] at this
    exact Nat.eq_sub_of_add_eq this
  · obtain ⟨l, hl⟩ := h.leaves
    rw [← leafNodes_freqTable, ← length_keys_freqTable, ← length_leafNodes, hencTree, hl, List.take_left]
  · have hw := h.weight
    rw [sum_freq_keys, List.map_singleton, List.sum_singleton] at hw
    exact hw

end Sys2Proof.Machine
end

section
/-! Bytes as bits, and code words as bytes: both ways, and position by position (R61, R62, R108). -/

namespace Sys2Proof.Machine

/-- Where every element is replaced by `n` others, the j-th of those of element i stands at `n * i + j`. -/
theorem getElem?_flatMap_of_length {α β : Type} {f : α → List β} {n j : Nat} (hf : ∀ x, (f x).length = n)
    (hj : j < n) :
    ∀ (l : List α) (i : Nat), (l.flatMap f)[n * i + j]? = l[i]?.bind fun x => (f x)[j]?
  | [], _ => rfl
  | x :: l, 0 => by
    rw [List.flatMap_cons, List.getElem?_append_left (by rw [hf]; omega)]
    simp
  | x :: l, i + 1 => by
    have hsucc : n * (i + 1) + j = n + (n * i + j) := by rw [Nat.mul_succ]; omega
    rw [List.flatMap_cons, List.getElem?_append_right (by rw [hf]; omega), hf, hsucc, Nat.add_sub_cancel_left]
    exact getElem?_flatMap_of_length hf hj l i

/-! ## Bits (R62) -/

@[simp] theorem bin8_length (x : Byte) : (bin8 x).length = 8 := rfl

/-- Bit j of bin8 is bit 7 − j of the byte. -/
theorem getElem?_bin8 (x : Byte) {j : Nat} (hj : j < 8) : (bin8 x)[j]? = some (x.getLsbD (7 - j)) := by
  have : j = 0 ∨ j = 1 ∨ j = 2 ∨ j = 3 ∨ j = 4 ∨ j = 5 ∨ j = 6 ∨ j = 7 := by omega
  rcases this with rfl | rfl | rfl | rfl | rfl | rfl | rfl | rfl <;> rfl

theorem bin8_injective : Function.Injective bin8 := by
  intro x y h
  refine BitVec.eq_of_getLsbD_eq fun i hi => ?_
  have hbit : (bin8 x)[7 - i]? = (bin8 y)[7 - i]? := by rw [h]
  rw [getElem?_bin8 x (by omega), getElem?_bin8 y (by omega), Nat.sub_sub_self (by omega)] at hbit
  exact Option.some.inj hbit

/-- Eight bits are the bits of the byte that they write. -/
theorem bin8_natOfBits : ∀ b7 b6 b5 b4 b3 b2 b1 b0 : Bool,
    bin8 (BitVec.ofNat 8 (natOfBits [b7, b6, b5, b4, b3, b2, b1, b0])) = [b7, b6, b5, b4, b3, b2, b1, b0] := by
  decide

theorem natOfBits_bin8 (x : Byte) : BitVec.ofNat 8 (natOfBits (bin8 x)) = x :=
  bin8_injective (bin8_natOfBits _ _ _ _ _ _ _ _)

theorem packBits_bin8_append (x : Byte) (bs : BitString) : packBits (bin8 x ++ bs) = x :: packBits bs := by
  have hcons : packBits (bin8 x ++ bs) = BitVec.ofNat 8 (natOfBits (bin8 x)) :: packBits bs := rfl
  rw [hcons, natOfBits_bin8]

theorem packBits_unpackBits : ∀ l : List Byte, packBits (unpackBits l) = l
  | [] => rfl
  | x :: l => by
    show packBits (bin8 x ++ unpackBits l) = x :: l
    rw [packBits_bin8_append, packBits_unpackBits l]

theorem unpackBits_packBits : ∀ bs : BitString, bs.length % 8 = 0 → unpackBits (packBits bs) = bs
  | [], _ => rfl
  | b7 :: b6 :: b5 :: b4 :: b3 :: b2 :: b1 :: b0 :: rest, h => by
    have hrest : rest.length % 8 = 0 := by simp only [List.length_cons] at h; omega
    show bin8 _ ++ unpackBits (packBits rest) = _
    rw [bin8_natOfBits, unpackBits_packBits rest hrest]
    rfl
  | [_], h | [_, _], h | [_, _, _], h | [_, _, _, _], h | [_, _, _, _, _], h | [_, _, _, _, _, _], h
  | [_, _, _, _, _, _, _], h => by simp at h

theorem getElem?_unpackBits {l : List Byte} {k : Nat} {b : Byte} (h : l[k / 8]? = some b) :
    (unpackBits l)[k]? = some (b.getLsbD (7 - k % 8)) := by
  have hj : k % 8 < 8 := Nat.mod_lt _ (by decide)
  have hk := getElem?_flatMap_of_length bin8_length hj l (k / 8)
  rw [Nat.div_add_mod, h] at hk
  exact hk.trans (getElem?_bin8 b hj)

/-- Settles O43. -/
theorem bitPackingInverse : Obligations.BitPackingInverse :=
  ⟨unpackBits_packBits, packBits_unpackBits, fun _ _ _ => getElem?_unpackBits⟩

/-! ## Code words (R61, R108) -/

@[simp] theorem bytesOfWord_length (v : Nat) : (bytesOfWord v).length = 4 := rfl

/-- Byte j of a code word is bits [8j+7:8j] of the code. -/
theorem getElem?_bytesOfWord (v : Nat) {j : Nat} (hj : j < 4) :
    (bytesOfWord v)[j]? = some (BitVec.ofNat 8 (v / 2 ^ (8 * j))) := by
  have : j = 0 ∨ j = 1 ∨ j = 2 ∨ j = 3 := by omega
  rcases this with rfl | rfl | rfl | rfl <;> simp [bytesOfWord]

theorem wordOfBytes_bytesOfWord {v : Nat} (h : v < 2 ^ 32) :
    wordOfBytes (BitVec.ofNat 8 v) (BitVec.ofNat 8 (v / 2 ^ 8)) (BitVec.ofNat 8 (v / 2 ^ 16))
      (BitVec.ofNat 8 (v / 2 ^ 24)) = v := by
  simp only [wordOfBytes, BitVec.toNat_ofNat]
  omega

theorem bytesOfWord_wordOfBytes (b0 b1 b2 b3 : Byte) : bytesOfWord (wordOfBytes b0 b1 b2 b3) = [b0, b1, b2, b3] := by
  have h0 := b0.isLt
  have h1 := b1.isLt
  have h2 := b2.isLt
  have h3 := b3.isLt
  simp only [bytesOfWord, wordOfBytes, List.cons.injEq, and_true]
  refine ⟨?_, ?_, ?_, ?_⟩ <;> apply BitVec.eq_of_toNat_eq <;> rw [BitVec.toNat_ofNat] <;> omega

theorem codesOfBytes_streamBytes : ∀ codes : List Nat, (∀ c ∈ codes, c < 2 ^ 32) →
    codesOfBytes (streamBytes codes) = codes
  | [], _ => rfl
  | c :: codes, h => by
    obtain ⟨hc, hcodes⟩ := List.forall_mem_cons.mp h
    show wordOfBytes _ _ _ _ :: codesOfBytes (streamBytes codes) = c :: codes
    rw [wordOfBytes_bytesOfWord hc, codesOfBytes_streamBytes codes hcodes]

theorem streamBytes_codesOfBytes : ∀ l : List Byte, l.length % 4 = 0 → streamBytes (codesOfBytes l) = l
  | [], _ => rfl
  | b0 :: b1 :: b2 :: b3 :: rest, h => by
    have hrest : rest.length % 4 = 0 := by simp only [List.length_cons] at h; omega
    show bytesOfWord (wordOfBytes b0 b1 b2 b3) ++ streamBytes (codesOfBytes rest) = _
    rw [bytesOfWord_wordOfBytes, streamBytes_codesOfBytes rest hrest]
    rfl
  | [_], h | [_, _], h | [_, _, _], h => by simp at h

theorem getElem?_streamBytes {codes : List Nat} {i j c : Nat} (h : codes[i]? = some c) (hj : j < 4) :
    (streamBytes codes)[4 * i + j]? = some (BitVec.ofNat 8 (c / 2 ^ (8 * j))) := by
  have hk := getElem?_flatMap_of_length bytesOfWord_length hj codes i
  rw [h] at hk
  exact hk.trans (getElem?_bytesOfWord c hj)

/-- Settles O44. -/
theorem codeStreamInverse : Obligations.CodeStreamInverse :=
  ⟨fun _ _ _ _ => getElem?_streamBytes, codesOfBytes_streamBytes, streamBytes_codesOfBytes⟩

end Sys2Proof.Machine
end

section
/-! A command that began late, and a turn of the core as a move that only what it reads decides (R70, R137). -/

namespace Sys2Proof.Machine

/-! ## A run that began late -/

theorem events_nil_eq {s : State} (h : s.events = []) : { s with events := [] } = s := by
  rw [← h]

/-- Settles O13: with an event waiting, the command stands where it would have run on from. -/
theorem lateRunEqualsRunAtOnce : Obligations.LateRunEqualsRunAtOnce := by
  intro i s u e rest hs hu
  have hidle : s.busy = false := busy_eq_false_iff.mpr hs.1
  cases (exec_waiting (s := { s with events := e :: rest }) hidle (by simp)).symm.trans hu
  calc coreRun (startCommand (firstPhase i) { s with events := [] })
      = coreRun (startCommand (firstPhase i) s) := by rw [events_nil_eq hs.2]
    _ = exec i s := (exec_ready hs).symm

/-! ## What a turn of the core does, as data -/

/-- How a completion is reached: with success, or with an error of the given class (R138, R139, R140). -/
inductive Ending where
  | success (r : Results)
  | error (c : WriteClass) (e : Raise)

/-- The register effects of a completion that the host did not disturb. -/
def Ending.regs : Ending → State → State
  | .success r => successRegs r
  | .error _ e => errorRegs e

/-- The completion frees the output bytes even where the host left them alone (R140). -/
def Ending.freesOutputs : Ending → Bool
  | .success _ => false
  | .error c _ => c == .afterWrite

/-- The output bytes become free values, or stay. -/
def scrambleIf (b : Bool) (s : State) : State := if b then scrambleOutputs s else s

/-- The completion, with what the host's writes to the regions make of it (R350, R352). -/
def Ending.apply (k : Ending) (s : State) : State :=
  if s.inTouched then freeCompletion s else k.regs (scrambleIf (s.outTouched || k.freesOutputs) s)

theorem complete_eq_apply (r : Results) (s : State) : complete r s = .next ((Ending.success r).apply s) := by
  unfold complete Ending.apply
  cases s.inTouched <;> cases s.outTouched <;> simp [Ending.regs, Ending.freesOutputs, scrambleIf]

theorem raiseError_eq_apply (c : WriteClass) (e : Raise) (s : State) :
    raiseError c e s = .next ((Ending.error c e).apply s) := by
  unfold raiseError Ending.apply
  cases s.inTouched <;> cases h : (s.outTouched || c == .afterWrite) <;>
    simp [Ending.regs, Ending.freesOutputs, scrambleIf, h]

/-- What a turn does: one write to an output region, the new internal storage, and then the next phase or the
completion. -/
structure Move where
  region : Region
  off : Nat
  bytes : List Byte
  store : Store
  next : Phase ⊕ Ending

/-- The turn's write and its internal storage. -/
def Move.write (m : Move) (s : State) : State := { writeRegion m.region m.off m.bytes s with store := m.store }

/-- The turn: its write, and then the next phase or the completion. -/
def Move.apply (m : Move) (s : State) : State :=
  match m.next with
  | .inl p => { m.write s with phase := p }
  | .inr k => k.apply (m.write s)

/-- A turn that writes no byte. -/
def Move.quiet (st : Store) (next : Phase ⊕ Ending) : Move := ⟨⟨0, 0⟩, 0, [], st, next⟩

theorem Move.write_quiet (st : Store) (next : Phase ⊕ Ending) (s : State) :
    (Move.quiet st next).write s = { s with store := st } := by
  simp [Move.write, Move.quiet, writeRegion, Memory.setBytes]

/-! ## What a turn of the core reads -/

/-- The two states agree on everything that a turn of the core reads of them. -/
structure ReadsAlike (s s' : State) : Prop where
  params : s'.params = s.params
  seqState : s'.seqState = s.seqState
  phase : s'.phase = s.phase
  latched : s'.latched = s.latched
  latchedLenchk : s'.latchedLenchk = s.latchedLenchk
  store : s'.store = s.store
  input : ∀ r ∈ inputRegions s.phase.command s.latched, s'.regionBytes r = s.regionBytes r

theorem ReadsAlike.refl (s : State) : ReadsAlike s s := ⟨rfl, rfl, rfl, rfl, rfl, rfl, fun _ _ => rfl⟩

/-- SRC is an input region of every command. -/
theorem ReadsAlike.src {s s' : State} (h : ReadsAlike s s') :
    s'.regionBytes s.latched.src = s.regionBytes s.latched.src :=
  h.input _ (by cases s.phase.command <;> simp [inputRegions])

/-- AUX is an input region of HDEC. -/
theorem ReadsAlike.aux {s s' : State} (h : ReadsAlike s s') (hp : s.phase.command = .hdec) :
    s'.regionBytes s.latched.aux = s.regionBytes s.latched.aux :=
  h.input _ (by simp [hp, inputRegions])

/-- One move is what `f` does in every state that reads like `s`. -/
def Moves (s : State) (f : State → Out) : Prop :=
  ∃ m : Move, ∀ s', ReadsAlike s s' → f s' = .next (m.apply s')

theorem Moves.of_eq {s : State} {f g : State → Out} (hg : Moves s g) (h : ∀ s', ReadsAlike s s' → f s' = g s') :
    Moves s f :=
  hg.imp fun _ hm s' hs => (h s' hs).trans (hm s' hs)

theorem ending_moves {s : State} {f : State → Out} {k : Ending} (hf : ∀ s', f s' = .next (k.apply s')) :
    Moves s f := by
  refine ⟨.quiet s.store (.inr k), fun s' h => (hf s').trans ?_⟩
  show _ = Host.Outcome.next (k.apply (Move.write _ s'))
  rw [Move.write_quiet, ← h.store]

theorem raiseError_moves (c : WriteClass) (e : Raise) (s : State) : Moves s (raiseError c e) :=
  ending_moves (raiseError_eq_apply c e)

theorem complete_moves (r : Results) (s : State) : Moves s (complete r) := ending_moves (complete_eq_apply r)

theorem quiet_moves (p : Phase) (st : Store) (s : State) :
    Moves s fun s' => .next { s' with phase := p, store := st } := by
  refine ⟨.quiet st (.inl p), fun s' _ => ?_⟩
  show _ = Host.Outcome.next { Move.write _ s' with phase := p }
  rw [Move.write_quiet]

theorem write_moves (r : Region) (off : Nat) (bs : List Byte) (p : Phase) (st : Store) (s : State) :
    Moves s fun s' => .next { writeRegion r off bs s' with phase := p, store := st } :=
  ⟨⟨r, off, bs, st, .inl p⟩, fun _ _ => rfl⟩

theorem write_complete_moves (r : Region) (off : Nat) (bs : List Byte) (st : Store) (res : Results) (s : State) :
    Moves s fun s' => complete res { writeRegion r off bs s' with store := st } :=
  ⟨⟨r, off, bs, st, .inr (.success res)⟩, fun _ _ => complete_eq_apply res _⟩

/-- A phase that only moves on keeps the internal storage. -/
theorem phase_moves (p : Phase) (s : State) : Moves s fun s' => .next { s' with phase := p } :=
  (quiet_moves p s.store s).of_eq fun s' h => by rw [← h.store]

theorem checkPhase_moves (i : Instr) (p : Phase) (s : State) : Moves s (checkPhase i p) := by
  cases hc : checkRegions s.params.memSize i s.latched with
  | some c =>
    exact (raiseError_moves .beforeWrite ⟨c, 0⟩ s).of_eq fun s' h => by
      simp only [checkPhase, h.params, h.latched, hc]
  | none => exact (phase_moves p s).of_eq fun s' h => by simp only [checkPhase, h.params, h.latched, hc]

/-! ## HENC -/

theorem hencCount_moves (s : State) : Moves s hencCount := by
  by_cases hl : s.latched.src.len = 0
  · exact (raiseError_moves .beforeWrite ⟨.hencEmpty, 0⟩ s).of_eq fun s' h => by
      simp only [hencCount, h.latched, if_pos hl]
  · exact (quiet_moves (.henc .build)
        { s.store with freq := countFreq (s.regionBytes s.latched.src) s.store.freq } s).of_eq fun s' h => by
      simp only [hencCount, h.latched, h.store, h.src, if_neg hl]

theorem hencBuild_moves (s : State) : Moves s hencBuild :=
  (quiet_moves (.henc .codegen)
      { s.store with
        node := (buildTree s.store.freq).node
        root := (buildTree s.store.freq).root
        pq := (buildTree s.store.freq).pq
        leaves := (keys s.store.freq).length } s).of_eq
    fun s' h => by simp only [hencBuild, h.store]

theorem hencCodegen_moves (s : State) : Moves s hencCodegen :=
  (quiet_moves (.henc .size)
      { s.store with
        stk := (codegen s.store.node s.store.root s.store.code).1
        code := (codegen s.store.node s.store.root s.store.code).2 } s).of_eq
    fun s' h => by simp only [hencCodegen, h.store]

theorem hencSize_moves (s : State) : Moves s hencSize := by
  by_cases hn : payloadLen (codeBits s.store.freq s.store.code) > s.latched.dst.len
  · exact (raiseError_moves .beforeWrite
        ⟨.dstFull, min (payloadLen (codeBits s.store.freq s.store.code)) (2 ^ 32 - 1)⟩ s).of_eq fun s' h => by
      simp only [hencSize, h.latched, h.store, if_pos hn]
  by_cases hm : descriptorLen s.store.leaves > s.latched.aux.len
  · exact (raiseError_moves .beforeWrite ⟨.auxFull, descriptorLen s.store.leaves⟩ s).of_eq fun s' h => by
      simp only [hencSize, h.latched, h.store, if_neg hn, if_pos hm]
  · exact (quiet_moves (.henc .serialize)
        { s.store with
          padBits := padLen (codeBits s.store.freq s.store.code)
          payLen := payloadLen (codeBits s.store.freq s.store.code)
          descLen := descriptorLen s.store.leaves
          maxDepth := maxCodeLen s.store.freq s.store.code } s).of_eq fun s' h => by
      simp only [hencSize, h.latched, h.store, if_neg hn, if_neg hm]

theorem hencSerialize_moves (s : State) : Moves s hencSerialize :=
  (write_moves s.latched.aux 0 (descriptorBytes s.store.node s.store.root) (.henc .pack) s.store s).of_eq
    fun s' h => by simp only [hencSerialize, h.latched, ← h.store]; rfl

theorem hencPack_moves (s : State) : Moves s hencPack :=
  (write_complete_moves s.latched.dst 0
      (payloadBytes s.store.code s.store.padBits (s.regionBytes s.latched.src)) s.store (hencResults s.store) s).of_eq
    fun s' h => by simp only [hencPack, h.latched, h.src, ← h.store]; rfl

theorem hencPhase_moves (p : HencPhase) (s : State) : Moves s (hencPhase p) := by
  cases p with
  | check => exact checkPhase_moves _ _ s
  | count => exact hencCount_moves s
  | build => exact hencBuild_moves s
  | codegen => exact hencCodegen_moves s
  | size => exact hencSize_moves s
  | serialize => exact hencSerialize_moves s
  | pack => exact hencPack_moves s

/-! ## HDEC -/

theorem hdecParse_moves {s : State} (hp : s.phase.command = .hdec) : Moves s hdecParse := by
  cases hd : parseDescriptor (s.regionBytes s.latched.aux) with
  | error e =>
    exact (raiseError_moves .beforeWrite e s).of_eq fun s' h => by simp only [hdecParse, h.latched, h.aux hp, hd]
  | ok t =>
    exact (quiet_moves (.hdec .header)
        { s.store with
          node := t.vars.node
          root := t.root
          nint := t.vars.nint
          seen := t.vars.seen
          bitPos := t.vars.pos
          leaves := t.vars.node.length - t.vars.nint
          maxDepth := t.vars.maxDepth } s).of_eq fun s' h => by
      simp only [hdecParse, h.latched, h.store, h.aux hp, hd]

theorem hdecHeader_moves (s : State) : Moves s hdecHeader := by
  cases hh : parseHeader (s.regionBytes s.latched.src) with
  | error e =>
    exact (raiseError_moves .beforeWrite e s).of_eq fun s' h => by simp only [hdecHeader, h.latched, h.src, hh]
  | ok hd =>
    exact (quiet_moves (.hdec .walk) { s.store with padBits := hd.1, dataBits := hd.2 } s).of_eq fun s' h => by
      simp only [hdecHeader, h.latched, h.store, h.src, hh]

theorem hdecSingleLeaf_moves (sym : Byte) (s : State) : Moves s (hdecSingleLeaf sym) := by
  by_cases hd : s.store.dataBits ≠ 0
  · exact (raiseError_moves .beforeWrite ⟨.paySingleLeafBits, 1⟩ s).of_eq fun s' h => by
      simp only [hdecSingleLeaf, h.store, if_pos hd]
  by_cases hl : s.latched.expLen.toNat > s.latched.dst.len
  · exact (raiseError_moves .beforeWrite ⟨.dstFull, s.latched.dst.len⟩ s).of_eq fun s' h => by
      simp only [hdecSingleLeaf, h.store, h.latched, if_neg hd, if_pos hl]
  · exact (write_moves s.latched.dst 0 (List.replicate s.latched.expLen.toNat sym) (.hdec .finish)
        { s.store with outPos := s.latched.expLen.toNat } s).of_eq fun s' h => by
      simp only [hdecSingleLeaf, h.store, h.latched, if_neg hd, if_neg hl]

theorem hdecWalkTree_moves (s : State) : Moves s hdecWalkTree := by
  cases hw : walkBits s.store.node s.store.root s.latched.dst.len
      (dataBitsOf (s.regionBytes s.latched.src) s.store.dataBits) s.store.root [] with
  | error e =>
    exact (raiseError_moves .afterWrite e s).of_eq fun s' h => by
      simp only [hdecWalkTree, h.latched, h.store, h.src, hw]
  | ok r =>
    exact (write_moves s.latched.dst 0 r.2 (.hdec .finish)
        { s.store with outPos := r.2.length, walkAt := r.1 } s).of_eq fun s' h => by
      simp only [hdecWalkTree, h.latched, h.store, h.src, hw]

theorem hdecWalk_moves (s : State) : Moves s hdecWalk := by
  cases hl : leafSym s.store.node s.store.root with
  | some sym => exact (hdecSingleLeaf_moves sym s).of_eq fun s' h => by simp only [hdecWalk, h.store, hl]
  | none => exact (hdecWalkTree_moves s).of_eq fun s' h => by simp only [hdecWalk, h.store, hl]

theorem hdecFinish_moves (s : State) : Moves s hdecFinish := by
  have hr : ∀ s', ReadsAlike s s' → hdecResults s' = hdecResults s := fun s' h => by
    simp only [hdecResults, h.latched, h.store]
  cases hl : leafSym s.store.node s.store.root with
  | some sym =>
    exact (complete_moves (hdecResults s) s).of_eq fun s' h => by simp only [hdecFinish, h.store, hl, hr s' h]
  | none =>
    by_cases hw : s.store.walkAt ≠ s.store.root
    · exact (raiseError_moves .afterWrite ⟨.payIncomplete, s.latched.src.len - 1⟩ s).of_eq fun s' h => by
        simp only [hdecFinish, h.store, h.latched, hl, if_pos hw]
    by_cases hc : s.latchedLenchk ∧ s.store.outPos ≠ s.latched.expLen.toNat
    · exact (raiseError_moves .afterWrite ⟨.hdecLengthMismatch, s.store.outPos⟩ s).of_eq fun s' h => by
        simp only [hdecFinish, h.store, h.latched, h.latchedLenchk, hl, if_neg hw, if_pos hc]
    · exact (complete_moves (hdecResults s) s).of_eq fun s' h => by
        simp only [hdecFinish, h.store, h.latched, h.latchedLenchk, hl, if_neg hw, if_neg hc, hr s' h]

theorem hdecPhase_moves (p : HdecPhase) {s : State} (hp : s.phase.command = .hdec) : Moves s (hdecPhase p) := by
  cases p with
  | check => exact checkPhase_moves _ _ s
  | parse => exact hdecParse_moves hp
  | header => exact hdecHeader_moves s
  | walk => exact hdecWalk_moves s
  | finish => exact hdecFinish_moves s

/-! ## LENC -/

theorem lencScan_moves (s : State) : Moves s lencScan := by
  cases hs : scanBytes s.params.dictCap s.latched.dst.len 0 (s.regionBytes s.latched.src)
      { dict := s.store.dict, cand := s.store.cand, codes := [] } with
  | error e =>
    exact (raiseError_moves .afterWrite e s).of_eq fun s' h => by
      simp only [lencScan, h.params, h.latched, h.store, h.src, hs]
  | ok t =>
    exact (write_moves s.latched.dst 0 (streamBytes t.codes) (.lenc .flush)
        { s.store with dict := t.dict, cand := t.cand, count := t.codes.length } s).of_eq fun s' h => by
      simp only [lencScan, h.params, h.latched, h.store, h.src, hs]

theorem lencFlush_moves (s : State) : Moves s lencFlush := by
  by_cases hc : s.store.cand = []
  · exact (complete_moves (lencResults s.store.count s.store.dict.length) s).of_eq fun s' h => by
      simp only [lencFlush, h.store, if_pos hc]
  cases he : emitCheck s.latched.dst.len s.store.count with
  | error e =>
    exact (raiseError_moves .afterWrite e s).of_eq fun s' h => by
      simp only [lencFlush, h.store, h.latched, if_neg hc, he]
  | ok _ =>
    exact (write_complete_moves s.latched.dst (4 * s.store.count)
        (bytesOfWord (codeOfString s.store.dict s.store.cand)) { s.store with count := s.store.count + 1 }
        (lencResults (s.store.count + 1) s.store.dict.length) s).of_eq fun s' h => by
      simp only [lencFlush, h.store, h.latched, if_neg hc, he]

theorem lencPhase_moves (p : LencPhase) (s : State) : Moves s (lencPhase p) := by
  cases p with
  | check => exact checkPhase_moves _ _ s
  | scan => exact lencScan_moves s
  | flush => exact lencFlush_moves s

/-! ## LDEC -/

theorem ldecFirst_moves (s : State) : Moves s ldecFirst := by
  by_cases hl : s.latched.src.len % 4 ≠ 0
  · exact (raiseError_moves .beforeWrite ⟨.partialWord, s.latched.src.len - s.latched.src.len % 4⟩ s).of_eq
      fun s' h => by simp only [ldecFirst, h.latched, if_pos hl]
  cases hk : codesOfBytes (s.regionBytes s.latched.src) with
  | nil =>
    exact (phase_moves (.ldec .finish) s).of_eq fun s' h => by
      simp only [ldecFirst, h.latched, h.src, if_neg hl, hk]
  | cons k ks =>
    by_cases hf : k ≥ 256
    · exact (raiseError_moves .beforeWrite ⟨.firstCode, 0⟩ s).of_eq fun s' h => by
        simp only [ldecFirst, h.latched, h.src, if_neg hl, hk, if_pos hf]
    cases he : emitString s.latched.dst.len (stringAt s.store.dict k) 0 with
    | error e =>
      exact (raiseError_moves .afterWrite e s).of_eq fun s' h => by
        simp only [ldecFirst, h.latched, h.store, h.src, if_neg hl, hk, if_neg hf, he]
    | ok p =>
      exact (write_moves s.latched.dst 0 (stringAt s.store.dict k) (.ldec .loop)
          { s.store with prev := stringAt s.store.dict k, outPos := p } s).of_eq fun s' h => by
        simp only [ldecFirst, h.latched, h.store, h.src, if_neg hl, hk, if_neg hf, he]

theorem ldecLoop_moves (s : State) : Moves s ldecLoop := by
  cases hu : unscanCodes s.params.dictCap s.latched.dst.len 1 ((codesOfBytes (s.regionBytes s.latched.src)).drop 1)
      { dict := s.store.dict, prev := s.store.prev, pos := s.store.outPos, out := [] } with
  | error e =>
    exact (raiseError_moves .afterWrite e s).of_eq fun s' h => by
      simp only [ldecLoop, h.params, h.latched, h.store, h.src, hu]
  | ok t =>
    exact (write_moves s.latched.dst s.store.outPos t.out (.ldec .finish)
        { s.store with dict := t.dict, prev := t.prev, outPos := t.pos } s).of_eq fun s' h => by
      simp only [ldecLoop, h.params, h.latched, h.store, h.src, hu]

theorem ldecFinish_moves (s : State) : Moves s ldecFinish := by
  by_cases hc : s.latchedLenchk ∧ s.store.outPos ≠ s.latched.expLen.toNat
  · exact (raiseError_moves .afterWrite ⟨.ldecLengthMismatch, s.store.outPos⟩ s).of_eq fun s' h => by
      simp only [ldecFinish, h.latchedLenchk, h.latched, h.store, if_pos hc]
  · exact (complete_moves (ldecResults s.store) s).of_eq fun s' h => by
      simp only [ldecFinish, h.latchedLenchk, h.latched, h.store, if_neg hc]

theorem ldecPhase_moves (p : LdecPhase) (s : State) : Moves s (ldecPhase p) := by
  cases p with
  | check => exact checkPhase_moves _ _ s
  | first => exact ldecFirst_moves s
  | loop => exact ldecLoop_moves s
  | finish => exact ldecFinish_moves s

/-- A turn of the core makes one move, and what it reads decides which. -/
theorem coreTurn_moves {s : State} (hb : s.busy = true) : Moves s coreTurn := by
  have hbusy : ∀ s', ReadsAlike s s' → s'.busy = true := fun s' h => by rw [State.busy, h.seqState]; exact hb
  cases hp : s.phase with
  | henc p =>
    exact (hencPhase_moves p s).of_eq fun s' h => by simp only [coreTurn, hbusy s' h, h.phase, hp, if_true]
  | hdec p =>
    exact (hdecPhase_moves p (by rw [hp]; rfl)).of_eq fun s' h => by
      simp only [coreTurn, hbusy s' h, h.phase, hp, if_true]
  | lenc p =>
    exact (lencPhase_moves p s).of_eq fun s' h => by simp only [coreTurn, hbusy s' h, h.phase, hp, if_true]
  | ldec p =>
    exact (ldecPhase_moves p s).of_eq fun s' h => by simp only [coreTurn, hbusy s' h, h.phase, hp, if_true]

end Sys2Proof.Machine
end

section
/-! Host writes beside a running command: a register write commutes with a turn, and a byte written outside the input
regions changes no register (R73, R132, R352, R353). -/

namespace Sys2Proof.Machine

/-! ## Register writes -/

theorem foldl_scrambleRegion_writeReg (r : Reg) (v : Word) : ∀ (l : List Region) (s : State),
    l.foldl (fun t q => scrambleRegion q t) (writeReg r v s) =
      writeReg r v (l.foldl (fun t q => scrambleRegion q t) s)
  | [], _ => rfl
  | q :: l, s => by
    have hq : scrambleRegion q (writeReg r v s) = writeReg r v (scrambleRegion q s) := by cases r <;> rfl
    rw [List.foldl_cons, hq]
    exact foldl_scrambleRegion_writeReg r v l _

/-- No host write of a register touches what a turn of the core reads, or the marks. -/
theorem readsAlike_writeReg (r : Reg) (v : Word) (s : State) : ReadsAlike s (writeReg r v s) := by
  cases r <;> exact ⟨rfl, rfl, rfl, rfl, rfl, rfl, fun _ _ => rfl⟩

theorem writeReg_marks (r : Reg) (v : Word) (s : State) :
    (writeReg r v s).inTouched = s.inTouched ∧ (writeReg r v s).outTouched = s.outTouched := by
  cases r <;> exact ⟨rfl, rfl⟩

theorem scrambleOutputs_writeReg (r : Reg) (v : Word) (s : State) :
    scrambleOutputs (writeReg r v s) = writeReg r v (scrambleOutputs s) := by
  have h := readsAlike_writeReg r v s
  rw [scrambleOutputs, h.phase, h.latched]
  exact foldl_scrambleRegion_writeReg r v _ s

theorem scrambleIf_writeReg (b : Bool) (r : Reg) (v : Word) (s : State) :
    scrambleIf b (writeReg r v s) = writeReg r v (scrambleIf b s) := by
  cases b
  · rfl
  · exact scrambleOutputs_writeReg r v s

section
variable {r : Reg} (hr : r ≠ .status) (v : Word) (s : State)
include hr

/-- A completion writes no register that the host's write does, other than STATUS. -/
theorem Ending.regs_writeReg (k : Ending) : k.regs (writeReg r v s) = writeReg r v (k.regs s) := by
  cases r with
  | status => exact absurd rfl hr
  | _ => cases k <;> rfl

theorem freeCompletion_writeReg : freeCompletion (writeReg r v s) = writeReg r v (freeCompletion s) := by
  simp only [freeCompletion, scrambleOutputs_writeReg]
  cases r with
  | status => exact absurd rfl hr
  | _ => rfl

theorem Ending.apply_writeReg (k : Ending) : k.apply (writeReg r v s) = writeReg r v (k.apply s) := by
  obtain ⟨hin, hout⟩ := writeReg_marks r v s
  simp only [Ending.apply, hin, hout, scrambleIf_writeReg, regs_writeReg hr, freeCompletion_writeReg hr]
  split <;> rfl

theorem Move.apply_writeReg (m : Move) : m.apply (writeReg r v s) = writeReg r v (m.apply s) := by
  have hw : m.write (writeReg r v s) = writeReg r v (m.write s) := by cases r <;> rfl
  simp only [Move.apply, hw]
  split
  · cases r <;> rfl
  · exact Ending.apply_writeReg hr v _ _

/-- A turn of the core after the write of a register other than STATUS, and the write after the turn, are the same. -/
theorem coreTurn_writeReg {t : State} (hb : s.busy = true) (h : coreTurn s = .next t) :
    coreTurn (writeReg r v s) = .next (writeReg r v t) := by
  obtain ⟨m, hm⟩ := coreTurn_moves hb
  cases (hm s (.refl s)).symm.trans h
  rw [hm _ (readsAlike_writeReg r v s), Move.apply_writeReg hr]

end

/-! ## A byte written outside the input regions -/

/-- The memories agree at every address but `a`. -/
def Memory.AgreesBut (a : Nat) (m m' : Memory) : Prop := ∀ c, c ≠ a → m'.byteAt c = m.byteAt c

theorem Memory.AgreesBut.set {a : Nat} {m m' : Memory} (h : m.AgreesBut a m') (d : Nat) (b : Byte) :
    Memory.AgreesBut a (m.set d b) (m'.set d b) := by
  intro c hc
  by_cases hd : d = c
  · rw [hd, Memory.byteAt_set_self, Memory.byteAt_set_self]
  · rw [Memory.byteAt_set_ne hd, Memory.byteAt_set_ne hd, h c hc]

theorem Memory.AgreesBut.setBytes {a : Nat} : ∀ (bs : List Byte) {m m' : Memory} (d : Nat), m.AgreesBut a m' →
    Memory.AgreesBut a (m.setBytes d bs) (m'.setBytes d bs)
  | [], _, _, _, h => h
  | b :: bs, _, _, d, h => setBytes bs (d + 1) (h.set d b)

/-- The states differ at most in the byte at `a` and in the mark of the output regions. -/
structure AlikeBut (a : Nat) (s s' : State) : Prop where
  eq : s' = { s with mem := s'.mem, outTouched := s'.outTouched }
  mem : s.mem.AgreesBut a s'.mem

theorem AlikeBut.readsAlike {a : Nat} {s s' : State} (h : AlikeBut a s s') (ha : s.inInput a = false) :
    ReadsAlike s s' := by
  refine ⟨?_, ?_, ?_, ?_, ?_, ?_, fun r hr => Memory.bytesAt_congr fun k hk => h.mem _ ?_⟩
  case refine_7 =>
    have hout := List.any_eq_false.mp ha r hr
    rw [Bool.not_eq_true, Region.has_eq_false_iff] at hout
    omega
  all_goals rw [h.eq]

theorem AlikeBut.inTouched {a : Nat} {s s' : State} (h : AlikeBut a s s') : s'.inTouched = s.inTouched := by rw [h.eq]

theorem AlikeBut.scrambleRegion {a : Nat} {s s' : State} (h : AlikeBut a s s') (r : Region) :
    AlikeBut a (scrambleRegion r s) (scrambleRegion r s') := by
  obtain ⟨heq, hm⟩ := h
  rw [heq]
  exact ⟨rfl, hm.setBytes _ _⟩

theorem AlikeBut.foldl_scrambleRegion {a : Nat} : ∀ (l : List Region) {s s' : State}, AlikeBut a s s' →
    AlikeBut a (l.foldl (fun t r => Machine.scrambleRegion r t) s) (l.foldl (fun t r => Machine.scrambleRegion r t) s')
  | [], _, _, h => h
  | r :: l, _, _, h => foldl_scrambleRegion l (h.scrambleRegion r)

theorem AlikeBut.scrambleOutputs {a : Nat} {s s' : State} (h : AlikeBut a s s') :
    AlikeBut a (scrambleOutputs s) (scrambleOutputs s') := by
  have hreg : outputRegions s'.phase.command s'.latched = outputRegions s.phase.command s.latched := by rw [h.eq]
  rw [Machine.scrambleOutputs, Machine.scrambleOutputs, hreg]
  exact h.foldl_scrambleRegion _

theorem AlikeBut.scrambleIf {a : Nat} {s s' : State} (h : AlikeBut a s s') (b : Bool) :
    AlikeBut a (scrambleIf b s) (scrambleIf b s') := by
  cases b
  · exact h
  · exact h.scrambleOutputs

theorem AlikeBut.write {a : Nat} {s s' : State} (h : AlikeBut a s s') (m : Move) :
    AlikeBut a (m.write s) (m.write s') := by
  obtain ⟨heq, hm⟩ := h
  rw [heq]
  exact ⟨rfl, hm.setBytes _ _⟩

theorem AlikeBut.regs {a : Nat} {s s' : State} (h : AlikeBut a s s') (k : Ending) :
    AlikeBut a (k.regs s) (k.regs s') := by
  obtain ⟨heq, hm⟩ := h
  rw [heq]
  cases k <;> exact ⟨rfl, hm⟩

theorem AlikeBut.freeCompletion {a : Nat} {s s' : State} (h : AlikeBut a s s') :
    AlikeBut a (freeCompletion s) (freeCompletion s') := by
  obtain ⟨heq, hm⟩ := h.scrambleOutputs
  rw [Machine.freeCompletion, Machine.freeCompletion, heq]
  exact ⟨rfl, hm⟩

/-- The states differ at most in BUF, the mark of the output regions and the count of free values. -/
def SameRegisters (t u : State) : Prop := u = { t with mem := u.mem, outTouched := u.outTouched, draws := u.draws }

theorem SameRegisters.symm {t u : State} (h : SameRegisters t u) : SameRegisters u t := by
  rw [SameRegisters, h]

theorem SameRegisters.trans {s t u : State} (h : SameRegisters s t) (h' : SameRegisters t u) : SameRegisters s u := by
  rw [SameRegisters, h', h]

theorem AlikeBut.sameRegisters {a : Nat} {s s' : State} (h : AlikeBut a s s') : SameRegisters s s' := by
  rw [SameRegisters, h.eq]

theorem scrambleIf_sameRegisters (b : Bool) (s : State) : SameRegisters s (scrambleIf b s) := by
  cases b
  · rfl
  · show SameRegisters s (scrambleOutputs s)
    rw [SameRegisters, (scrambleOutputs_scrambled s).eq]

theorem SameRegisters.regs {t u : State} (h : SameRegisters t u) (k : Ending) :
    SameRegisters (k.regs t) (k.regs u) := by
  rw [h]
  cases k <;> rfl

theorem Ending.apply_idle (k : Ending) (s : State) : (k.apply s).busy = false := by
  unfold Ending.apply
  split
  · rfl
  · cases k <;> rfl

/-- The byte outside the input regions reaches a completion only through the mark of the output regions. -/
theorem Ending.apply_alikeBut {a : Nat} {s s' : State} (h : AlikeBut a s s') (ho : s'.outTouched = s.outTouched)
    (k : Ending) : AlikeBut a (k.apply s) (k.apply s') := by
  rw [Ending.apply, Ending.apply, h.inTouched, ho]
  split
  · exact h.freeCompletion
  · exact (h.scrambleIf _).regs k

/-- The mark of the output regions reaches no register. -/
theorem Ending.apply_sameRegisters {a : Nat} {s s' : State} (h : AlikeBut a s s') (k : Ending) :
    SameRegisters (k.apply s) (k.apply s') := by
  rw [Ending.apply, Ending.apply, h.inTouched]
  split
  · exact h.freeCompletion.sameRegisters
  · exact (((scrambleIf_sameRegisters _ s).symm.trans h.sameRegisters).trans (scrambleIf_sameRegisters _ s')).regs k

theorem Ending.apply_outTouched (k : Ending) (s : State) : (k.apply s).outTouched = false := by
  unfold Ending.apply
  split
  · rfl
  · cases k <;> rfl

/-! ## The write beside a turn and beside a run -/

theorem RunsOn.inInput {s t : State} (h : RunsOn s t) (a : Nat) : t.inInput a = s.inInput a := by
  have hl : t.latched = s.latched := by rw [h.eq]
  rw [State.inInput, State.inInput, h.command, hl]

theorem RunsOn.inOutput {s t : State} (h : RunsOn s t) (a : Nat) : t.inOutput a = s.inOutput a := by
  have hl : t.latched = s.latched := by rw [h.eq]
  rw [State.inOutput, State.inOutput, h.command, hl]

theorem runTurns_idle {turn : State → Out} {s : State} (n : Nat) (h : s.busy = false) :
    runTurns turn n s = .next s := by
  cases n <;> simp [runTurns, h]

theorem runTurns_succ {turn : State → Out} {s t : State} (n : Nat) (hb : s.busy = true) (h : turn s = .next t) :
    runTurns turn (n + 1) s = runTurns turn n t := by
  rw [runTurns, if_pos hb, h]

/-- A difference in a byte outside the input regions stays one through any number of turns; in an output region it may
also change which output bytes become free. -/
theorem runTurns_beside {a : Nat} : ∀ (n : Nat) {s s' t : State}, s.busy = true → s.inInput a = false →
    AlikeBut a s s' → (s.inOutput a = false → s'.outTouched = s.outTouched) → runTurns coreTurn n s = .next t →
    ∃ u, runTurns coreTurn n s' = .next u ∧ SameRegisters t u ∧
      (s.inOutput a = false → AlikeBut a t u ∧ u.outTouched = t.outTouched)
  | 0, s, s', t, _, _, h, ho, ht => by
    cases ht
    exact ⟨s', rfl, h.sameRegisters, fun ha => ⟨h, ho ha⟩⟩
  | n + 1, s, s', t, hb, hin, h, ho, ht => by
    obtain ⟨m, hm⟩ := coreTurn_moves hb
    have hturn := hm s (.refl s)
    have hturn' := hm s' (h.readsAlike hin)
    have hb' : s'.busy = true := by rw [h.eq]; exact hb
    have hw := h.write m
    rw [runTurns_succ n hb hturn] at ht
    rw [runTurns_succ n hb' hturn']
    cases hnext : m.next with
    | inl p =>
      have hgo : ∀ x, m.apply x = { m.write x with phase := p } := fun x => by simp only [Move.apply, hnext]
      rw [hgo] at hturn ht ⊢
      have hr : RunsOn s { m.write s with phase := p } :=
        (coreTurn_turnsTo hb hturn).resolve_right fun he => Bool.noConfusion (hb.symm.trans he.busy)
      have halike : AlikeBut a { m.write s with phase := p } { m.write s' with phase := p } := by
        obtain ⟨heq, hmem⟩ := hw
        rw [heq]
        exact ⟨rfl, hmem⟩
      have hrest := runTurns_beside n (hr.busy.trans hb) ((hr.inInput a).trans hin) halike
        (fun ha => ho ((hr.inOutput a).symm.trans ha)) ht
      rwa [hr.inOutput a] at hrest
    | inr k =>
      have hend : ∀ x, m.apply x = k.apply (m.write x) := fun x => by simp only [Move.apply, hnext]
      rw [hend, runTurns_idle n (k.apply_idle _)] at ht
      cases ht
      rw [hend, runTurns_idle n (k.apply_idle _)]
      refine ⟨_, rfl, k.apply_sameRegisters hw, fun ha => ⟨k.apply_alikeBut hw (ho ha), ?_⟩⟩
      rw [k.apply_outTouched, k.apply_outTouched]

theorem coreTurn_eq_runTurns {s : State} (hb : s.busy = true) : coreTurn s = runTurns coreTurn 1 s := by
  obtain ⟨m, hm⟩ := coreTurn_moves hb
  rw [runTurns_succ 0 hb (hm s (.refl s)), hm s (.refl s), runTurns]

theorem TurnsTo.same {s t : State} (h : TurnsTo s t) :
    SameOutside (outputRegions s.phase.command s.latched) s t :=
  h.elim RunsOn.same Ended.same

/-- A byte that the host writes outside the input regions of a BUSY command differs, and nothing else that a turn
reads. -/
theorem alikeBut_writeBuf {s : State} {a : Nat} (b : Byte) (ha : s.inInput a = false) :
    AlikeBut a s (writeBuf a b s) where
  eq := by simp [writeBuf, ha]
  mem _ hc := Memory.byteAt_set_ne (Ne.symm hc)

/-- The second clause of O14, for any number of turns. -/
theorem runTurns_writeBuf {s t : State} {a n : Nat} {b : Byte} (hs : s.seqState = .busy) (hin : s.inInput a = false)
    (h : runTurns coreTurn n s = .next t) :
    ∃ u, runTurns coreTurn n (writeBuf a b s) = .next u ∧
      { u with mem := t.mem, outTouched := t.outTouched, draws := t.draws } = t ∧
      (t.seqState = .idle → u.outTouched = t.outTouched) ∧
      (s.inOutput a = false → u.outTouched = t.outTouched ∧ u.draws = t.draws ∧ u.byteAt a = b ∧
        ∀ c, c ≠ a → u.byteAt c = t.byteAt c) ∧
      (s.inOutput a = true → SameOutside (outputRegions s.phase.command s.latched) t u) := by
  obtain ⟨u, hu, hreg, halike⟩ := runTurns_beside n (busy_iff.mpr hs) hin (alikeBut_writeBuf b hin)
    (fun ha => by simp [ha]) h
  have ht : TurnsTo s t := runTurns_turnsTo (fun _ _ => coreTurn_turnsTo) n s t h
  have hu' : TurnsTo (writeBuf a b s) u := runTurns_turnsTo (fun _ _ => coreTurn_turnsTo) n _ u hu
  refine ⟨u, hu, Eq.symm hreg.symm, fun hi => ?_, fun ha => ?_, fun ha c hc => ?_⟩
  · have hui : u.seqState = .idle := by rw [hreg]; exact hi
    rw [(TurnsTo.ended (s := writeBuf a b s) hs hui hu').marks.2, (ht.ended hs hi).marks.2]
  · obtain ⟨hal, hmark⟩ := halike ha
    refine ⟨hmark, by rw [hal.eq], ?_, hal.mem⟩
    calc u.byteAt a = (writeBuf a b s).byteAt a := hu'.same a ha
      _ = b := Memory.byteAt_set_self s.mem a b
  · have hne : a ≠ c := fun hac => by
      rw [← hac] at hc
      exact Bool.noConfusion (ha.symm.trans hc)
    calc u.byteAt c = (writeBuf a b s).byteAt c := hu'.same c hc
      _ = s.byteAt c := Memory.byteAt_set_ne hne
      _ = t.byteAt c := (ht.same c hc).symm

/-- Settles O14: a turn is a run of one turn, and the core's run one of `maxPhases`. -/
theorem hostWriteCommutesWithCore : Obligations.HostWriteCommutesWithCore := by
  refine ⟨fun s t r v hs _ hr h => coreTurn_writeReg hr v s (busy_iff.mpr hs) h, ?_⟩
  intro s t a b run hrun hs hin h
  rcases hrun with rfl | rfl
  · rw [coreTurn_eq_runTurns (busy_iff.mpr hs)] at h
    rw [coreTurn_eq_runTurns (s := writeBuf a b s) (busy_iff.mpr hs)]
    exact runTurns_writeBuf hs hin h
  · exact runTurns_writeBuf hs hin h

end Sys2Proof.Machine
end

section
/-! Command words: the decoder and the encoder invert each other (R90, R91). -/

namespace Sys2Proof

/-- The fields of an encoded command word (R90). -/
theorem encode_fields (i : Instr) : Laws.CommandFields.Statement i := by
  cases i with
  | henc => exact Laws.CommandFields.henc
  | hdec => exact Laws.CommandFields.hdec
  | lenc => exact Laws.CommandFields.lenc
  | ldec => exact Laws.CommandFields.ldec

/-- A command word is its two fields, one after the other (R90). -/
theorem mbzField_append_opField (w : Word) : mbzField w ++ opField w = w :=
  (BitVec.extractLsb'_append_extractLsb'_eq_extractLsb' rfl).trans BitVec.extractLsb'_eq_self

theorem decodeOp_opcode (i : Instr) : decodeOp i.opcode = .ok i := by cases i <;> rfl

/-- The opcode decides the command (R91). -/
theorem decodeOp_ok {op : BitVec 4} {i : Instr} (h : decodeOp op = .ok i) : op = i.opcode := by
  unfold decodeOp at h
  split at h
  · next ho => cases h; exact ho
  split at h
  · next ho => cases h; exact ho
  split at h
  · next ho => cases h; exact ho
  split at h
  · next ho => cases h; exact ho
  · cases h

theorem decode_encode (i : Instr) : decode (encode i) = .ok i := by
  obtain ⟨hop, hmbz, -⟩ := encode_fields i
  rw [decode, if_pos hmbz, hop, decodeOp_opcode]

/-- A word selects a command only if all its 32 bits are those of the command's word (R91). -/
theorem decode_eq_ok_iff {w : Word} {i : Instr} : decode w = .ok i ↔ w = encode i := by
  refine ⟨fun h => ?_, fun h => h ▸ decode_encode i⟩
  unfold decode at h
  split at h
  · next hmbz => rw [← mbzField_append_opField w, hmbz, decodeOp_ok h, encode]
  · cases h

/-- The 32 bits of a table row are decoded as the word they are. -/
theorem decodeTableWord_toNat {w : Word} {i : Instr} (h : decode w = .ok i) :
    decodeTableWord 32 w.toNat = some i := by
  simp [decodeTableWord, Nat.mod_eq_of_lt w.isLt, w.isLt, h]

theorem commandWordWf_encode {i : Instr} (h : i.wf = true) : commandWordWf (encode i) = true := by
  obtain ⟨hop, hmbz, -⟩ := encode_fields i
  rw [opField] at hop
  rw [mbzField] at hmbz
  rw [commandWordWf, hop, hmbz]
  exact h

/-- Settles O1: decoding is the inverse of encoding, and these are the four encoded words. -/
theorem decodeIffCommandWord : Obligations.DecodeIffCommandWord := fun _ =>
  ⟨decode_eq_ok_iff, decode_eq_ok_iff, decode_eq_ok_iff, decode_eq_ok_iff⟩

/-- Settles O2. -/
theorem decodeEncode : Obligations.DecodeEncode := fun i hi =>
  ⟨decode_encode i, decodeTableWord_toNat (decode_encode i), commandWordWf_encode hi⟩

end Sys2Proof
end

section
/-! The bit string of a tree, and PARSE as its inverse (R104 to R106, R202 to R205). -/

namespace Sys2Proof.Machine

/-! ## Padding and packing -/

/-- Padding goes up to the next byte boundary (R106). -/
theorem length_padBits (bs : BitString) : (padBits bs).length = 8 * ((bs.length + 7) / 8) := by
  simp only [padBits, padLen, List.length_append, List.length_replicate]
  omega

theorem length_packBits : ∀ bs : BitString, (packBits bs).length = bs.length / 8
  | _ :: _ :: _ :: _ :: _ :: _ :: _ :: _ :: rest => by
    simp only [packBits, List.length_cons, length_packBits rest]
    omega
  | [] | [_] | [_, _] | [_, _, _] | [_, _, _, _] | [_, _, _, _, _] | [_, _, _, _, _, _]
  | [_, _, _, _, _, _, _] => by simp [packBits]

theorem length_packBits_padBits (bs : BitString) : (packBits (padBits bs)).length = (bs.length + 7) / 8 := by
  rw [length_packBits, length_padBits, Nat.mul_div_cancel_left _ (by decide)]

theorem unpackBits_packBits_padBits (bs : BitString) : unpackBits (packBits (padBits bs)) = padBits bs :=
  unpackBits_packBits _ (by rw [length_padBits, Nat.mul_mod_right])

/-! ## The size of a tree and of its bit string -/

/-- A tree with L leaves has 10·L − 1 bits (R106). -/
theorem HTree.length_bits_add_one : ∀ t : HTree, t.bits.length + 1 = 10 * t.syms.length
  | .leaf _ => rfl
  | .node l r => by
    have hl := l.length_bits_add_one
    have hr := r.length_bits_add_one
    simp only [HTree.bits, HTree.syms, List.length_cons, List.length_append]
    omega

/-- A tree is less deep than it has leaves. -/
theorem HTree.depth_lt : ∀ t : HTree, t.depth < t.syms.length
  | .leaf _ => Nat.one_pos
  | .node l r => by
    have hl := l.depth_lt
    have hr := r.depth_lt
    simp only [HTree.depth, HTree.syms, List.length_append]
    omega

/-- Distinct bytes are at most 256. -/
theorem length_le_of_nodup {l : List Byte} (h : l.Nodup) : l.length ≤ 256 := by
  have hle := (List.subperm_of_subset h fun s _ => mem_symbols s).length_le
  rwa [symbols, List.length_map, List.length_range] at hle

/-- The serializer emits the bits of the tree that NODE holds (R105). -/
theorem treeBits_isTree {node : List Node} : ∀ {t : HTree} {n fuel : Nat}, IsTree node n t → t.depth < fuel →
    treeBits node fuel n = t.bits
  | .leaf s, n, fuel + 1, ⟨w, hn⟩, _ => by rw [treeBits, hn]; rfl
  | .node l r, n, fuel + 1, ⟨w, a, b, hn, ha, hb⟩, hf => by
    rw [HTree.depth] at hf
    rw [treeBits, hn]
    show false :: (treeBits node fuel a ++ treeBits node fuel b) = _
    rw [treeBits_isTree ha (by omega), treeBits_isTree hb (by omega), HTree.bits]

/-- The descriptor of an input's tree is that tree's descriptor (R104, R105). -/
theorem hencTree_bits {x : List Byte} (hx : x ≠ []) :
    ∃ t, IsTree (hencTree x).node (hencTree x).root t ∧ t.syms.length = distinctCount x ∧
      treeBits (hencTree x).node (hencTree x).node.length (hencTree x).root = t.bits ∧
      descriptorBytes (hencTree x).node (hencTree x).root = t.descriptor := by
  obtain ⟨t, ht, hp, hn⟩ := hencTree_isTree hx
  have hbits : treeBits (hencTree x).node (hencTree x).node.length (hencTree x).root = t.bits :=
    treeBits_isTree ht (by have := t.size_add_one; have := t.depth_lt; omega)
  exact ⟨t, ht, hp.length_eq.trans (length_keys_freqTable x), hbits, by rw [descriptorBytes, hbits, HTree.descriptor]⟩

theorem HTree.length_descriptor (t : HTree) : t.descriptor.length = 1 + (t.bits.length + 7) / 8 := by
  rw [HTree.descriptor, List.length_cons, length_packBits_padBits, Nat.add_comm]

/-- Settles O20: NODE holds a tree with as many leaves as the input has distinct bytes. -/
theorem descriptorLength : Obligations.DescriptorLength := by
  intro x hx
  obtain ⟨t, -, hl, hbits, hdesc⟩ := hencTree_bits hx
  have hlen : t.bits.length = 10 * distinctCount x - 1 := by
    rw [← hl]; exact Nat.eq_sub_of_add_eq t.length_bits_add_one
  rw [hbits, hdesc, t.length_descriptor, hlen]
  exact ⟨rfl, rfl⟩

/-! ## What PARSE leaves of a tree -/

/-- The records that PARSE appends for a tree whose first record has index `n`: the nodes in pre-order, with weight 0
(R202). -/
def HTree.records : HTree → Nat → List Node
  | .leaf s, _ => [.leaf 0 s]
  | .node l r, n => .internal 0 (n + 1) (n + 1 + l.size) :: (l.records (n + 1) ++ r.records (n + 1 + l.size))

@[simp] theorem HTree.length_records : ∀ (t : HTree) (n : Nat), (t.records n).length = t.size
  | .leaf _, _ => rfl
  | .node l r, n => by
    simp only [HTree.records, HTree.size, List.length_cons, List.length_append, l.length_records, r.length_records]
    omega

/-- The records of a tree, where they stand, form that tree (R38). -/
theorem isTree_records : ∀ (t : HTree) (before : List Node),
    IsTree (before ++ t.records before.length) before.length t
  | .leaf s, before => ⟨0, List.getElem?_concat_length⟩
  | .node l r, before => by
    have hl := isTree_records l (before ++ [.internal 0 (before.length + 1) (before.length + 1 + l.size)])
    have hr := isTree_records r (before ++ .internal 0 (before.length + 1) (before.length + 1 + l.size) ::
      l.records (before.length + 1))
    simp only [List.length_append, List.length_cons, List.length_nil, HTree.length_records,
      show before.length + (l.size + 1) = before.length + 1 + l.size by omega] at hl hr
    refine ⟨0, before.length + 1, before.length + 1 + l.size, by simp [HTree.records], ?_, ?_⟩
    · simpa [HTree.records] using hl.append (r.records (before.length + 1 + l.size))
    · simpa [HTree.records] using hr

/-- SEEN with the bits of the given symbols set (R203). -/
def markSeen (seen : BitVec 256) (ss : List Byte) : BitVec 256 :=
  ss.foldl (fun m s => m ||| (1#256 <<< s.toNat)) seen

@[simp] theorem markSeen_append (seen : BitVec 256) (ss ts : List Byte) :
    markSeen seen (ss ++ ts) = markSeen (markSeen seen ss) ts := List.foldl_append

/-- One symbol's bit in SEEN, after another's was set. -/
theorem getLsbD_mark (seen : BitVec 256) (c s : Byte) :
    (seen ||| (1#256 <<< c.toNat)).getLsbD s.toNat = (seen.getLsbD s.toNat || decide (s = c)) := by
  have hs : s.toNat < 256 := s.isLt
  have heq : s = c ↔ s.toNat = c.toNat := BitVec.toNat_inj.symm
  have hbit : (1#256 <<< c.toNat).getLsbD s.toNat = decide (s = c) := by
    rw [Bool.eq_iff_iff, decide_eq_true_iff, heq]
    simp only [BitVec.getLsbD_shiftLeft, BitVec.getLsbD_one, Bool.and_eq_true, Bool.not_eq_true', decide_eq_true_iff,
      decide_eq_false_iff_not]
    omega
  rw [BitVec.getLsbD_or, hbit]

theorem getLsbD_markSeen (ss : List Byte) (seen : BitVec 256) (s : Byte) :
    (markSeen seen ss).getLsbD s.toNat = (seen.getLsbD s.toNat || decide (s ∈ ss)) := by
  induction ss generalizing seen with
  | nil => simp [markSeen]
  | cons c ss ih =>
    have hcons : markSeen seen (c :: ss) = markSeen (seen ||| (1#256 <<< c.toNat)) ss := rfl
    rw [hcons, ih, getLsbD_mark, Bool.or_assoc]
    simp

/-- The variables of PARSE after a tree at depth `d` was parsed from them, with `rest` still to be consumed (R202). -/
def Parse.afterTree (p : Parse) (rest : BitString) (d : Nat) (t : HTree) : Parse :=
  { rest := rest
    pos := p.pos + t.bits.length
    node := p.node ++ t.records p.node.length
    nint := p.nint + (t.syms.length - 1)
    seen := markSeen p.seen t.syms
    maxDepth := max p.maxDepth (d + t.depth) }

/-! ## PARSE reads a tree's bits back -/

/-- The next bits of a number are consumed one by one (R202). -/
theorem getBits_append (a : Nat) (rest : BitString) : ∀ (bs : BitString) (n : Nat) (p : Parse), p.rest = bs ++ rest →
    getBits a bs.length n p =
      .ok (bs.foldl (fun n b => 2 * n + b.toNat) n, { p with rest := rest, pos := p.pos + bs.length })
  | [], n, p, h => by
    rw [List.nil_append] at h
    subst h
    rfl
  | b :: bs, n, p, h => by
    rw [List.length_cons, getBits, getBit_cons a p b (bs ++ rest) h]
    show getBits a bs.length (2 * n + b.toNat) { p with rest := bs ++ rest, pos := p.pos + 1 } = _
    rw [getBits_append a rest bs _ _ rfl, List.foldl_cons, Nat.add_assoc, Nat.add_comm 1]

/-- The eight bits of a symbol are read back as that symbol (R202). -/
theorem getBits_bin8 (a : Nat) (s : Byte) {rest : BitString} {p : Parse} (h : p.rest = bin8 s ++ rest) :
    getBits a 8 0 p = .ok (natOfBits (bin8 s), { p with rest := rest, pos := p.pos + 8 }) :=
  getBits_append a rest (bin8 s) 0 p h

/-- PARSE of a leaf whose symbol is new (R202, R203). -/
theorem parseNode_leaf {a fuel d : Nat} {s : Byte} {rest : BitString} {p : Parse}
    (h : p.rest = (HTree.leaf s).bits ++ rest) (hs : p.seen.getLsbD s.toNat = false) :
    parseNode a (fuel + 1) d p = .ok (p.node.length, p.afterTree rest d (.leaf s)) := by
  have hbits : getBits a 8 0 { p with rest := bin8 s ++ rest, pos := p.pos + 1 } =
      .ok (natOfBits (bin8 s), { p with rest := rest, pos := p.pos + 1 + 8 }) := getBits_bin8 a s rfl
  have hnew : checkSymbol s { p with rest := rest, pos := p.pos + 1 + 8 } =
      .ok { p with rest := rest, pos := p.pos + 1 + 8, seen := p.seen ||| (1#256 <<< s.toNat) } := checkSymbol_new hs
  rw [parseNode, getBit_cons a p true (bin8 s ++ rest) h]
  simp only [hbits, natOfBits_bin8, hnew]
  rfl

/-- The variables of PARSE once the bit of an internal node is consumed and its record is made (R202, R204). -/
def Parse.openNode (p : Parse) (bits : BitString) : Parse :=
  { p with rest := bits, pos := p.pos + 1, nint := p.nint + 1, node := p.node ++ [.internal 0 0 0] }

/-- The variables of PARSE once record `n` holds the children `i` and `j` (R202). -/
def Parse.setChildren (p : Parse) (n i j : Nat) : Parse := { p with node := p.node.set n (.internal 0 i j) }

/-- PARSE of an internal node: its record and its count, its two children, and their indices in the record (R202,
R204). -/
theorem parseNode_internal {a fuel d : Nat} {bits : BitString} {p q u : Parse} {i j : Nat} (h : p.rest = false :: bits)
    (hn : p.nint + 1 ≠ 256) (hq : parseNode a fuel (d + 1) (p.openNode bits) = .ok (i, q))
    (hu : parseNode a fuel (d + 1) (q.setChildren p.node.length i 0) = .ok (j, u)) :
    parseNode a (fuel + 1) d p = .ok (p.node.length, u.setChildren p.node.length i j) := by
  have hint : checkInternal { p with rest := bits, pos := p.pos + 1 } =
      .ok { p with rest := bits, pos := p.pos + 1, nint := p.nint + 1 } := checkInternal_ok hn
  rw [Parse.openNode] at hq
  rw [Parse.setChildren] at hu
  rw [parseNode, getBit_cons a p false bits h]
  simp only [hint, hq, hu]
  rfl

/-- The variables of PARSE after an internal node's left child, whose index is in the record. -/
def Parse.afterLeft (p : Parse) (rest : BitString) (d : Nat) (l : HTree) : Parse :=
  ((p.openNode (l.bits ++ rest)).afterTree rest (d + 1) l).setChildren p.node.length (p.node.length + 1) 0

theorem Parse.afterLeft_node (p : Parse) (rest : BitString) (d : Nat) (l : HTree) :
    (p.afterLeft rest d l).node = p.node ++ .internal 0 (p.node.length + 1) 0 :: l.records (p.node.length + 1) := by
  simp [afterLeft, openNode, afterTree, setChildren]

theorem Parse.length_afterLeft_node (p : Parse) (rest : BitString) (d : Nat) (l : HTree) :
    (p.afterLeft rest d l).node.length = p.node.length + 1 + l.size := by
  rw [afterLeft_node, List.length_append, List.length_cons, HTree.length_records]; omega

/-- The variables after both children are those after the whole tree. -/
theorem Parse.afterTree_afterLeft (p : Parse) (rest : BitString) (d : Nat) (l r : HTree) :
    ((p.afterLeft (r.bits ++ rest) d l).afterTree rest (d + 1) r).setChildren p.node.length (p.node.length + 1)
      (p.node.length + 1 + l.size) = p.afterTree rest d (.node l r) := by
  have hl := l.depth_lt
  have hr := r.depth_lt
  simp only [setChildren, afterTree, afterLeft_node, Parse.mk.injEq, true_and]
  refine ⟨?_, ?_, ?_, ?_, ?_⟩
  · simp only [afterLeft, openNode, afterTree, setChildren, HTree.bits, List.length_cons, List.length_append]
    omega
  · simp [HTree.records, Nat.add_assoc, Nat.add_comm 1]
  · simp only [afterLeft, openNode, afterTree, setChildren, HTree.syms, List.length_append]
    omega
  · exact (markSeen_append _ _ _).symm
  · simp only [afterLeft, openNode, afterTree, setChildren, HTree.depth]
    omega

/-- PARSE of the bits of a tree whose symbols are distinct and new, with the bounds of R204 kept, reads that tree. -/
theorem parseNode_tree {a : Nat} : ∀ (t : HTree) {fuel d : Nat} {rest : BitString} {p : Parse},
    p.rest = t.bits ++ rest → t.depth < fuel → p.nint + t.syms.length ≤ 256 → t.syms.Nodup →
    (∀ s ∈ t.syms, p.seen.getLsbD s.toNat = false) →
    parseNode a fuel d p = .ok (p.node.length, p.afterTree rest d t)
  | .leaf s, fuel + 1, _, _, _, h, _, _, _, hseen => parseNode_leaf h (hseen s (by simp [HTree.syms]))
  | .node l r, fuel + 1, d, rest, p, h, hf, hn, hd, hseen => by
    obtain ⟨hdl, hdr, hdis⟩ := List.nodup_append'.mp hd
    have hlpos := l.depth_lt
    have hrpos := r.depth_lt
    rw [HTree.depth] at hf
    rw [HTree.syms, List.length_append] at hn
    have hbits : p.rest = false :: (l.bits ++ (r.bits ++ rest)) := by
      rw [h, HTree.bits, List.cons_append, List.append_assoc]
    have hleft : parseNode a fuel (d + 1) (p.openNode (l.bits ++ (r.bits ++ rest))) = _ :=
      parseNode_tree l rfl (by omega) (by show p.nint + 1 + _ ≤ 256; omega) hdl
        fun s hs => hseen s (List.mem_append_left _ hs)
    have hright : parseNode a fuel (d + 1) (p.afterLeft (r.bits ++ rest) d l) = _ :=
      parseNode_tree r rfl (by omega) (by show p.nint + 1 + (l.syms.length - 1) + _ ≤ 256; omega) hdr fun s hs => by
        show (markSeen p.seen l.syms).getLsbD s.toNat = false
        have hsl : s ∉ l.syms := fun hsl => hdis hsl hs
        simpa [getLsbD_markSeen, hsl] using hseen s (List.mem_append_right _ hs)
    have hi : (p.openNode (l.bits ++ (r.bits ++ rest))).node.length = p.node.length + 1 := by simp [Parse.openNode]
    rw [hi] at hleft
    rw [Parse.length_afterLeft_node] at hright
    rw [parseNode_internal hbits (by omega) hleft hright, Parse.afterTree_afterLeft]

/-! ## PARSE of a descriptor -/

/-- The variables that PARSE begins with (R202). -/
def Parse.start (bits : BitString) : Parse :=
  { rest := bits, pos := 0, node := [], nint := 0, seen := 0, maxDepth := 0 }

/-- PARSE of a version 1 descriptor is the parse of the root, and then the checks of the tail (R201, R205). -/
theorem parseDescriptor_ok {area : List Byte} {n : Nat} {p : Parse}
    (hp : parseNode (1#8 :: area).length parseFuel 0 (.start (unpackBits area)) = .ok (n, p))
    (ht : checkTail (1#8 :: area).length (unpackBits area) p = .ok ()) :
    parseDescriptor (1#8 :: area) = .ok ⟨n, p⟩ := by
  rw [Parse.start] at hp
  rw [parseDescriptor, if_neg (by decide)]
  simp only [hp, ht]

/-- The tail checks pass where all bits after the tree are zero and the tree's bytes are all the descriptor holds
(R205). -/
theorem checkTail_padBits {a : Nat} {bits : BitString} {p : Parse} (hp : p.pos = bits.length)
    (ha : a = 1 + (bits.length + 7) / 8) : checkTail a (padBits bits) p = .ok () := by
  have hpad : (((padBits bits).take (8 * ((bits.length + 7) / 8))).drop bits.length).any id = false := by
    rw [← length_padBits, List.take_length, padBits, List.drop_left]
    simp
  simp only [checkTail, hp, hpad, ha, gt_iff_lt, lt_irrefl, if_false]
  rfl

/-- PARSE of the descriptor of a tree with distinct symbols leaves the tree's records (R105, R202 to R205). -/
theorem parseDescriptor_descriptor {t : HTree} (hd : t.syms.Nodup) :
    parseDescriptor t.descriptor =
      .ok ⟨0, (Parse.start (padBits t.bits)).afterTree (List.replicate (padLen t.bits.length) false) 0 t⟩ := by
  have hle := length_le_of_nodup hd
  have hdepth := t.depth_lt
  have harea := unpackBits_packBits_padBits t.bits
  refine parseDescriptor_ok ?_ ?_
  · rw [harea]
    refine parseNode_tree t rfl ?_ ?_ hd fun s _ => by simp [Parse.start]
    · rw [parseFuel]; omega
    · show 0 + _ ≤ 256
      omega
  · rw [harea]
    exact checkTail_padBits (Nat.zero_add _) t.length_descriptor

/-- Settles O25: PARSE leaves the records of the tree, which form it. -/
theorem parseInvertsSerialize : Obligations.ParseInvertsSerialize := by
  intro t hd
  refine ⟨_, parseDescriptor_descriptor hd, isTree_records t [], ?_, ?_, ?_, ?_⟩
  · exact (Nat.zero_add _).trans (Nat.eq_sub_of_add_eq t.length_bits_add_one)
  · exact (t.length_records 0).trans (Nat.eq_sub_of_add_eq t.size_add_one)
  · exact Nat.zero_add _
  · simp [Parse.afterTree, Parse.start]

end Sys2Proof.Machine
end

section
/-! The bounds of an LZW code stream (R109, R241 to R247). -/

namespace Sys2Proof.Machine

theorem length_seedDict : seedDict.length = 256 := by rw [seedDict, List.length_map, List.length_range]

/-- Every one-byte string is seeded (R241). -/
theorem singleton_mem_seedDict (b : Byte) : [b] ∈ seedDict :=
  List.mem_map.mpr ⟨b.toNat, List.mem_range.mpr b.isLt, by simp⟩

/-- The code of an entry is below NEXT (R242). -/
theorem codeOfString_lt {dict : List (List Byte)} {w : List Byte} (h : w ∈ dict) :
    codeOfString dict w < dict.length := List.idxOf_lt_length_iff.mpr h

/-- Code i of the codes is at most 256 + i − 1 (R109). -/
def CodesBounded (codes : List Nat) : Prop := ∀ i c, codes[i]? = some c → c < 256 + i

theorem CodesBounded.nil : CodesBounded [] := fun _ _ h => by simp at h

theorem CodesBounded.concat {codes : List Nat} {c : Nat} (h : CodesBounded codes) (hc : c < 256 + codes.length) :
    CodesBounded (codes ++ [c]) := by
  intro i k hk
  rcases Nat.lt_trichotomy i codes.length with hi | rfl | hi
  · exact h i k (by rwa [List.getElem?_append_left hi] at hk)
  · rw [List.getElem?_concat_length] at hk
    cases hk
    exact hc
  · rw [List.getElem?_eq_none (by simpa using hi)] at hk
    cases hk

/-- What SCAN keeps from its first byte on, with `n` bytes scanned: DICT holds the seed and one entry for each code, the
candidate is an entry, and fewer codes than bytes have been emitted, all within their bounds. -/
structure Scanning (n : Nat) (s : Scan) : Prop where
  seeded : seedDict ⊆ s.dict
  size : s.dict.length = 256 + s.codes.length
  cand : s.cand ∈ s.dict
  nonempty : s.cand ≠ []
  fewer : s.codes.length < n
  bounded : CodesBounded s.codes

/-- The code of the candidate, emitted next, keeps the bounds. -/
theorem Scanning.bounded_emit {n : Nat} {s : Scan} (h : Scanning n s) :
    CodesBounded (s.codes ++ [codeOfString s.dict s.cand]) :=
  h.bounded.concat (h.size ▸ codeOfString_lt h.cand)

/-- The first byte is a seeded candidate. -/
theorem scanning_first (b : Byte) : Scanning 1 { dict := seedDict, cand := [b], codes := [] } where
  seeded := List.Subset.refl _
  size := length_seedDict
  cand := singleton_mem_seedDict b
  nonempty := List.cons_ne_nil _ _
  fewer := Nat.one_pos
  bounded := .nil

/-- A byte that extends the candidate (R242). -/
theorem Scanning.extend {n : Nat} {s : Scan} {b : Byte} (h : Scanning n s) (hb : s.cand ++ [b] ∈ s.dict) :
    Scanning (n + 1) { s with cand := s.cand ++ [b] } where
  seeded := h.seeded
  size := h.size
  cand := hb
  nonempty := by simp
  fewer := h.fewer.trans (Nat.lt_succ_self n)
  bounded := h.bounded

/-- A byte that emits the candidate's code and inserts an entry (R242). -/
theorem Scanning.insert {n : Nat} {s : Scan} {b : Byte} (h : Scanning n s) :
    Scanning (n + 1)
      { dict := s.dict ++ [s.cand ++ [b]], cand := [b], codes := s.codes ++ [codeOfString s.dict s.cand] } where
  seeded _ hw := List.mem_append_left _ (h.seeded hw)
  size := by simp only [List.length_append, List.length_singleton, h.size, Nat.add_assoc]
  cand := List.mem_append_left _ (h.seeded (singleton_mem_seedDict b))
  nonempty := List.cons_ne_nil _ _
  fewer := by simpa using h.fewer
  bounded := h.bounded_emit

theorem Scanning.lzwScan : ∀ (bs : List Byte) {n : Nat} {s : Scan}, Scanning n s →
    Scanning (n + bs.length) (lzwScan bs s)
  | [], _, _, h => h
  | b :: bs, n, s, h => by
    rw [List.length_cons, Nat.add_comm bs.length, ← Nat.add_assoc, Machine.lzwScan]
    split
    · next hb => exact Scanning.lzwScan bs (h.extend hb)
    · exact Scanning.lzwScan bs h.insert

/-- SCAN over a non-empty input (R242). -/
theorem scanning_lzwScan (b : Byte) (bs : List Byte) :
    Scanning (bs.length + 1) (lzwScan (b :: bs) { dict := seedDict, cand := [], codes := [] }) := by
  rw [Machine.lzwScan, if_pos (by exact singleton_mem_seedDict b), Nat.add_comm]
  exact Scanning.lzwScan bs (scanning_first b)

/-- The codes of a non-empty input: those of SCAN, and the code of its last candidate (R243). -/
theorem lzwCodes_cons (b : Byte) (bs : List Byte) : ∃ s, Scanning (bs.length + 1) s ∧
    lzwCodes (b :: bs) = s.codes ++ [codeOfString s.dict s.cand] :=
  ⟨_, scanning_lzwScan b bs, if_neg (scanning_lzwScan b bs).nonempty⟩

/-- Settles O36: SCAN keeps the bounds, and the last candidate's code keeps them too. -/
theorem lzwCodeBounds : Obligations.LzwCodeBounds := by
  intro x
  cases x with
  | nil => exact ⟨fun i c h => by simp [lzwCodes, lzwScan] at h, fun h => absurd rfl h, le_refl _⟩
  | cons b bs =>
    obtain ⟨s, hs, hcodes⟩ := lzwCodes_cons b bs
    have hlen : (lzwCodes (b :: bs)).length = s.codes.length + 1 := by rw [hcodes]; simp
    have hfewer := hs.fewer
    refine ⟨fun i c h => ?_, fun _ => by omega, by rw [List.length_cons]; omega⟩
    rw [hcodes] at h
    have hc := hs.bounded_emit i c h
    exact ⟨hc, fun hi => by omega⟩

end Sys2Proof.Machine
end

section
/-! Host scripts: what a `go` and a `wait` come to (R120 to R122, R130, R360). -/

namespace Sys2Proof.Machine

/-! ## Transactions of the register window -/

/-- Offset `off` of the register window is no address of BUF (R66). -/
def WindowClear (p : Params) (off : Nat) : Prop :=
  ¬ (p.bufHostBase ≤ p.csrBase + off ∧ p.csrBase + off < p.bufHostBase + p.memSize)

/-- The bus routes a transaction at a register's address to that register (R66, R121). -/
theorem route_read (r : Reg) {p : Params} (h : WindowClear p r.offset) :
    route p ⟨p.csrBase + r.offset, 4, none⟩ = .ok (.regRead r.offset 4) := by
  rw [WindowClear] at h
  simp [route, h, (offset_aligned r).2]

theorem route_write (r : Reg) (v : Word) {p : Params} (h : WindowClear p r.offset) :
    route p ⟨p.csrBase + r.offset, 4, some v⟩ = .ok (.regWrite r.offset 4 v) := by
  rw [WindowClear] at h
  simp [route, h, (offset_aligned r).2]

/-- A routed transaction is served as the access that it makes. -/
theorem step_bus {t : Transaction} {a : Access} {s : State} {rest : List Event} (hr : route s.params t = .ok a)
    (h : s.events = .bus t :: rest) : step s = serve (.access a) { s with events := rest } := by
  rw [step_cons h]
  simp [serve, serveBus, hr]

/-- A host read of a register through the bus. -/
theorem step_busRead (r : Reg) {s : State} {rest : List Event} (hc : WindowClear s.params r.offset)
    (h : s.events = .bus ⟨s.params.csrBase + r.offset, 4, none⟩ :: rest) :
    step s = .next (readReg r { s with events := rest }) := by
  rw [step_bus (route_read r hc) h]
  refine serve_outcome ?_
  simp [serveAccess, (offset_aligned r).2, readWindow_offset]

/-- A host write of a command's word to CMD through the bus. -/
theorem step_busCommand {i : Instr} {s : State} {rest : List Event} (hc : WindowClear s.params Reg.cmd.offset)
    (h : s.events = .bus ⟨s.params.csrBase + Reg.cmd.offset, 4, some (encode i)⟩ :: rest) :
    step s = exec i { s with events := rest } := by
  rw [step_bus (route_write .cmd _ hc) h]
  exact serve_cmdWrite (decode_encode i)

/-! ## Lines of a script -/

/-- A line without a transaction: the events of the gap, and the host's control flow (R120). -/
theorem scriptStep_silent {prog : List Action} {gap : List Event} {h : ScriptHost} {s w : State} {a : Action}
    (ha : prog[h.line]? = some a) (ht : a.transaction s.params = none)
    (hw : drain gap.length { s with events := gap } = .next w) :
    scriptStep prog gap h s = .next (h.after prog a 0, w) := by
  simp only [scriptStep, ha, ht, hw]

/-- A line with a transaction: the transaction, the events of the gap, and the host's control flow with the answer
(R120, R121). -/
theorem scriptStep_access {prog : List Action} {gap : List Event} {h : ScriptHost} {s u w : State} {a : Action}
    {t : Transaction} (ha : prog[h.line]? = some a) (ht : a.transaction s.params = some t)
    (hu : step { s with events := .bus t :: gap } = .next u) (hw : drain gap.length u = .next w) :
    scriptStep prog gap h s = .next (h.after prog a u.hostData, w) := by
  simp only [scriptStep, ha, ht, hu, hw]

/-- The `go` of a command, with no other event, does what exec does (R122, R130). -/
theorem scriptStep_go {prog : List Action} {h : ScriptHost} {s t : State} {i : Instr} (hs : s.ready)
    (ha : prog[h.line]? = some (.wr .cmd (encode i))) (hc : WindowClear s.params Reg.cmd.offset)
    (ht : exec i s = .next t) : scriptStep prog [] h s = .next ({ h with line := h.line + 1 }, t) := by
  refine scriptStep_access ha rfl ((step_busCommand ?_ rfl).trans ?_) rfl
  · exact hc
  · exact (congrArg _ (events_nil_eq hs.2)).trans ht

/-- One line of a run. -/
theorem scriptRun_succ {prog : List Action} {gaps : Nat → List Event} {n : Nat} {h g : ScriptHost} {s t : State}
    (hs : scriptStep prog (gaps 0) h s = .next (g, t)) (hh : h.halted = false) :
    scriptRun prog gaps (n + 1) h s = scriptRun prog (fun k => gaps (k + 1)) n g t := by
  simp [scriptRun, hh, hs]

/-! ## The core between the lines -/

/-- DONE is clear while a command is BUSY and set once it has ended: the host has not acknowledged it yet. -/
def Unacknowledged (s : State) : Prop :=
  (s.seqState = .busy ∧ s.done = false) ∨ (s.seqState = .idle ∧ s.done = true)

/-- The turns of the core that are left at most: none while IDLE. -/
def State.turnsLeft (s : State) : Nat := if s.busy then s.phase.turnsLeft else 0

theorem State.turnsLeft_idle {s : State} (h : s.seqState = .idle) : s.turnsLeft = 0 := by
  rw [turnsLeft, busy_eq_false_iff.mpr h]; rfl

/-- After `n` turns of the core: the host has not acknowledged a command, and each turn counted. -/
structure AfterTurns (n : Nat) (s t : State) : Prop where
  params : t.params = s.params
  unacknowledged : Unacknowledged t
  turns : t.turnsLeft ≤ s.turnsLeft - n

theorem AfterTurns.trans {m n : Nat} {s t u : State} (h : AfterTurns m s t) (h' : AfterTurns n t u) :
    AfterTurns (m + n) s u :=
  ⟨h'.params.trans h.params, h'.unacknowledged, by have := h.turns; have := h'.turns; omega⟩

/-- Where no turn was left, the command has ended. -/
theorem Unacknowledged.ended {s : State} (h : Unacknowledged s) (ht : s.turnsLeft = 0) : s.seqState = .idle := by
  rcases h with ⟨hb, -⟩ | ⟨hi, -⟩
  · have := turnsLeft_pos s.phase
    simp [State.turnsLeft, State.busy, hb] at ht
    omega
  · exact hi

theorem Unacknowledged.done_eq {s : State} (h : Unacknowledged s) : s.done = true ↔ s.seqState = .idle := by
  rcases h with ⟨hb, hd⟩ | ⟨hi, hd⟩
  · simp [hb, hd]
  · simp [hi, hd]

/-- A turn of the core answers a next state. -/
theorem exists_coreTurn (s : State) : ∃ t, coreTurn s = .next t := by
  cases hb : s.busy with
  | false => exact ⟨s, coreTurn_idle hb⟩
  | true =>
    obtain ⟨m, hm⟩ := coreTurn_moves hb
    exact ⟨_, hm s (ReadsAlike.refl s)⟩

/-- A turn of the core comes nearer to the end of the command, and sets DONE there. -/
theorem coreTurn_afterTurns {s : State} (hs : Unacknowledged s) :
    ∃ t, coreTurn s = .next t ∧ t.events = s.events ∧ AfterTurns 1 s t := by
  obtain ⟨t, ht⟩ := exists_coreTurn s
  refine ⟨t, ht, ?_⟩
  cases hb : s.busy with
  | false =>
    cases (coreTurn_idle hb).symm.trans ht
    exact ⟨rfl, rfl, hs, (State.turnsLeft_idle (busy_eq_false_iff.mp hb)).trans_le (Nat.zero_le _)⟩
  | true =>
    have hd : s.done = false := hs.elim And.right fun h => by simp [busy_iff, h.1] at hb
    rcases coreTurn_turnsTo hb ht with hr | he
    · have htb : t.busy = true := hr.busy.trans hb
      have hlt := (coreTurn_nearsEnd hb ht).resolve_left (by simp [busy_iff.mp htb])
      refine ⟨by rw [hr.eq], by rw [hr.eq], .inl ⟨busy_iff.mp htb, by rw [hr.eq]; exact hd⟩, ?_⟩
      simp only [State.turnsLeft, hb, htb, if_true]
      omega
    · obtain ⟨hparams, -, -, -, -, -, hevents⟩ := he.host
      exact ⟨hevents, hparams, .inr ⟨he.idle, he.done⟩, (State.turnsLeft_idle he.idle).trans_le (Nat.zero_le _)⟩

/-- A gap that holds turns of the core alone is served to its end, and each turn counts. -/
theorem drain_afterTurns : ∀ (gap : List Event) {s : State}, (∀ e ∈ gap, e = .core) → Unacknowledged s →
    s.events = gap → ∃ t, drain gap.length s = .next t ∧ AfterTurns gap.length s t
  | [], s, _, hs, _ => ⟨s, rfl, rfl, hs, le_refl _⟩
  | e :: gap, s, hg, hs, he => by
    obtain ⟨rfl, hgap⟩ := List.forall_mem_cons.mp hg
    obtain ⟨u, hu, hue, hsu⟩ := coreTurn_afterTurns (s := { s with events := gap }) hs
    obtain ⟨t, ht, hut⟩ := drain_afterTurns gap hgap hsu.unacknowledged hue
    refine ⟨t, ?_, ?_⟩
    · have hstep : step s = .next u := (step_cons he).trans hu
      simp [drain, he, hstep, ht]
    · have hst : AfterTurns 1 s u := ⟨hsu.params, hsu.unacknowledged, hsu.turns⟩
      rw [List.length_cons, Nat.add_comm]
      exact hst.trans hut

/-! ## The lines of a `wait` -/

theorem ScriptHost.var_assign (h : ScriptHost) (t : String) (v : Nat) : (h.assign t v).var t = v := by
  simp [var, assign]

/-- The mask 2 of a `wait` looks at DONE in the STATUS word that was read (R26, R122). -/
theorem land_statusWord (s : State) (p : Nat) : Nat.land (statusWord s p).toNat 2 = 2 ↔ s.done = true := by
  have hand : Nat.land (statusWord s p).toNat 2 = ((statusWord s p).toNat.testBit 1).toNat * 2 ^ 1 :=
    Nat.and_two_pow _ 1
  have hbit : (statusWord s p).toNat.testBit 1 = s.done := by
    rw [BitVec.testBit_toNat, BitVec.getLsbD_eq_getElem (by decide), getElem_statusWord]
    simp
  rw [hand, hbit]
  cases s.done <;> simp

/-- The branch of a `wait` goes back to the label exactly when bit 1 of the word just read is clear (R120, R122). -/
theorem branch_wait (prog : List Action) (v : Word) (l : ScriptLabel) (h : ScriptHost) :
    (h.after prog (.rd .status "t") v).after prog (.bne "t" 2 2 l) 0 =
      if Nat.land v.toNat 2 ≠ 2 then { h.after prog (.rd .status "t") v with line := prog.idxOf (.label l) }
      else { h.after prog (.rd .status "t") v with line := h.line + 2 } := by
  have hvar : (h.after prog (.rd .status "t") v).var "t" = v.toNat := ScriptHost.var_assign _ _ _
  rw [← hvar]
  rfl

/-- The three lines of a `wait` in a program (R122). -/
structure WaitAt (prog : List Action) (k line : Nat) : Prop where
  label : prog[line]? = some (.label (.fresh k))
  read : prog[line + 1]? = some (.rd .status "t")
  branch : prog[line + 2]? = some (.bne "t" 2 2 (.fresh k))
  target : prog.idxOf (.label (.fresh k)) = line

theorem waitAt_of_expandLine {prog : List Action} {k line : Nat} (h : (prog.drop line).take 3 = expandLine k .wait)
    (ht : prog.idxOf (.label (.fresh k)) = line) : WaitAt prog k line := by
  have hget : ∀ j < 3, prog[line + j]? = (expandLine k .wait)[j]? := fun j hj => by
    rw [← h, List.getElem?_take_of_lt hj, List.getElem?_drop]
  exact ⟨hget 0 (by decide), hget 1 (by decide), hget 2 (by decide), ht⟩

/-- A line without a transaction, and the turns of the core in its gap. -/
theorem scriptStep_silent_afterTurns {prog : List Action} {gap : List Event} {h : ScriptHost} {s : State} {a : Action}
    (hg : ∀ e ∈ gap, e = .core) (hs : Unacknowledged s) (ha : prog[h.line]? = some a)
    (ht : a.transaction s.params = none) :
    ∃ t, scriptStep prog gap h s = .next (h.after prog a 0, t) ∧ AfterTurns gap.length s t := by
  obtain ⟨t, hd, hst⟩ := drain_afterTurns gap (s := { s with events := gap }) hg hs rfl
  exact ⟨t, scriptStep_silent ha ht hd, hst.params, hst.unacknowledged, hst.turns⟩

/-- A read changes the model's own fields only, so it leaves the command where it is. -/
theorem afterTurns_of_frame {s t : State} (h : { t with hostData := s.hostData, draws := s.draws } = s)
    (hs : Unacknowledged s) : AfterTurns 0 s t where
  params := by have := congrArg State.params h; exact this
  unacknowledged := by have := congrArg Unacknowledged h; exact this.mpr hs
  turns := by have := congrArg State.turnsLeft h; exact this.le

/-- The read of a `wait` answers STATUS, and turns of the core follow in its gap. -/
theorem scriptStep_readStatus {prog : List Action} {gap : List Event} {h : ScriptHost} {s : State} {v : String}
    (hg : ∀ e ∈ gap, e = .core) (hs : Unacknowledged s) (hc : WindowClear s.params Reg.status.offset)
    (ha : prog[h.line]? = some (.rd .status v)) :
    ∃ p t, scriptStep prog gap h s = .next (h.after prog (.rd .status v) (statusWord s p), t) ∧
      AfterTurns gap.length s t := by
  have hframe := readReg_frame .status { s with events := gap }
  obtain ⟨p, hp, -⟩ := readStatus_hostData { s with events := gap }
  have hread := afterTurns_of_frame hframe hs
  obtain ⟨t, hd, hst⟩ := drain_afterTurns gap hg hread.unacknowledged (congrArg State.events hframe)
  have hall := hread.trans hst
  rw [Nat.zero_add] at hall
  refine ⟨p, t, ?_, hall.params, hall.unacknowledged, hall.turns⟩
  have hstep := scriptStep_access (h := h) ha rfl (step_busRead .status hc rfl) hd
  exact hstep.trans (congrArg (fun w => Host.Outcome.next (h.after prog (.rd .status v) w, t)) hp)

/-- One pass over the three lines of a `wait`: back to its first line if a command was BUSY, or on to the line after it
with the command ended. -/
theorem scriptRun_wait {prog : List Action} {gaps : Nat → List Event} {h : ScriptHost} {s : State} {k : Nat}
    (hw : WaitAt prog k h.line) (hh : h.halted = false) (hc : WindowClear s.params Reg.status.offset)
    (hg : ∀ n, ∀ e ∈ gaps n, e = .core) (hs : Unacknowledged s) :
    ∃ (g : ScriptHost) (t : State),
      (∀ n, scriptRun prog gaps (n + 3) h s = scriptRun prog (fun k => gaps (k + 3)) n g t) ∧ g.halted = false ∧
      AfterTurns ((gaps 0).length + (gaps 1).length + (gaps 2).length) s t ∧
      ((g.line = h.line ∧ s.turnsLeft ≠ 0) ∨ (g.line = h.line + 3 ∧ t.seqState = .idle)) := by
  obtain ⟨s₁, hline₁, hs₁⟩ := scriptStep_silent_afterTurns (hg 0) hs hw.label rfl
  obtain ⟨p, s₂, hline₂, hs₂⟩ := scriptStep_readStatus (h := h.after prog (.label (.fresh k)) 0) (hg 1)
    hs₁.unacknowledged (hs₁.params ▸ hc) hw.read
  obtain ⟨t, hline₃, hs₃⟩ := scriptStep_silent_afterTurns
    (h := (h.after prog (.label (.fresh k)) 0).after prog (.rd .status "t") (statusWord s₁ p)) (hg 2)
    hs₂.unacknowledged hw.branch rfl
  have hst := (hs₁.trans hs₂).trans hs₃
  have hrun : ∀ n, scriptRun prog gaps (n + 3) h s = scriptRun prog (fun k => gaps (k + 3)) n _ t := fun n =>
    (scriptRun_succ hline₁ hh).trans
      ((scriptRun_succ (gaps := fun k => gaps (k + 1)) hline₂ hh).trans
        (scriptRun_succ (gaps := fun k => gaps (k + 2)) hline₃ hh))
  rw [branch_wait] at hrun
  by_cases hd : s₁.done = true
  · rw [if_neg (not_not.mpr ((land_statusWord s₁ p).mpr hd))] at hrun
    have hidle := hs₁.unacknowledged.done_eq.mp hd
    refine ⟨_, t, hrun, hh, hst, .inr ⟨rfl, hst.unacknowledged.ended ?_⟩⟩
    have hturns := (hs₂.trans hs₃).turns
    rw [State.turnsLeft_idle hidle] at hturns
    omega
  · rw [if_pos fun hl => hd ((land_statusWord s₁ p).mp hl)] at hrun
    refine ⟨_, t, hrun, hh, hst, .inl ⟨hw.target, fun h0 => hd ?_⟩⟩
    have hturns := hs₁.turns
    exact hs₁.unacknowledged.done_eq.mpr (hs₁.unacknowledged.ended (by omega))

/-! ## The end of a `wait` -/

/-- Fair gaps hold any number of turns of the core (R360). -/
theorem FairGaps.exists_turns {gaps : Nat → List Event} (hf : FairGaps gaps) :
    ∀ n, ∃ m, n ≤ ∑ j ∈ Finset.range m, (gaps j).length
  | 0 => ⟨0, Nat.zero_le _⟩
  | n + 1 => by
    obtain ⟨m, hm⟩ := hf.exists_turns n
    obtain ⟨i, hmi, hi⟩ := hf m
    refine ⟨i + 1, ?_⟩
    have hpos : 0 < (gaps i).length := List.length_pos_of_mem hi
    have hmono : ∑ j ∈ Finset.range m, (gaps j).length ≤ ∑ j ∈ Finset.range i, (gaps j).length :=
      Finset.sum_le_sum_of_subset (Finset.range_subset_range.mpr hmi)
    rw [Finset.sum_range_succ]
    omega

/-- The script comes to the line after a `wait`, with the command ended. -/
def WaitEnds (prog : List Action) (gaps : Nat → List Event) (line : Nat) (h : ScriptHost) (s : State) : Prop :=
  ∃ n g t, scriptRun prog gaps n h s = .next (g, t) ∧ g.line = line + 3 ∧ g.halted = false ∧
    t.seqState = .idle ∧ t.done = true

/-- A `wait` ends within as many passes as bring all the turns that the command has left. -/
theorem waitEnds_of_turns {prog : List Action} {line k : Nat} (hw : WaitAt prog k line) :
    ∀ (m : Nat) {gaps : Nat → List Event} {h : ScriptHost} {s : State}, h.line = line → h.halted = false →
    WindowClear s.params Reg.status.offset → (∀ n, ∀ e ∈ gaps n, e = .core) → Unacknowledged s →
    s.turnsLeft ≤ ∑ j ∈ Finset.range (3 * m), (gaps j).length → WaitEnds prog gaps line h s := by
  intro m
  induction m with
  | zero =>
    rintro gaps h s rfl hh hc hg hs hm
    obtain ⟨g, t, hrun, hgh, hst, ⟨-, hleft⟩ | ⟨hline, hidle⟩⟩ := scriptRun_wait hw hh hc hg hs
    · exact absurd (Nat.le_zero.mp hm) hleft
    · exact ⟨3, g, t, hrun 0, hline, hgh, hidle, hst.unacknowledged.done_eq.mpr hidle⟩
  | succ m ih =>
    rintro gaps h s rfl hh hc hg hs hm
    obtain ⟨g, t, hrun, hgh, hst, ⟨hline, -⟩ | ⟨hline, hidle⟩⟩ := scriptRun_wait hw hh hc hg hs
    · have hturns : t.turnsLeft ≤ ∑ j ∈ Finset.range (3 * m), (gaps (j + 3)).length := by
        have hle := hst.turns
        have hsum : ∑ j ∈ Finset.range (3 * (m + 1)), (gaps j).length =
            ∑ j ∈ Finset.range (3 * m), (gaps (j + 3)).length + (gaps 2).length + (gaps 1).length + (gaps 0).length := by
          rw [Nat.mul_succ, Finset.sum_range_succ', Finset.sum_range_succ', Finset.sum_range_succ']
        omega
      obtain ⟨n, g', t', hrun', hend⟩ :=
        ih hline hgh (hst.params ▸ hc) (fun n => hg (n + 3)) hst.unacknowledged hturns
      exact ⟨n + 3, g', t', (hrun n).trans hrun', hend⟩
    · exact ⟨3, g, t, hrun 0, hline, hgh, hidle, hst.unacknowledged.done_eq.mpr hidle⟩

/-- Settles O60: a `go` is served as exec, and fair gaps bring all the turns that a `wait` waits for. -/
theorem scriptGoAndWait : Obligations.ScriptGoAndWait := by
  refine ⟨fun prog h s t i hs => ⟨rfl, fun ha hc ht => scriptStep_go hs ha hc ht⟩,
    fun prog gaps h s k hb hd hh hlines htarget hc hf hg => ?_⟩
  obtain ⟨m, hm⟩ := hf.exists_turns s.turnsLeft
  refine waitEnds_of_turns (waitAt_of_expandLine hlines htarget) m rfl hh hc hg (.inl ⟨hb, hd⟩) (hm.trans ?_)
  exact Finset.sum_le_sum_of_subset (Finset.range_subset_range.mpr (by omega))

end Sys2Proof.Machine
end

section
/-! The lifecycle that all commands share: command words, starts, turns and ends (R130 to R143, R145, R149). -/

namespace Sys2Proof.Machine

/-! ## Command words -/

/-- Settles O3: a 32-bit write to CMD, by whichever way it comes, hands its word to the decoder. -/
theorem stepRunsDecodedCommand : Obligations.StepRunsDecodedCommand := by
  intro s rest w i hw
  refine ⟨fun he => ?_, fun he hc => ?_, ?_⟩
  · exact (step_cons he).trans (serve_cmdWrite hw)
  · rw [decode_eq_ok_iff.mp hw] at he
    exact step_busCommand hc he
  · have hword : BitVec.ofNat 32 (w.toNat % 2 ^ 32) = w := by
      rw [Nat.mod_eq_of_lt w.isLt, BitVec.ofNat_toNat, BitVec.setWidth_eq]
    rw [State.withFetchWord, hword]
    exact (step_cons rfl).trans (serve_cmdWrite hw)

/-- A word that is not one of the four command words does not decode (R91, R92). -/
theorem decode_illegal {w : Word} (h1 : w ≠ 1) (h2 : w ≠ 2) (h3 : w ≠ 3) (h4 : w ≠ 4) :
    ∃ r, decode w = .error r := by
  cases hd : decode w with
  | error r => exact ⟨r, rfl⟩
  | ok i =>
    have hw := decode_eq_ok_iff.mp hd
    cases i with
    | henc => exact absurd hw h1
    | hdec => exact absurd hw h2
    | lenc => exact absurd hw h3
    | ldec => exact absurd hw h4

/-- An error completion reports its cause and its offset, and leaves the host's side alone (R139). -/
theorem errorRegs_failed (c : Cause) (s : State) : Failed c 0 s (errorRegs ⟨c, 0⟩ s) :=
  ⟨rfl, rfl, rfl, rfl, rfl, rfl, rfl, rfl, rfl, rfl, rfl, rfl, rfl, rfl, rfl, rfl, rfl⟩

/-- Settles O4: the word does not decode, and the machine is IDLE. -/
theorem illegalCommandCompletesAtOnce : Obligations.IllegalCommandCompletesAtOnce := by
  intro s rest w hs he h1 h2 h3 h4
  obtain ⟨r, hr⟩ := decode_illegal h1 h2 h3 h4
  have hidle : State.busy { s with events := rest } = false := busy_eq_false_iff.mpr hs
  refine ⟨illegalCommand { s with events := rest }, ?_, errorRegs_failed .badOpcode _, rfl, rfl, rfl, rfl, rfl⟩
  rw [step_cons he, serve_cmdWrite_illegal hr, illegalWord_idle hidle]

/-- Settles O5: the word is dropped, whether it decodes or not. -/
theorem busyCommandWriteDropped : Obligations.BusyCommandWriteDropped := by
  intro s rest w hs he
  have hb : State.busy { s with events := rest } = true := busy_iff.mpr hs
  rw [step_cons he]
  cases hd : decode w with
  | ok i => exact (serve_cmdWrite hd).trans (exec_busy hb)
  | error r => rw [serve_cmdWrite_illegal hd, illegalWord_busy hb]; rfl

/-! ## The start of a command -/

/-- A start leaves the host's side alone (R133). -/
theorem startCommand_hostSame (p : Phase) (s : State) : HostSame s (startCommand p s) :=
  ⟨rfl, rfl, rfl, rfl, rfl, rfl, rfl⟩

theorem firstPhase_check (i : Instr) :
    firstPhase i = .henc .check ∨ firstPhase i = .hdec .check ∨ firstPhase i = .lenc .check ∨
      firstPhase i = .ldec .check := by
  cases i <;> simp [firstPhase]

/-- Settles O6: with an event waiting, exec is the start alone. -/
theorem startLatchesOperands : Obligations.StartLatchesOperands := fun i s hs he =>
  ⟨startCommand (firstPhase i) s, exec_waiting (busy_eq_false_iff.mpr hs) he, rfl, rfl, rfl, rfl, rfl, rfl,
    firstPhase_command i, firstPhase_check i, rfl, by simp [State.irq], rfl, startCommand_hostSame _ s⟩

/-! ## Turns and runs of the core -/

theorem RunsOn.hostSame {s t : State} (h : RunsOn s t) : HostSame s t := by
  rw [h.eq]
  exact ⟨rfl, rfl, rfl, rfl, rfl, rfl, rfl⟩

theorem TurnsTo.hostSame {s t : State} (h : TurnsTo s t) : HostSame s t := h.elim RunsOn.hostSame Ended.host

/-- Settles O16: a turn answers, and either the command runs on with fewer turns left or it has ended. -/
theorem coreTurnConfined : Obligations.CoreTurnConfined := by
  intro s hs
  have hb : s.busy = true := busy_iff.mpr hs
  obtain ⟨t, ht⟩ := exists_coreTurn s
  have hto := coreTurn_turnsTo hb ht
  refine ⟨t, ht, hto.same, hto.hostSame, fun hi => ?_, fun htb => ?_⟩
  · have he := hto.ended hs hi
    exact ⟨he.done, he.progress, he.err⟩
  · have hr : RunsOn s t := hto.resolve_right fun he => by simp [he.idle] at htb
    exact ⟨hr.command, (coreTurn_nearsEnd hb ht).resolve_left (by simp [htb]), hr.eq⟩

/-- Any number of turns of the core answers a next state. -/
theorem exists_runTurns : ∀ (n : Nat) (s : State), ∃ t, runTurns coreTurn n s = .next t
  | 0, s => ⟨s, rfl⟩
  | n + 1, s => by
    cases hb : s.busy with
    | false => exact ⟨s, runTurns_idle _ hb⟩
    | true =>
      obtain ⟨u, hu⟩ := exists_coreTurn s
      rw [runTurns_succ n hb hu]
      exact exists_runTurns n u

/-- A command started while no event waits answers a next state. -/
theorem exists_exec_ready (i : Instr) {s : State} (h : s.ready) : ∃ t, exec i s = .next t := by
  rw [exec_ready h]
  exact exists_runTurns _ _

/-- Settles O8: the core's run answers, and it has ended the command. -/
theorem everyCommandCompletes : Obligations.EveryCommandCompletes := by
  refine ⟨fun i s hs => ?_, fun s hs he => ?_⟩
  · obtain ⟨t, ht⟩ := exists_exec_ready i hs
    have hend := exec_ready_ended hs ht
    exact ⟨t, ht, hend.idle, hend.done, hend.progress, hend.host⟩
  · obtain ⟨t, ht⟩ := exists_runTurns maxPhases s
    have hend : Ended s t := coreRun_ended (busy_iff.mpr hs) ht
    exact ⟨t, (step_nil he).trans ht, hend.idle, hend.done, hend.progress, hend.host⟩

/-- Settles O9: a start writes nothing, and the turns after it write in the output regions only. -/
theorem commandWritesOnlyOutputs : Obligations.CommandWritesOnlyOutputs := by
  intro i s t hs h
  rcases exec_cases h with ⟨hb, -⟩ | ⟨-, -, rfl⟩ | ⟨-, hto⟩
  · simp [busy_iff, hs] at hb
  · exact ⟨fun _ _ => rfl, startCommand_hostSame _ s⟩
  · have hsame := hto.same
    rw [startCommand_phase, firstPhase_command, startCommand_latched] at hsame
    exact ⟨hsame, hto.hostSame⟩

/-! ## Host accesses beside a running command -/

/-- What a host access keeps of a running command: the sequencer, the latched operands and the internal storage. -/
structure CommandKept (s t : State) : Prop where
  seqState : t.seqState = s.seqState
  phase : t.phase = s.phase
  latched : t.latched = s.latched
  latchedLenchk : t.latchedLenchk = s.latchedLenchk
  store : t.store = s.store

theorem CommandKept.refl (s : State) : CommandKept s s := ⟨rfl, rfl, rfl, rfl, rfl⟩

theorem ReadsAlike.commandKept {s t : State} (h : ReadsAlike s t) : CommandKept s t :=
  ⟨h.seqState, h.phase, h.latched, h.latchedLenchk, h.store⟩

/-- A read, which changes the model's own fields only. -/
theorem commandKept_of_frame {s t : State} (h : { t with hostData := s.hostData, draws := s.draws } = s) :
    CommandKept s t := by
  have field : ∀ {α : Type} (f : State → α), f { t with hostData := s.hostData, draws := s.draws } = f s :=
    fun f => congrArg f h
  exact ⟨field State.seqState, field State.phase, field State.latched, field State.latchedLenchk, field State.store⟩

/-- All that a host access which is no command word can do: read, write a register or a byte of BUF, or nothing. -/
theorem serveAccess_next {a : Access} {s t : State} (h : serveAccess a s = .outcome (.next t)) :
    { t with hostData := s.hostData, draws := s.draws } = s ∨ (∃ r v, t = writeReg r v s) ∨
      (∃ c b, t = writeBuf c b s) ∨ t = s := by
  cases a with
  | regRead off width =>
    simp only [serveAccess] at h
    split at h
    · cases h; exact .inl (readWindow_frame off width s)
    · cases h
  | regWrite off width v =>
    simp only [serveAccess] at h
    split at h
    · split at h
      · cases h
      · cases h; exact .inr (.inl ⟨_, v, rfl⟩)
      · cases h; exact .inr (.inr (.inr rfl))
    · cases h
  | bufRead addr width =>
    simp only [serveAccess] at h
    split at h
    · split at h
      · cases h; exact .inl (readBuf_frame addr s)
      · cases h
    · cases h
  | bufWrite addr width b =>
    simp only [serveAccess] at h
    split at h
    · split at h
      · cases h; exact .inr (.inr (.inl ⟨addr, b, rfl⟩))
      · cases h
    · cases h

/-- Serving a host access while BUSY, command words included, keeps the running command. -/
theorem finishServed_commandKept {a : Access} {s t : State} (hb : s.busy = true)
    (h : finishServed (serveAccess a s) = .next t) : CommandKept s t := by
  cases hs : serveAccess a s with
  | outcome o =>
    rw [hs] at h
    cases h
    rcases serveAccess_next hs with hf | ⟨r, v, rfl⟩ | ⟨c, b, rfl⟩ | rfl
    · exact commandKept_of_frame hf
    · exact (readsAlike_writeReg r v s).commandKept
    · exact ⟨rfl, rfl, rfl, rfl, rfl⟩
    · exact .refl _
  | command w u =>
    obtain ⟨-, rfl⟩ := serveAccess_command hs
    rw [hs] at h
    cases finishServed_command_busy hb h
    exact ⟨rfl, rfl, rfl, rfl, rfl⟩

/-- Settles O15: every event but a turn of the core and reset is a host access. -/
theorem hostAccessKeepsRunningCommand : Obligations.HostAccessKeepsRunningCommand := by
  intro s t e rest hs he hcore hreset h
  have hb : State.busy { s with events := rest } = true := busy_iff.mpr hs
  have hk : CommandKept { s with events := rest } t := by
    rw [step_cons he] at h
    cases e with
    | bus tr =>
      simp only [serve, serveBus] at h
      split at h
      · exact finishServed_commandKept hb h
      · cases h
      · cases h
    | access a => exact finishServed_commandKept hb h
    | core => exact absurd rfl hcore
    | reset => exact absurd rfl hreset
  exact ⟨hk.seqState.trans hs, hk.phase, hk.latched, hk.latchedLenchk, hk.store⟩

end Sys2Proof.Machine
end

section
/-! The region checks (R134 to R136). -/

namespace Sys2Proof.Machine

/-! ## What the checks answer -/

/-- SRC and DST are checked for every command, AUX for HENC and HDEC (R136). -/
theorem rangeChecks_eq (i : Instr) (o : Operands) :
    rangeChecks i o = (o.src, .srcRange) :: (o.dst, .dstRange) ::
      if i = .henc ∨ i = .hdec then [(o.aux, .auxRange)] else [] := by
  cases i <;> rfl

theorem firstOutOfRange_pass {n : Nat} {r : Region} {c : Cause} {l : List (Region × Cause)}
    (h : ¬ n < r.base + r.len) : firstOutOfRange n ((r, c) :: l) = firstOutOfRange n l := by
  rw [firstOutOfRange, if_pos ((r.inRange_iff n).mpr (not_lt.mp h))]

theorem firstOutOfRange_fail {n : Nat} {r : Region} {c : Cause} {l : List (Region × Cause)}
    (h : n < r.base + r.len) : firstOutOfRange n ((r, c) :: l) = some c := by
  rw [firstOutOfRange, if_neg fun hr => not_le.mpr h ((r.inRange_iff n).mp hr)]

/-- The pairs of regions whose overlap each command checks (R135). -/
theorem overlapChecks_any {i : Instr} {o : Operands} :
    (overlapChecks i o).any (fun p => p.1.overlaps p.2) = true ↔
      o.src.overlaps o.dst = true ∨ (i = .henc ∧ (o.src.overlaps o.aux = true ∨ o.dst.overlaps o.aux = true)) ∨
        (i = .hdec ∧ o.aux.overlaps o.dst = true) := by
  cases i <;> simp [overlapChecks]

/-- A range that fails is reported before any overlap (R136). -/
theorem checkRegions_range {n : Nat} {i : Instr} {o : Operands} {c : Cause}
    (h : firstOutOfRange n (rangeChecks i o) = some c) : checkRegions n i o = some c := by
  rw [checkRegions, h]

/-- Where every range passes, the overlaps decide (R136). -/
theorem checkRegions_overlap {n : Nat} {i : Instr} {o : Operands} (h : firstOutOfRange n (rangeChecks i o) = none) :
    checkRegions n i o = if (overlapChecks i o).any (fun p => p.1.overlaps p.2) then some .overlap else none := by
  rw [checkRegions, h]

/-! ## A command whose check fails -/

/-- The phase after CHECK. -/
def afterCheck : Instr → Phase
  | .henc => .henc .count
  | .hdec => .hdec .parse
  | .lenc => .lenc .scan
  | .ldec => .ldec .first

/-- The first turn of a command is CHECK (R136). -/
theorem coreTurn_firstPhase (i : Instr) (s : State) :
    coreTurn (startCommand (firstPhase i) s) = checkPhase i (afterCheck i) (startCommand (firstPhase i) s) := by
  cases i <;> rfl

/-- A command whose check fails is its start and an error completion, with no write between them. -/
theorem exec_badRegion {i : Instr} {s : State} {c : Cause} (h : s.ready)
    (hc : checkRegions s.params.memSize i s.operands = some c) :
    exec i s = .next (errorRegs ⟨c, 0⟩ (startCommand (firstPhase i) s)) := by
  have hturn : coreTurn (startCommand (firstPhase i) s) =
      .next (errorRegs ⟨c, 0⟩ (startCommand (firstPhase i) s)) := by
    rw [coreTurn_firstPhase, checkPhase, startCommand_params, startCommand_latched, hc]
    exact raiseError_before rfl rfl
  rw [exec_ready h, coreRun, maxPhases, runTurns_succ 6 rfl hturn, runTurns_idle _ rfl]

/-- The error completion of a failed check: BAD_REGION with offset 0, and BUF as it was. -/
theorem exec_badRegion_failed {i : Instr} {s : State} {c : Cause} {w : Word} (h : s.ready) (hw : errWord c = w)
    (hc : checkRegions s.params.memSize i s.operands = some c) :
    ∃ t, exec i s = .next t ∧ Failed c 0 s t ∧ t.err = w ∧ t.mem = s.mem :=
  ⟨_, exec_badRegion h hc, errorRegs_failed c (startCommand (firstPhase i) s), hw, rfl⟩

/-- Settles O7: the checks one after another, in the order of R136. -/
theorem badRegionReported : Obligations.BadRegionReported := by
  intro i s hs out lap usesAux src dst aux laps
  have hlaps : (overlapChecks i s.operands).any (fun p => p.1.overlaps p.2) = true ↔ laps := by
    simp only [overlapChecks_any, Region.overlaps_iff]
    exact Iff.rfl
  have hranges : ¬ out src → ¬ out dst → ¬ (usesAux ∧ out aux) →
      firstOutOfRange s.params.memSize (rangeChecks i s.operands) = none := by
    intro hsrc hdst haux
    rw [rangeChecks_eq, firstOutOfRange_pass hsrc, firstOutOfRange_pass hdst]
    split
    · next hu => exact firstOutOfRange_pass fun ho => haux ⟨hu, ho⟩
    · rfl
  refine ⟨fun hsrc => ?_, fun hsrc hdst => ?_, fun hsrc hdst hu haux => ?_, fun hsrc hdst haux hl => ?_,
    fun hsrc hdst haux hl => ?_⟩
  · refine exec_badRegion_failed hs rfl (checkRegions_range ?_)
    rw [rangeChecks_eq, firstOutOfRange_fail hsrc]
  · refine exec_badRegion_failed hs rfl (checkRegions_range ?_)
    rw [rangeChecks_eq, firstOutOfRange_pass hsrc, firstOutOfRange_fail hdst]
  · refine exec_badRegion_failed hs rfl (checkRegions_range ?_)
    rw [rangeChecks_eq, firstOutOfRange_pass hsrc, firstOutOfRange_pass hdst, if_pos hu, firstOutOfRange_fail haux]
  · refine exec_badRegion_failed hs rfl ?_
    rw [checkRegions_overlap (hranges hsrc hdst haux), if_pos (hlaps.mpr hl)]
  · rw [State.regionsPass, checkRegions_overlap (hranges hsrc hdst haux), if_neg (fun h => hl (hlaps.mp h))]

end Sys2Proof.Machine
end

section
/-! How many bytes, codes and nodes the coders make at most (R151), and that they make as many as they report. -/

namespace Sys2Proof.Machine

/-! ## Huffman -/

/-- B of R169 is the number of code bits of the input. -/
theorem codeBits_freqTable (code : Vector (Option BitString) 256) (x : List Byte) :
    codeBits (freqTable x) code = (encodeBits code x).length := by
  have hkeys : (keys (freqTable x)).toFinset = x.toFinset := by
    ext s
    simp only [List.mem_toFinset, mem_keys_freqTable]
  simp only [codeBits, freqOf_freqTable, encodeBits, List.length_flatMap]
  rw [← List.sum_toFinset _ (keys_nodup (freqTable x)), hkeys, Finset.sum_list_map_count]
  rfl

theorem length_keys_le (freq : Vector Nat 256) : (keys freq).length ≤ 256 := length_le_of_nodup (keys_nodup freq)

/-- The payload with its pad bits has length N (R103, R169). -/
theorem length_payloadBytes (code : Vector (Option BitString) 256) (x : List Byte) :
    (payloadBytes code (padLen (encodeBits code x).length) x).length = payloadLen (encodeBits code x).length := by
  rw [payloadBytes, ← padBits, List.length_cons, length_packBits_padBits, payloadLen, Nat.add_comm]

/-- LEAF_COUNT of INFO is the number of leaves (R30). -/
theorem leafCount_infoWord {l : Nat} (d : Nat) (h : l ≤ 256) : ((infoWord l d).extractLsb' 0 9).toNat ≤ 256 := by
  have hfield : (infoWord l d).extractLsb' 0 9 = BitVec.ofNat 9 l := by
    ext i hi
    simp [infoWord, hi, show i < 16 by omega, show i < 32 by omega]
  rw [hfield, BitVec.toNat_ofNat, Nat.mod_eq_of_lt (by omega)]
  exact h

theorem getBit_keeps {a : Nat} {b : Bool} {p q : Parse} (h : getBit a p = .ok (b, q)) :
    q.node = p.node ∧ q.nint = p.nint := by
  unfold getBit at h
  split at h
  · cases h
  · cases h; exact ⟨rfl, rfl⟩

theorem getBits_keeps {a : Nat} : ∀ {k s v : Nat} {p q : Parse}, getBits a k s p = .ok (v, q) →
    q.node = p.node ∧ q.nint = p.nint
  | 0, _, _, _, _, h => by cases h; exact ⟨rfl, rfl⟩
  | k + 1, _, _, _, _, h => by
    unfold getBits at h
    split at h
    · cases h
    · next hb =>
      obtain ⟨hnode, hnint⟩ := getBits_keeps h
      obtain ⟨hnode', hnint'⟩ := getBit_keeps hb
      exact ⟨hnode.trans hnode', hnint.trans hnint'⟩

theorem checkSymbol_keeps {s : Byte} {p q : Parse} (h : checkSymbol s p = .ok q) :
    q.node = p.node ∧ q.nint = p.nint := by
  unfold checkSymbol at h
  split at h
  · cases h
  · cases h; exact ⟨rfl, rfl⟩

/-- An internal node is counted, and is not the 256th (R204). -/
theorem checkInternal_counts {p q : Parse} (h : checkInternal p = .ok q) :
    q.node = p.node ∧ q.nint = p.nint + 1 ∧ q.nint ≠ 256 := by
  unfold checkInternal at h
  split at h
  · cases h
  · next hn => cases h; exact ⟨rfl, rfl, hn⟩

/-- What parse_node adds to NODE and to NINT: one leaf more than internal nodes, of which there are at most 255. -/
structure ParseCounts (p q : Parse) : Prop where
  nodes : q.node.length + 2 * p.nint = p.node.length + 2 * q.nint + 1
  nint : p.nint ≤ 255 → q.nint ≤ 255

theorem parseNode_counts {a : Nat} : ∀ {fuel d n : Nat} {p q : Parse}, parseNode a fuel d p = .ok (n, q) →
    ParseCounts p q
  | 0, _, _, _, _, h => by cases h
  | fuel + 1, d, n, p, q, h => by
    unfold parseNode at h
    split at h
    · cases h
    · next p1 hbit =>
      obtain ⟨hnode1, hnint1⟩ := getBit_keeps hbit
      split at h
      · cases h
      · next s p2 hbits =>
        obtain ⟨hnode2, hnint2⟩ := getBits_keeps hbits
        split at h
        · cases h
        · next p3 hsym =>
          obtain ⟨hnode3, hnint3⟩ := checkSymbol_keeps hsym
          have hnint : p3.nint = p.nint := hnint3.trans (hnint2.trans hnint1)
          have hlen : p3.node.length = p.node.length := by rw [hnode3, hnode2, hnode1]
          cases h
          exact ⟨by simp only [List.length_append, List.length_singleton]; omega, fun hp => hnint.trans_le hp⟩
    · next p1 hbit =>
      obtain ⟨hnode1, hnint1⟩ := getBit_keeps hbit
      split at h
      · cases h
      · next p2 hint =>
        obtain ⟨hnode2, hnint2, hmax⟩ := checkInternal_counts hint
        split at h
        · cases h
        · next l p3 hl =>
          have hleft := parseNode_counts hl
          dsimp only at h
          split at h
          · cases h
          · next r p4 hr =>
            have hright := parseNode_counts hr
            cases h
            have hleftNodes := hleft.nodes
            have hrightNodes := hright.nodes
            have hleftNint := hleft.nint
            have hrightNint := hright.nint
            simp only [List.length_append, List.length_cons, List.length_nil, List.length_set, hnode2, hnode1]
              at hleftNodes hrightNodes hleftNint hrightNint
            constructor <;> simp only [List.length_set] <;> omega

/-- A parsed tree has at most 256 leaves (R204, R205). -/
theorem parseDescriptor_leaves {desc : List Byte} {t : Parsed} (h : parseDescriptor desc = .ok t) :
    t.vars.node.length - t.vars.nint ≤ 256 := by
  unfold parseDescriptor at h
  split at h
  · cases h
  · split at h
    · cases h
    · split at h
      · cases h
      · next root p hp =>
        split at h
        · cases h
        · cases h
          have hcounts := parseNode_counts hp
          have hnodes := hcounts.nodes
          have hnint := hcounts.nint
          simp only [List.length_nil] at hnodes hnint ⊢
          omega

/-- The walk never passes the capacity of DST (R208). -/
theorem walkBits_fits {node : List Node} {root cap : Nat} : ∀ {bits : BitString} {n m : Nat} {out out' : List Byte},
    out.length ≤ cap → walkBits node root cap bits n out = .ok (m, out') → out'.length ≤ cap
  | [], _, _, _, _, hl, h => by cases h; exact hl
  | _ :: bits, _, _, out, _, hl, h => by
    unfold walkBits at h
    split at h
    · split at h
      · cases h
      · next hne => exact walkBits_fits (by rw [List.length_append, List.length_singleton]; omega) h
    · exact walkBits_fits hl h

/-! ## LZW -/

theorem length_streamBytes (codes : List Nat) : (streamBytes codes).length = 4 * codes.length := by
  simp [streamBytes, List.length_flatMap, Nat.mul_comm]

theorem streamBytes_concat (codes : List Nat) (c : Nat) :
    streamBytes (codes ++ [c]) = streamBytes codes ++ bytesOfWord c := by
  simp [streamBytes]

theorem length_seedDict_le (p : Params) : seedDict.length ≤ p.dictCap := by
  rw [length_seedDict]
  exact Nat.le_add_left _ _

/-- SCAN emits no code that does not fit DST (R244). -/
theorem scanBytes_fits {dictCap cap : Nat} : ∀ {bs : List Byte} {i : Nat} {s t : Scan}, 4 * s.codes.length ≤ cap →
    scanBytes dictCap cap i bs s = .ok t → 4 * t.codes.length ≤ cap
  | [], _, _, _, hs, h => by cases h; exact hs
  | b :: bs, i, s, t, hs, h => by
    unfold scanBytes at h
    split at h
    · cases h
    · next u hu =>
      refine scanBytes_fits ?_ h
      rcases scanByte_ok hu with ⟨-, rfl⟩ | ⟨-, hfit, -, rfl⟩
      · exact hs
      · rw [List.length_append, List.length_singleton]; omega

/-- LOOP emits only what fits DST, and its position counts what it emits (R277). -/
theorem unscanCodes_fits {dictCap cap : Nat} : ∀ {ks : List Nat} {i : Nat} {s t : Unscan}, s.pos ≤ cap →
    unscanCodes dictCap cap i ks s = .ok t → t.pos + s.out.length = s.pos + t.out.length ∧ t.pos ≤ cap
  | [], _, _, _, hs, h => by cases h; exact ⟨rfl, hs⟩
  | k :: ks, i, s, t, hs, h => by
    unfold unscanCodes at h
    split at h
    · cases h
    · next u hu =>
      obtain ⟨e, q, -, hq, -, rfl⟩ := unscanCode_ok hu
      obtain ⟨hfit, rfl⟩ := (emitString_ok hs).mp hq
      obtain ⟨hpos, hcap⟩ := unscanCodes_fits (s := ⟨_, _, s.pos + e.length, _⟩) hfit h
      refine ⟨?_, hcap⟩
      simp only [List.length_append] at hpos
      omega

end Sys2Proof.Machine
end

section
/-! What each phase of a command does, case by case (41 to 44). -/

namespace Sys2Proof.Machine

variable {s : State}

/-! ## HENC -/

theorem hencCount_empty (h : s.latched.src.len = 0) :
    hencCount s = raiseError .beforeWrite ⟨.hencEmpty, 0⟩ s := by
  rw [hencCount, if_pos h]

theorem hencCount_next (h : s.latched.src.len ≠ 0) :
    hencCount s = .next { s with
      phase := .henc .build
      store := { s.store with freq := countFreq (s.regionBytes s.latched.src) s.store.freq } } := by
  rw [hencCount, if_neg h]

theorem hencSize_dstFull {n : Nat} (hn : payloadLen (codeBits s.store.freq s.store.code) = n)
    (h : n > s.latched.dst.len) :
    hencSize s = raiseError .beforeWrite ⟨.dstFull, min n (2 ^ 32 - 1)⟩ s := by
  subst hn
  simp only [hencSize, if_pos h]

theorem hencSize_auxFull {n m : Nat} (hn : payloadLen (codeBits s.store.freq s.store.code) = n)
    (hm : descriptorLen s.store.leaves = m) (h : ¬ n > s.latched.dst.len) (h' : m > s.latched.aux.len) :
    hencSize s = raiseError .beforeWrite ⟨.auxFull, m⟩ s := by
  subst hn hm
  simp only [hencSize, if_neg h, if_pos h']

theorem hencSize_next {b n m : Nat} (hb : codeBits s.store.freq s.store.code = b) (hn : payloadLen b = n)
    (hm : descriptorLen s.store.leaves = m) (h : ¬ n > s.latched.dst.len) (h' : ¬ m > s.latched.aux.len) :
    hencSize s = .next { s with
      phase := .henc .serialize
      store := { s.store with
        padBits := padLen b, payLen := n, descLen := m, maxDepth := maxCodeLen s.store.freq s.store.code } } := by
  subst hb hn hm
  simp only [hencSize, if_neg h, if_neg h']

/-! ## HDEC -/

theorem hdecParse_error {e : Raise} (h : parseDescriptor (s.regionBytes s.latched.aux) = .error e) :
    hdecParse s = raiseError .beforeWrite e s := by
  rw [hdecParse, h]

theorem hdecParse_next {t : Parsed} (h : parseDescriptor (s.regionBytes s.latched.aux) = .ok t) :
    hdecParse s = .next { s with
      phase := .hdec .header
      store := { s.store with
        node := t.vars.node, root := t.root, nint := t.vars.nint, seen := t.vars.seen, bitPos := t.vars.pos,
        leaves := t.vars.node.length - t.vars.nint, maxDepth := t.vars.maxDepth } } := by
  rw [hdecParse, h]

theorem hdecHeader_error {e : Raise} (h : parseHeader (s.regionBytes s.latched.src) = .error e) :
    hdecHeader s = raiseError .beforeWrite e s := by
  rw [hdecHeader, h]

theorem hdecHeader_next {pad d : Nat} (h : parseHeader (s.regionBytes s.latched.src) = .ok (pad, d)) :
    hdecHeader s = .next { s with
      phase := .hdec .walk
      store := { s.store with padBits := pad, dataBits := d } } := by
  rw [hdecHeader, h]

section
variable {sym : Byte} (hl : leafSym s.store.node s.store.root = some sym)
include hl

theorem hdecWalk_leafBits (h : s.store.dataBits ≠ 0) :
    hdecWalk s = raiseError .beforeWrite ⟨.paySingleLeafBits, 1⟩ s := by
  simp only [hdecWalk, hl, hdecSingleLeaf, if_pos h]

theorem hdecWalk_leafFull (h : ¬ s.store.dataBits ≠ 0) (h' : s.latched.expLen.toNat > s.latched.dst.len) :
    hdecWalk s = raiseError .beforeWrite ⟨.dstFull, s.latched.dst.len⟩ s := by
  simp only [hdecWalk, hl, hdecSingleLeaf, if_neg h, if_pos h']

theorem hdecWalk_leafNext (h : ¬ s.store.dataBits ≠ 0) (h' : ¬ s.latched.expLen.toNat > s.latched.dst.len) :
    hdecWalk s = .next { writeRegion s.latched.dst 0 (List.replicate s.latched.expLen.toNat sym) s with
      phase := .hdec .finish
      store := { s.store with outPos := s.latched.expLen.toNat } } := by
  simp only [hdecWalk, hl, hdecSingleLeaf, if_neg h, if_neg h']

theorem hdecFinish_leaf : hdecFinish s = complete (hdecResults s) s := by simp only [hdecFinish, hl]

end

section
variable (hl : leafSym s.store.node s.store.root = none)
include hl

theorem hdecWalk_treeError {e : Raise} (h : walkBits s.store.node s.store.root s.latched.dst.len
      (dataBitsOf (s.regionBytes s.latched.src) s.store.dataBits) s.store.root [] = .error e) :
    hdecWalk s = raiseError .afterWrite e s := by
  simp only [hdecWalk, hl, hdecWalkTree, h]

theorem hdecWalk_treeNext {n : Nat} {out : List Byte} (h : walkBits s.store.node s.store.root s.latched.dst.len
      (dataBitsOf (s.regionBytes s.latched.src) s.store.dataBits) s.store.root [] = .ok (n, out)) :
    hdecWalk s = .next { writeRegion s.latched.dst 0 out s with
      phase := .hdec .finish
      store := { s.store with outPos := out.length, walkAt := n } } := by
  simp only [hdecWalk, hl, hdecWalkTree, h]

theorem hdecFinish_incomplete (h : s.store.walkAt ≠ s.store.root) :
    hdecFinish s = raiseError .afterWrite ⟨.payIncomplete, s.latched.src.len - 1⟩ s := by
  simp only [hdecFinish, hl, if_pos h]

theorem hdecFinish_mismatch (h : ¬ s.store.walkAt ≠ s.store.root)
    (h' : s.latchedLenchk ∧ s.store.outPos ≠ s.latched.expLen.toNat) :
    hdecFinish s = raiseError .afterWrite ⟨.hdecLengthMismatch, s.store.outPos⟩ s := by
  simp only [hdecFinish, hl, if_neg h, if_pos h']

theorem hdecFinish_tree (h : ¬ s.store.walkAt ≠ s.store.root)
    (h' : ¬ (s.latchedLenchk ∧ s.store.outPos ≠ s.latched.expLen.toNat)) :
    hdecFinish s = complete (hdecResults s) s := by
  simp only [hdecFinish, hl, if_neg h, if_neg h']

end

/-! ## LENC -/

theorem lencScan_error {e : Raise} (h : scanBytes s.params.dictCap s.latched.dst.len 0
      (s.regionBytes s.latched.src) { dict := s.store.dict, cand := s.store.cand, codes := [] } = .error e) :
    lencScan s = raiseError .afterWrite e s := by
  rw [lencScan, h]

theorem lencScan_next {t : Scan} (h : scanBytes s.params.dictCap s.latched.dst.len 0
      (s.regionBytes s.latched.src) { dict := s.store.dict, cand := s.store.cand, codes := [] } = .ok t) :
    lencScan s = .next { writeRegion s.latched.dst 0 (streamBytes t.codes) s with
      phase := .lenc .flush
      store := { s.store with dict := t.dict, cand := t.cand, count := t.codes.length } } := by
  rw [lencScan, h]

theorem lencFlush_empty (h : s.store.cand = []) :
    lencFlush s = complete (lencResults s.store.count s.store.dict.length) s := by
  rw [lencFlush, if_pos h]

theorem lencFlush_full {e : Raise} (h : s.store.cand ≠ [])
    (he : emitCheck s.latched.dst.len s.store.count = .error e) : lencFlush s = raiseError .afterWrite e s := by
  rw [lencFlush, if_neg h, he]

theorem lencFlush_emit {u : Unit} (h : s.store.cand ≠ [])
    (he : emitCheck s.latched.dst.len s.store.count = .ok u) :
    lencFlush s = complete (lencResults (s.store.count + 1) s.store.dict.length)
      { writeRegion s.latched.dst (4 * s.store.count) (bytesOfWord (codeOfString s.store.dict s.store.cand)) s with
        store := { s.store with count := s.store.count + 1 } } := by
  rw [lencFlush, if_neg h, he]

/-! ## LDEC -/

theorem ldecFirst_partial (h : s.latched.src.len % 4 ≠ 0) :
    ldecFirst s = raiseError .beforeWrite ⟨.partialWord, s.latched.src.len - s.latched.src.len % 4⟩ s := by
  rw [ldecFirst, if_pos h]

section
variable (hw : ¬ s.latched.src.len % 4 ≠ 0)
include hw

theorem ldecFirst_empty (h : codesOfBytes (s.regionBytes s.latched.src) = []) :
    ldecFirst s = .next { s with phase := .ldec .finish } := by
  rw [ldecFirst, if_neg hw, h]

variable {k : Nat} {ks : List Nat} (h : codesOfBytes (s.regionBytes s.latched.src) = k :: ks)
include h

theorem ldecFirst_code (hk : k ≥ 256) : ldecFirst s = raiseError .beforeWrite ⟨.firstCode, 0⟩ s := by
  simp only [ldecFirst, if_neg hw, h, if_pos hk]

theorem ldecFirst_full {e : Raise} (hk : ¬ k ≥ 256)
    (he : emitString s.latched.dst.len (stringAt s.store.dict k) 0 = .error e) :
    ldecFirst s = raiseError .afterWrite e s := by
  simp only [ldecFirst, if_neg hw, h, if_neg hk, he]

theorem ldecFirst_next {p : Nat} (hk : ¬ k ≥ 256)
    (he : emitString s.latched.dst.len (stringAt s.store.dict k) 0 = .ok p) :
    ldecFirst s = .next { writeRegion s.latched.dst 0 (stringAt s.store.dict k) s with
      phase := .ldec .loop
      store := { s.store with prev := stringAt s.store.dict k, outPos := p } } := by
  simp only [ldecFirst, if_neg hw, h, if_neg hk, he]

end

theorem ldecLoop_error {e : Raise} {ks : List Nat} (hks : (codesOfBytes (s.regionBytes s.latched.src)).drop 1 = ks)
    (h : unscanCodes s.params.dictCap s.latched.dst.len 1 ks
      { dict := s.store.dict, prev := s.store.prev, pos := s.store.outPos, out := [] } = .error e) :
    ldecLoop s = raiseError .afterWrite e s := by
  rw [ldecLoop, hks, h]

theorem ldecLoop_next {t : Unscan} {ks : List Nat} (hks : (codesOfBytes (s.regionBytes s.latched.src)).drop 1 = ks)
    (h : unscanCodes s.params.dictCap s.latched.dst.len 1 ks
      { dict := s.store.dict, prev := s.store.prev, pos := s.store.outPos, out := [] } = .ok t) :
    ldecLoop s = .next { writeRegion s.latched.dst s.store.outPos t.out s with
      phase := .ldec .finish
      store := { s.store with dict := t.dict, prev := t.prev, outPos := t.pos } } := by
  rw [ldecLoop, hks, h]

theorem ldecFinish_mismatch (h : s.latchedLenchk ∧ s.store.outPos ≠ s.latched.expLen.toNat) :
    ldecFinish s = raiseError .afterWrite ⟨.ldecLengthMismatch, s.store.outPos⟩ s := by
  rw [ldecFinish, if_pos h]

theorem ldecFinish_success (h : ¬ (s.latchedLenchk ∧ s.store.outPos ≠ s.latched.expLen.toNat)) :
    ldecFinish s = complete (ldecResults s.store) s := by
  rw [ldecFinish, if_neg h]

end Sys2Proof.Machine
end

section
/-! The outcome of a command as a function of what it reads (R137), and that exec comes to it. -/

namespace Sys2Proof.Machine

/-! ## Outcomes -/

/-- The outcome of a command: its completion, and the bytes it leaves at the start of DST and of AUX. -/
structure Verdict where
  ending : Ending
  dst : List Byte
  aux : List Byte

/-- An error, raised before any byte is written or not (R140). -/
def Verdict.fail (c : WriteClass) (cause : Cause) (offset : Nat) : Verdict := ⟨.error c ⟨cause, offset⟩, [], []⟩

/-- HENC of the input `x` (R160 to R173). -/
def hencVerdict (o : Operands) (x : List Byte) : Verdict :=
  if o.src.len = 0 then .fail .beforeWrite .hencEmpty 0
  else if hencPayLen x > o.dst.len then .fail .beforeWrite .dstFull (min (hencPayLen x) (2 ^ 32 - 1))
  else if descriptorLen (distinctCount x) > o.aux.len then
    .fail .beforeWrite .auxFull (descriptorLen (distinctCount x))
  else
    { ending := .success
        { resLen := hencPayLen x, resAuxLen := descriptorLen (distinctCount x),
          info := infoWord (distinctCount x) (maxCodeLen (freqTable x) (hencCode x)), dictSize := 0 }
      dst := payloadBytes (hencCode x) (padLen (encodeBits (hencCode x) x).length) x
      aux := descriptorBytes (hencTree x).node (hencTree x).root }

/-- HDEC's success with the output `out` (R211). -/
def hdecSuccess (o : Operands) (t : Parsed) (out : List Byte) : Verdict :=
  { ending := .success
      { resLen := out.length, resAuxLen := o.aux.len,
        info := infoWord (t.vars.node.length - t.vars.nint) t.vars.maxDepth, dictSize := 0 }
    dst := out
    aux := [] }

/-- HDEC's WALK and FINISH on the `d` data bits of the payload `x` (R207 to R211). -/
def hdecWalkVerdict (o : Operands) (lenchk : Bool) (t : Parsed) (x : List Byte) (d : Nat) : Verdict :=
  match leafSym t.vars.node t.root with
  | some sym =>
    if d ≠ 0 then .fail .beforeWrite .paySingleLeafBits 1
    else if o.expLen.toNat > o.dst.len then .fail .beforeWrite .dstFull o.dst.len
    else hdecSuccess o t (List.replicate o.expLen.toNat sym)
  | none =>
    match walkBits t.vars.node t.root o.dst.len (dataBitsOf x d) t.root [] with
    | .error e => .fail .afterWrite e.cause e.offset
    | .ok (n, out) =>
      if n ≠ t.root then .fail .afterWrite .payIncomplete (o.src.len - 1)
      else if lenchk ∧ out.length ≠ o.expLen.toNat then .fail .afterWrite .hdecLengthMismatch out.length
      else hdecSuccess o t out

/-- HDEC of the payload `x` and the descriptor `desc` (R200 to R211). -/
def hdecVerdict (o : Operands) (lenchk : Bool) (x desc : List Byte) : Verdict :=
  match parseDescriptor desc with
  | .error e => .fail .beforeWrite e.cause e.offset
  | .ok t =>
    match parseHeader x with
    | .error e => .fail .beforeWrite e.cause e.offset
    | .ok (_, d) => hdecWalkVerdict o lenchk t x d

/-- LENC's FLUSH after the scan `t` (R243, R246). -/
def lencFlushVerdict (o : Operands) (t : Scan) : Verdict :=
  if t.cand = [] then ⟨.success (lencResults t.codes.length t.dict.length), streamBytes t.codes, []⟩
  else
    match emitCheck o.dst.len t.codes.length with
    | .error e => .fail .afterWrite e.cause e.offset
    | .ok _ =>
      ⟨.success (lencResults (t.codes.length + 1) t.dict.length),
        streamBytes (t.codes ++ [codeOfString t.dict t.cand]), []⟩

/-- LENC of the input `x` (R240 to R246). -/
def lencVerdict (p : Params) (o : Operands) (x : List Byte) : Verdict :=
  match scanBytes p.dictCap o.dst.len 0 x { dict := seedDict, cand := [], codes := [] } with
  | .error e => .fail .afterWrite e.cause e.offset
  | .ok t => lencFlushVerdict o t

/-- LDEC's FINISH with the output `out` and `next` entries in DICT (R278, R279). -/
def ldecFinishVerdict (o : Operands) (lenchk : Bool) (out : List Byte) (next : Nat) : Verdict :=
  if lenchk ∧ out.length ≠ o.expLen.toNat then .fail .afterWrite .ldecLengthMismatch out.length
  else ⟨.success { resLen := out.length, resAuxLen := 0, info := 0, dictSize := next }, out, []⟩

/-- LDEC's LOOP and FINISH on the codes `ks` after a first code of the string `e` (R274 to R279). -/
def ldecLoopVerdict (p : Params) (o : Operands) (lenchk : Bool) (e : List Byte) (ks : List Nat) : Verdict :=
  match unscanCodes p.dictCap o.dst.len 1 ks { dict := seedDict, prev := e, pos := e.length, out := [] } with
  | .error r => .fail .afterWrite r.cause r.offset
  | .ok t => ldecFinishVerdict o lenchk (e ++ t.out) t.dict.length

/-- LDEC of the code stream `x` (R270 to R279). -/
def ldecVerdict (p : Params) (o : Operands) (lenchk : Bool) (x : List Byte) : Verdict :=
  if o.src.len % 4 ≠ 0 then .fail .beforeWrite .partialWord (o.src.len - o.src.len % 4)
  else
    match codesOfBytes x with
    | [] => ldecFinishVerdict o lenchk [] seedDict.length
    | k :: ks =>
      if k ≥ 256 then .fail .beforeWrite .firstCode 0
      else
        match emitString o.dst.len (stringAt seedDict k) 0 with
        | .error e => .fail .afterWrite e.cause e.offset
        | .ok _ => ldecLoopVerdict p o lenchk (stringAt seedDict k) ks

/-- A command whose region checks pass, as a function of its parameters, its operands, LENCHK and the bytes of SRC
and AUX. -/
def commandVerdict (i : Instr) (p : Params) (o : Operands) (lenchk : Bool) (x desc : List Byte) : Verdict :=
  match i with
  | .henc => hencVerdict o x
  | .hdec => hdecVerdict o lenchk x desc
  | .lenc => lencVerdict p o x
  | .ldec => ldecVerdict p o lenchk x

/-- The command's outcome from a ready state: the region checks, then what it makes of its input (R136, R137). -/
def State.verdict (s : State) (i : Instr) : Verdict :=
  match checkRegions s.params.memSize i s.operands with
  | some c => .fail .beforeWrite c 0
  | none => commandVerdict i s.params s.operands s.lenchk (s.regionBytes s.operands.src) (s.regionBytes s.operands.aux)

/-- BUF with the outcome's bytes in place. -/
def Verdict.writeTo (v : Verdict) (o : Operands) (m : Memory) : Memory :=
  (m.setBytes o.aux.base v.aux).setBytes o.dst.base v.dst

/-- `t` is what the outcome makes of a command written in `s`: the registers are those of its completion, and BUF
holds its bytes, unless the output bytes have become free values (R138 to R140). -/
def Verdict.Concludes (v : Verdict) (s t : State) : Prop :=
  ∃ u : State, t = v.ending.regs u ∧ (v.ending.freesOutputs = false → u.mem = v.writeTo s.operands s.mem)

/-! ## A running command -/

/-- The command written in `s`, at phase `p`, with internal storage `st` and with BUF as `m`. -/
def State.running (s : State) (p : Phase) (st : Store) (m : Memory) : State :=
  { startCommand p s with store := st, mem := m }

/-- The core's turns bring the running command to the outcome. -/
def Leads (s : State) (p : Phase) (st : Store) (m : Memory) (v : Verdict) : Prop :=
  ∀ n, p.turnsLeft ≤ n → ∃ t, runTurns coreTurn n (s.running p st m) = .next t ∧ v.Concludes s t

section
variable {s : State} {p : Phase} {st : Store} {m : Memory} {v : Verdict}

/-- A turn that goes on to a later phase. -/
theorem leads_step {q : Phase} {st' : Store} {m' : Memory}
    (ht : coreTurn (s.running p st m) = .next (s.running q st' m')) (hq : q.turnsLeft < p.turnsLeft)
    (h : Leads s q st' m' v) : Leads s p st m v := by
  intro n hn
  obtain ⟨k, rfl⟩ : ∃ k, n = k + 1 := Nat.exists_eq_succ_of_ne_zero (by omega)
  rw [runTurns_succ k rfl ht]
  exact h k (by omega)

/-- A turn that writes no byte and goes on to a later phase. -/
theorem leads_quiet {q : Phase} {st' : Store}
    (ht : coreTurn (s.running p st m) = .next { s.running p st m with phase := q, store := st' })
    (hq : q.turnsLeft < p.turnsLeft) (h : Leads s q st' m v) : Leads s p st m v :=
  leads_step (m' := m) ht hq h

/-- A turn that ends the command. -/
theorem leads_end {t : State} (ht : coreTurn (s.running p st m) = .next t) (hi : t.busy = false)
    (hv : v.Concludes s t) : Leads s p st m v := by
  intro n hn
  obtain ⟨k, rfl⟩ : ∃ k, n = k + 1 :=
    Nat.exists_eq_succ_of_ne_zero (by have := turnsLeft_pos p; omega)
  exact ⟨t, (runTurns_succ k rfl ht).trans (runTurns_idle k hi), hv⟩

/-- A turn that raises an error. -/
theorem leads_raise {c : WriteClass} {cause : Cause} {offset : Nat}
    (ht : coreTurn (s.running p st m) = raiseError c ⟨cause, offset⟩ (s.running p st m))
    (hm : c = .beforeWrite → m = s.mem) : Leads s p st m (.fail c cause offset) := by
  cases c with
  | beforeWrite => exact leads_end (ht.trans (raiseError_before rfl rfl)) rfl ⟨_, rfl, fun _ => hm rfl⟩
  | afterWrite => exact leads_end (ht.trans (raiseError_after rfl)) rfl ⟨_, rfl, nofun⟩

/-- A turn that writes into a region and goes on to a later phase. -/
theorem leads_write {r : Region} {off : Nat} {bs : List Byte} {q : Phase} {st' : Store}
    (ht : coreTurn (s.running p st m) =
      .next { writeRegion r off bs (s.running p st m) with phase := q, store := st' })
    (hr : r.base + r.len ≤ s.params.memSize) (hf : off + bs.length ≤ r.len) (hq : q.turnsLeft < p.turnsLeft)
    (h : Leads s q st' (m.setBytes (r.base + off) bs) v) : Leads s p st m v := by
  rw [writeRegion_of_fits (s := s.running p st m) hf hr] at ht
  exact leads_step ht hq h

/-- A turn that completes with success, with the outcome's bytes in place. -/
theorem leads_complete {r : Results} {dst aux : List Byte}
    (ht : coreTurn (s.running p st m) = complete r (s.running p st m))
    (hm : m = Verdict.writeTo ⟨.success r, dst, aux⟩ s.operands s.mem) : Leads s p st m ⟨.success r, dst, aux⟩ :=
  leads_end (ht.trans (complete_untouched rfl rfl)) rfl ⟨_, rfl, fun _ => hm⟩

/-- A turn that writes the last of the outcome's bytes and completes with success. -/
theorem leads_writeComplete {q : Region} {off : Nat} {bs : List Byte} {st' : Store} {r : Results}
    {dst aux : List Byte}
    (ht : coreTurn (s.running p st m) = complete r { writeRegion q off bs (s.running p st m) with store := st' })
    (hr : q.base + q.len ≤ s.params.memSize) (hf : off + bs.length ≤ q.len)
    (hm : m.setBytes (q.base + off) bs = Verdict.writeTo ⟨.success r, dst, aux⟩ s.operands s.mem) :
    Leads s p st m ⟨.success r, dst, aux⟩ := by
  rw [writeRegion_of_fits (s := s.running p st m) hf hr] at ht
  exact leads_end (ht.trans (complete_untouched rfl rfl)) rfl ⟨_, rfl, fun _ => hm⟩

end

theorem Memory.setBytes_append : ∀ (bs cs : List Byte) (m : Memory) (a : Nat),
    m.setBytes a (bs ++ cs) = (m.setBytes a bs).setBytes (a + bs.length) cs
  | [], _, _, _ => rfl
  | b :: bs, cs, m, a => by
    rw [List.cons_append, Memory.setBytes, Memory.setBytes, setBytes_append bs cs, List.length_cons,
      Nat.add_right_comm, Nat.add_assoc]

/-- A write into one region leaves the bytes of a region that does not overlap it (R135). -/
theorem Memory.bytesAt_setBytes_disjoint {r q : Region} {bs : List Byte} (m : Memory) (h : r.overlaps q = false)
    (hl : bs.length ≤ q.len) : (m.setBytes q.base bs).bytesAt r.base r.len = m.bytesAt r.base r.len := by
  rw [← Bool.not_eq_true, Region.overlaps_iff] at h
  exact Memory.bytesAt_congr fun k hk => Memory.byteAt_setBytes_outside bs m q.base (r.base + k) (by omega)

/-! ## LENC -/

/-- FLUSH, with the codes of the scan `t` in DST. -/
theorem lencFlush_leads {s : State} {t : Scan} (hd : s.operands.dst.base + s.operands.dst.len ≤ s.params.memSize) :
    Leads s (.lenc .flush) { Store.fresh with dict := t.dict, cand := t.cand, count := t.codes.length }
      (s.mem.setBytes s.operands.dst.base (streamBytes t.codes)) (lencFlushVerdict s.operands t) := by
  unfold lencFlushVerdict
  split
  · next hc => exact leads_complete (lencFlush_empty (s := s.running _ _ _) hc) rfl
  · next hc =>
    split
    · next e he => exact leads_raise (lencFlush_full (s := s.running _ _ _) hc he) nofun
    · next he =>
      refine leads_writeComplete (lencFlush_emit (s := s.running _ _ _) hc he) hd (emitCheck_ok.mp he) ?_
      rw [Verdict.writeTo, streamBytes_concat, Memory.setBytes_append, length_streamBytes]
      rfl

/-- LENC, from SCAN on. -/
theorem lencScan_leads {s : State} (hd : s.operands.dst.base + s.operands.dst.len ≤ s.params.memSize) :
    Leads s (.lenc .scan) Store.fresh s.mem
      (lencVerdict s.params s.operands (s.regionBytes s.operands.src)) := by
  unfold lencVerdict
  split
  · next e he => exact leads_raise (lencScan_error (s := s.running _ _ _) he) nofun
  · next t ht =>
    have hfit : 4 * t.codes.length ≤ s.operands.dst.len := scanBytes_fits (Nat.zero_le _) ht
    exact leads_write (lencScan_next (s := s.running _ _ _) ht) hd
      (by rw [length_streamBytes]; exact (Nat.zero_add _).trans_le hfit) (Nat.lt_succ_self 1) (lencFlush_leads hd)

/-! ## LDEC -/

/-- FINISH, with the output in DST. -/
theorem ldecFinish_leads {s : State} {st : Store} {out : List Byte} (ho : st.outPos = out.length) :
    Leads s (.ldec .finish) st (s.mem.setBytes s.operands.dst.base out)
      (ldecFinishVerdict s.operands s.lenchk out st.dict.length) := by
  unfold ldecFinishVerdict
  rw [← ho]
  split
  · next h => exact leads_raise (ldecFinish_mismatch (s := s.running _ _ _) h) nofun
  · next h => exact leads_complete (ldecFinish_success (s := s.running _ _ _) h) rfl

/-- LOOP, with the string `e` of the first code in DST. -/
theorem ldecLoop_leads {s : State} {e : List Byte} {ks : List Nat}
    (hd : s.operands.dst.base + s.operands.dst.len ≤ s.params.memSize)
    (ho : s.operands.src.overlaps s.operands.dst = false)
    (hks : (codesOfBytes (s.regionBytes s.operands.src)).drop 1 = ks) (he : e.length ≤ s.operands.dst.len) :
    Leads s (.ldec .loop) { Store.fresh with prev := e, outPos := e.length }
      (s.mem.setBytes s.operands.dst.base e) (ldecLoopVerdict s.params s.operands s.lenchk e ks) := by
  have hsrc : (codesOfBytes ((s.mem.setBytes s.operands.dst.base e).bytesAt s.operands.src.base
      s.operands.src.len)).drop 1 = ks := by
    rw [Memory.bytesAt_setBytes_disjoint s.mem ho he]; exact hks
  unfold ldecLoopVerdict
  split
  · next r hr => exact leads_raise (ldecLoop_error (s := s.running _ _ _) hsrc hr) nofun
  · next t ht =>
    obtain ⟨hpos, hfit⟩ := unscanCodes_fits he ht
    have hlen : t.pos = (e ++ t.out).length := by
      rw [List.length_append]
      exact hpos
    refine leads_write (ldecLoop_next (s := s.running _ _ _) hsrc ht) hd ?_ (Nat.lt_succ_self 1) ?_
    · exact (hpos.symm.trans (Nat.add_zero _)).trans_le hfit
    · show Leads s _ _ ((s.mem.setBytes s.operands.dst.base e).setBytes (s.operands.dst.base + e.length) t.out) _
      rw [← Memory.setBytes_append]
      exact ldecFinish_leads hlen

/-- LDEC, from FIRST on. -/
theorem ldecFirst_leads {s : State} (hd : s.operands.dst.base + s.operands.dst.len ≤ s.params.memSize)
    (ho : s.operands.src.overlaps s.operands.dst = false) :
    Leads s (.ldec .first) Store.fresh s.mem
      (ldecVerdict s.params s.operands s.lenchk (s.regionBytes s.operands.src)) := by
  unfold ldecVerdict
  split
  · next hw => exact leads_raise (ldecFirst_partial (s := s.running _ _ _) hw) (fun _ => rfl)
  · next hw =>
    split
    · next hk =>
      refine leads_quiet (q := .ldec .finish) (st' := Store.fresh)
        (ldecFirst_empty (s := s.running _ _ _) hw hk) (by decide) ?_
      exact ldecFinish_leads (out := []) rfl
    · next k ks hks =>
      split
      · next hk => exact leads_raise (ldecFirst_code (s := s.running _ _ _) hw hks hk) (fun _ => rfl)
      · next hk =>
        split
        · next e he =>
          exact leads_raise (ldecFirst_full (s := s.running _ _ _) hw hks hk he) nofun
        · next p hp =>
          obtain ⟨hfit, rfl⟩ := (emitString_ok (Nat.zero_le _)).mp hp
          have hlen : 0 + (stringAt seedDict k).length = (stringAt seedDict k).length := Nat.zero_add _
          refine leads_write (ldecFirst_next (s := s.running _ _ _) hw hks hk hp) hd hfit (Nat.lt_succ_self 2) ?_
          rw [hlen] at hfit ⊢
          exact ldecLoop_leads hd ho (by rw [hks]; rfl) hfit

/-! ## HDEC -/

/-- FINISH with success, with the output in DST. -/
theorem hdecSuccess_leads {s : State} {st : Store} {t : Parsed} {out : List Byte}
    (hturn : coreTurn (s.running (.hdec .finish) st (s.mem.setBytes s.operands.dst.base out)) =
      complete (hdecResults (s.running (.hdec .finish) st (s.mem.setBytes s.operands.dst.base out)))
        (s.running (.hdec .finish) st (s.mem.setBytes s.operands.dst.base out)))
    (ho : st.outPos = out.length) (hl : st.leaves = t.vars.node.length - t.vars.nint)
    (hd : st.maxDepth = t.vars.maxDepth) :
    Leads s (.hdec .finish) st (s.mem.setBytes s.operands.dst.base out) (hdecSuccess s.operands t out) := by
  unfold hdecSuccess
  rw [← ho, ← hl, ← hd]
  exact leads_complete hturn rfl

/-- WALK, on the tree `t` that PARSE left and with `d` data bits. -/
theorem hdecWalk_leads {s : State} {st : Store} {t : Parsed} {d : Nat}
    (hm : s.operands.dst.base + s.operands.dst.len ≤ s.params.memSize)
    (hnode : st.node = t.vars.node) (hroot : st.root = t.root)
    (hl : st.leaves = t.vars.node.length - t.vars.nint) (hd : st.maxDepth = t.vars.maxDepth)
    (hbits : st.dataBits = d) :
    Leads s (.hdec .walk) st s.mem
      (hdecWalkVerdict s.operands s.lenchk t (s.regionBytes s.operands.src) d) := by
  unfold hdecWalkVerdict
  rw [← hnode, ← hroot, ← hbits]
  split
  · next sym hsym =>
    split
    · next h => exact leads_raise (hdecWalk_leafBits (s := s.running _ _ _) hsym h) (fun _ => rfl)
    · next h =>
      split
      · next h' => exact leads_raise (hdecWalk_leafFull (s := s.running _ _ _) hsym h h') (fun _ => rfl)
      · next h' =>
        refine leads_write (hdecWalk_leafNext (s := s.running _ _ _) hsym h h') hm ?_ (Nat.lt_succ_self 1) ?_
        · rw [List.length_replicate, Nat.zero_add]; exact not_lt.mp h'
        · exact hdecSuccess_leads (hdecFinish_leaf (s := s.running _ _ _) hsym) List.length_replicate.symm hl hd
  · next hsym =>
    split
    · next e he =>
      exact leads_raise (hdecWalk_treeError (s := s.running _ _ _) hsym he) nofun
    · next n out hw =>
      have hfit : out.length ≤ s.operands.dst.len := walkBits_fits (Nat.zero_le _) hw
      refine leads_write (hdecWalk_treeNext (s := s.running _ _ _) hsym hw) hm (by rw [Nat.zero_add]; exact hfit)
        (Nat.lt_succ_self 1) ?_
      split
      · next hn =>
        exact leads_raise (hdecFinish_incomplete (s := s.running _ _ _) hsym hn) nofun
      · next hn =>
        split
        · next hc =>
          exact leads_raise (hdecFinish_mismatch (s := s.running _ _ _) hsym hn hc) nofun
        · next hc => exact hdecSuccess_leads (hdecFinish_tree (s := s.running _ _ _) hsym hn hc) rfl hl hd

/-- HDEC, from PARSE on. -/
theorem hdecParse_leads {s : State} (hm : s.operands.dst.base + s.operands.dst.len ≤ s.params.memSize) :
    Leads s (.hdec .parse) Store.fresh s.mem
      (hdecVerdict s.operands s.lenchk (s.regionBytes s.operands.src) (s.regionBytes s.operands.aux)) := by
  unfold hdecVerdict
  split
  · next e he => exact leads_raise (hdecParse_error (s := s.running _ _ _) he) (fun _ => rfl)
  · next t ht =>
    refine leads_quiet (hdecParse_next (s := s.running _ _ _) ht) (Nat.lt_succ_self 3) ?_
    split
    · next e he => exact leads_raise (hdecHeader_error (s := s.running _ _ _) he) (fun _ => rfl)
    · next h d hhd =>
      exact leads_quiet (hdecHeader_next (s := s.running _ _ _) hhd) (Nat.lt_succ_self 2)
        (hdecWalk_leads hm rfl rfl rfl rfl rfl)

/-! ## HENC -/

/-- PACK, with the descriptor in AUX: the input is read again, unchanged. -/
theorem hencPack_leads {s : State} {st : Store} {x desc : List Byte}
    (hm : s.operands.dst.base + s.operands.dst.len ≤ s.params.memSize)
    (ho : s.operands.src.overlaps s.operands.aux = false) (hx : s.regionBytes s.operands.src = x)
    (hdesc : desc.length ≤ s.operands.aux.len)
    (hpay : (payloadBytes st.code st.padBits x).length ≤ s.operands.dst.len) :
    Leads s (.henc .pack) st (s.mem.setBytes s.operands.aux.base desc)
      ⟨.success (hencResults st), payloadBytes st.code st.padBits x, desc⟩ := by
  have hsrc : (s.running (.henc .pack) st (s.mem.setBytes s.operands.aux.base desc)).regionBytes s.operands.src = x :=
    (Memory.bytesAt_setBytes_disjoint s.mem ho hdesc).trans hx
  have hturn : coreTurn (s.running (.henc .pack) st (s.mem.setBytes s.operands.aux.base desc)) =
      complete (hencResults st) { writeRegion s.operands.dst 0 (payloadBytes st.code st.padBits x)
        (s.running (.henc .pack) st (s.mem.setBytes s.operands.aux.base desc)) with store := st } := by
    rw [← hsrc]; rfl
  exact leads_writeComplete hturn hm (by rw [Nat.zero_add]; exact hpay) rfl

/-- HENC, from COUNT on. -/
theorem hencCount_leads {s : State} (hd : s.operands.dst.base + s.operands.dst.len ≤ s.params.memSize)
    (ha : s.operands.aux.base + s.operands.aux.len ≤ s.params.memSize)
    (ho : s.operands.src.overlaps s.operands.aux = false) :
    Leads s (.henc .count) Store.fresh s.mem (hencVerdict s.operands (s.regionBytes s.operands.src)) := by
  generalize hx : s.regionBytes s.operands.src = x
  have hbits : codeBits (freqTable x) (hencCode x) = (encodeBits (hencCode x) x).length := codeBits_freqTable _ x
  have hpay : payloadLen (codeBits (freqTable x) (hencCode x)) = hencPayLen x := by rw [hbits, hencPayLen]
  rw [hencVerdict, ← length_keys_freqTable]
  split
  · next h => exact leads_raise (hencCount_empty (s := s.running _ _ _) h) (fun _ => rfl)
  · next h =>
    have hne : x ≠ [] := by
      rw [← hx, ← List.length_pos_iff, State.regionBytes_length]
      exact Nat.pos_of_ne_zero h
    refine leads_quiet (hencCount_next (s := s.running _ _ _) h) (Nat.lt_succ_self 5) ?_
    rw [show (s.running (.henc .count) Store.fresh s.mem).regionBytes
      (s.running (.henc .count) Store.fresh s.mem).latched.src = x from hx]
    refine leads_quiet (p := .henc .build) (q := .henc .codegen) rfl (Nat.lt_succ_self 4) ?_
    refine leads_quiet (p := .henc .codegen) (q := .henc .size) rfl (Nat.lt_succ_self 3) ?_
    split
    · next h1 => exact leads_raise (hencSize_dstFull (s := s.running _ _ _) hpay h1) (fun _ => rfl)
    · next h1 =>
      split
      · next h2 => exact leads_raise (hencSize_auxFull (s := s.running _ _ _) hpay rfl h1 h2) (fun _ => rfl)
      · next h2 =>
        refine leads_quiet (hencSize_next (s := s.running _ _ _) hbits rfl rfl h1 h2) (Nat.lt_succ_self 2) ?_
        have hdesc : (descriptorBytes (hencTree x).node (hencTree x).root).length ≤ s.operands.aux.len := by
          rw [(descriptorLength x hne).2, ← length_keys_freqTable]
          exact not_lt.mp h2
        refine leads_write (p := .henc .serialize) (q := .henc .pack) (r := s.operands.aux) (off := 0)
          (bs := descriptorBytes (hencTree x).node (hencTree x).root) rfl ha (by rw [Nat.zero_add]; exact hdesc)
          (Nat.lt_succ_self 1) ?_
        refine hencPack_leads hd ho hx hdesc ?_
        exact (length_payloadBytes (hencCode x) x).trans_le (not_lt.mp h1)

end Sys2Proof.Machine
end

section
/-! What follows of a command from its outcome: the bounds of its results, and that it depends on its inputs alone
(R137, R151). -/

namespace Sys2Proof.Machine

/-! ## exec comes to the outcome -/

/-- Where the checks pass, DST is in range and does not overlap SRC (R134, R135). -/
theorem checkRegions_dst {n : Nat} {i : Instr} {o : Operands} (h : checkRegions n i o = none) :
    o.dst.base + o.dst.len ≤ n ∧ o.src.overlaps o.dst = false := by
  obtain ⟨hrange, hlap⟩ := checkRegions_eq_none.mp h
  exact ⟨hrange (o.dst, .dstRange) (by simp [rangeChecks_eq]),
    hlap (o.src, o.dst) (by cases i <;> simp [overlapChecks])⟩

/-- Where HENC's checks pass, AUX is in range and does not overlap SRC (R134, R135). -/
theorem checkRegions_aux {n : Nat} {o : Operands} (h : checkRegions n .henc o = none) :
    o.aux.base + o.aux.len ≤ n ∧ o.src.overlaps o.aux = false := by
  obtain ⟨hrange, hlap⟩ := checkRegions_eq_none.mp h
  exact ⟨hrange (o.aux, .auxRange) (by simp [rangeChecks]), hlap (o.src, o.aux) (by simp [overlapChecks])⟩

/-- Every command whose checks pass runs to its outcome. -/
theorem afterCheck_leads {i : Instr} {s : State} (h : s.regionsPass i) :
    Leads s (afterCheck i) Store.fresh s.mem (commandVerdict i s.params s.operands s.lenchk
      (s.regionBytes s.operands.src) (s.regionBytes s.operands.aux)) := by
  obtain ⟨hd, ho⟩ := checkRegions_dst h
  cases i with
  | henc =>
    obtain ⟨ha, hoa⟩ := checkRegions_aux h
    exact hencCount_leads hd ha hoa
  | hdec => exact hdecParse_leads hd
  | lenc => exact lencScan_leads hd
  | ldec => exact ldecFirst_leads hd ho

theorem afterCheck_turnsLeft (i : Instr) : (afterCheck i).turnsLeft < (firstPhase i).turnsLeft := by
  cases i <;> decide

/-- exec from a ready state comes to the command's outcome (R136, R137). -/
theorem exec_concludes (i : Instr) {s : State} (hs : s.ready) :
    ∃ t, exec i s = .next t ∧ (s.verdict i).Concludes s t := by
  unfold State.verdict
  split
  · next c hc => exact ⟨_, exec_badRegion hs hc, _, rfl, fun _ => rfl⟩
  · next hc =>
    have hturn : coreTurn (s.running (firstPhase i) Store.fresh s.mem) =
        .next { s.running (firstPhase i) Store.fresh s.mem with phase := afterCheck i, store := Store.fresh } := by
      refine (coreTurn_firstPhase i s).trans ?_
      rw [checkPhase, startCommand_params, startCommand_latched, hc]
      rfl
    obtain ⟨t, ht, hv⟩ :=
      leads_quiet hturn (afterCheck_turnsLeft i) (afterCheck_leads hc) maxPhases (turnsLeft_le_maxPhases _)
    exact ⟨t, (exec_ready hs).trans ht, hv⟩

theorem concludes_of_exec {i : Instr} {s t : State} (hs : s.ready) (h : exec i s = .next t) :
    (s.verdict i).Concludes s t := by
  obtain ⟨u, hu, hv⟩ := exec_concludes i hs
  cases hu.symm.trans h
  exact hv

/-! ## What a success reports -/

/-- The results `r` of a success are within their bounds (R151), and are the numbers of the bytes that it leaves. -/
structure Verdict.Reports (v : Verdict) (i : Instr) (p : Params) (o : Operands) (r : Results) : Prop where
  resLen : r.resLen = v.dst.length
  dst : v.dst.length ≤ o.dst.len
  resAuxLen : r.resAuxLen ≤ o.aux.len
  aux : i = .henc → r.resAuxLen = v.aux.length
  dictSize : r.dictSize ≤ p.dictCap
  leafCount : (r.info.extractLsb' 0 9).toNat ≤ 256

/-- Every success that the outcome can be reports so. -/
def Verdict.Sound (v : Verdict) (i : Instr) (p : Params) (o : Operands) : Prop :=
  ∀ r, v.ending = .success r → v.Reports i p o r

theorem Verdict.fail_sound {c : WriteClass} {cause : Cause} {offset : Nat} {i : Instr} {p : Params} {o : Operands} :
    (Verdict.fail c cause offset).Sound i p o := nofun

theorem Verdict.Reports.sound {i : Instr} {p : Params} {o : Operands} {r : Results} {dst aux : List Byte}
    (h : Verdict.Reports ⟨.success r, dst, aux⟩ i p o r) : Verdict.Sound ⟨.success r, dst, aux⟩ i p o := by
  intro _ hr
  cases hr
  exact h

theorem hencVerdict_sound (p : Params) {o : Operands} {x : List Byte} (hx : x.length = o.src.len) :
    (hencVerdict o x).Sound .henc p o := by
  unfold hencVerdict
  split
  · exact Verdict.fail_sound
  · next hl =>
    have hne : x ≠ [] := List.length_pos_iff.mp (hx ▸ Nat.pos_of_ne_zero hl)
    have hlen := length_payloadBytes (hencCode x) x
    have hleaves : distinctCount x ≤ 256 := (length_keys_freqTable x).symm.trans_le (length_keys_le _)
    split
    · exact Verdict.fail_sound
    · next hn =>
      split
      · exact Verdict.fail_sound
      · next hm =>
        exact Verdict.Reports.sound ⟨hlen.symm, hlen.trans_le (not_lt.mp hn), not_lt.mp hm,
          fun _ => (descriptorLength x hne).2.symm, Nat.zero_le _, leafCount_infoWord _ hleaves⟩

theorem hdecSuccess_sound (p : Params) {o : Operands} {t : Parsed} {out : List Byte}
    (ht : t.vars.node.length - t.vars.nint ≤ 256) (ho : out.length ≤ o.dst.len) :
    (hdecSuccess o t out).Sound .hdec p o :=
  Verdict.Reports.sound ⟨rfl, ho, le_refl _, nofun, Nat.zero_le _, leafCount_infoWord _ ht⟩

theorem hdecVerdict_sound (p : Params) (o : Operands) (lenchk : Bool) (x desc : List Byte) :
    (hdecVerdict o lenchk x desc).Sound .hdec p o := by
  unfold hdecVerdict
  split
  · exact Verdict.fail_sound
  · next t ht =>
    have hleaves := parseDescriptor_leaves ht
    split
    · exact Verdict.fail_sound
    · unfold hdecWalkVerdict
      split
      · split
        · exact Verdict.fail_sound
        · split
          · exact Verdict.fail_sound
          · next hl => exact hdecSuccess_sound p hleaves (List.length_replicate.trans_le (not_lt.mp hl))
      · split
        · exact Verdict.fail_sound
        · next hw =>
          split
          · exact Verdict.fail_sound
          · split
            · exact Verdict.fail_sound
            · exact hdecSuccess_sound p hleaves (walkBits_fits (Nat.zero_le _) hw)

theorem lencVerdict_sound (p : Params) (o : Operands) (x : List Byte) : (lencVerdict p o x).Sound .lenc p o := by
  unfold lencVerdict
  split
  · exact Verdict.fail_sound
  · next t ht =>
    have hfit : 4 * t.codes.length ≤ o.dst.len := scanBytes_fits (Nat.zero_le _) ht
    have hdict : t.dict.length ≤ p.dictCap := (scanBytes_dict_le (length_seedDict_le p) ht).2
    unfold lencFlushVerdict
    split
    · have hlen := length_streamBytes t.codes
      exact Verdict.Reports.sound ⟨hlen.symm, hlen.trans_le hfit, Nat.zero_le _, nofun, hdict, Nat.zero_le _⟩
    · split
      · exact Verdict.fail_sound
      · next he =>
        have hlen : (streamBytes (t.codes ++ [codeOfString t.dict t.cand])).length = 4 * (t.codes.length + 1) := by
          rw [length_streamBytes, List.length_append, List.length_singleton]
        exact Verdict.Reports.sound
          ⟨hlen.symm, hlen.trans_le (emitCheck_ok.mp he), Nat.zero_le _, nofun, hdict, Nat.zero_le _⟩

theorem ldecFinishVerdict_sound {p : Params} {o : Operands} {out : List Byte} {next : Nat} (lenchk : Bool)
    (ho : out.length ≤ o.dst.len) (hn : next ≤ p.dictCap) : (ldecFinishVerdict o lenchk out next).Sound .ldec p o := by
  unfold ldecFinishVerdict
  split
  · exact Verdict.fail_sound
  · exact Verdict.Reports.sound ⟨rfl, ho, Nat.zero_le _, nofun, hn, Nat.zero_le _⟩

theorem ldecVerdict_sound (p : Params) (o : Operands) (lenchk : Bool) (x : List Byte) :
    (ldecVerdict p o lenchk x).Sound .ldec p o := by
  unfold ldecVerdict
  split
  · exact Verdict.fail_sound
  · split
    · exact ldecFinishVerdict_sound lenchk (Nat.zero_le _) (length_seedDict_le p)
    · split
      · exact Verdict.fail_sound
      · split
        · exact Verdict.fail_sound
        · next he =>
          have hfirst := ((emitString_ok (Nat.zero_le _)).mp he).1
          rw [Nat.zero_add] at hfirst
          unfold ldecLoopVerdict
          split
          · exact Verdict.fail_sound
          · next t ht =>
            obtain ⟨hpos, hfit⟩ := unscanCodes_fits hfirst ht
            refine ldecFinishVerdict_sound lenchk ?_ (unscanCodes_dict_le (length_seedDict_le p) ht).2
            rw [List.length_append]
            exact hpos.symm.trans_le hfit

/-- Whatever a success reports is within its bounds. -/
theorem verdict_sound (s : State) (i : Instr) : (s.verdict i).Sound i s.params s.operands := by
  unfold State.verdict
  split
  · exact Verdict.fail_sound
  · cases i with
    | henc => exact hencVerdict_sound s.params (s.regionBytes_length _)
    | hdec => exact hdecVerdict_sound _ _ _ _ _
    | lenc => exact lencVerdict_sound _ _ _
    | ldec => exact ldecVerdict_sound _ _ _ _

theorem toNat_ofNat_le (n : Nat) : (BitVec.ofNat 32 n).toNat ≤ n := by
  rw [BitVec.toNat_ofNat]
  exact Nat.mod_le _ _

/-- A length that fits an operand register is read back from a result register (R151). -/
theorem toNat_ofNat_of_le {n : Nat} {w : Word} (h : n ≤ w.toNat) : (BitVec.ofNat 32 n).toNat = n := by
  rw [BitVec.toNat_ofNat, Nat.mod_eq_of_lt (h.trans_lt w.isLt)]

/-- Settles O10: an error reports zeros, and a success what its outcome says. -/
theorem resultsWithinBounds : Obligations.ResultsWithinBounds := by
  intro i s t hs h
  have hend := exec_ready_ended hs h
  obtain ⟨u, rfl, -⟩ := concludes_of_exec hs h
  have hsound := verdict_sound s i
  cases hk : (s.verdict i).ending with
  | error c e =>
    exact ⟨Nat.zero_le _, Nat.zero_le _, Nat.zero_le _, Nat.zero_le _, hk ▸ hend.info, hk ▸ hend.err⟩
  | success r =>
    have hr := hsound r hk
    refine ⟨?_, ?_, ?_, hr.leafCount, hk ▸ hend.info, hk ▸ hend.err⟩
    · exact (toNat_ofNat_le _).trans (hr.resLen.trans_le hr.dst)
    · exact (toNat_ofNat_le _).trans hr.resAuxLen
    · exact (toNat_ofNat_le _).trans hr.dictSize

/-! ## The outcome depends on the inputs alone -/

/-- Two ready states that agree on what the command may read have the same outcome (R137). -/
theorem verdict_congr {i : Instr} {s s' : State} (hp : s.params = s'.params) (ho : s.operands = s'.operands)
    (hl : s.lenchk = s'.lenchk) (hin : ∀ r ∈ inputRegions i s.operands, s.regionBytes r = s'.regionBytes r) :
    s.verdict i = s'.verdict i := by
  have hsrc : s.regionBytes s.operands.src = s'.regionBytes s.operands.src :=
    hin _ (by cases i <;> simp [inputRegions])
  have haux : i = .hdec → s.regionBytes s.operands.aux = s'.regionBytes s.operands.aux := by
    rintro rfl
    exact hin _ (by simp [inputRegions])
  unfold State.verdict
  rw [← hp, ← ho, ← hl, ← hsrc]
  cases i with
  | hdec => rw [haux rfl]
  | _ => rfl

/-- Writing the same bytes keeps two memories alike where they were alike. -/
theorem Memory.byteAt_setBytes_congr (bs : List Byte) {m m' : Memory} (a c : Nat) (h : m.byteAt c = m'.byteAt c) :
    (m.setBytes a bs).byteAt c = (m'.setBytes a bs).byteAt c := by
  by_cases hc : c < a ∨ a + bs.length ≤ c
  · rw [byteAt_setBytes_outside bs m a c hc, byteAt_setBytes_outside bs m' a c hc, h]
  · obtain ⟨k, rfl⟩ : ∃ k, c = a + k := ⟨c - a, by omega⟩
    rw [byteAt_setBytes_inside bs m a k (by omega), byteAt_setBytes_inside bs m' a k (by omega)]

/-- The outcome's bytes are the same whatever BUF held before. -/
theorem Verdict.bytesAt_writeTo (v : Verdict) (o : Operands) (m m' : Memory) :
    (v.writeTo o m).bytesAt o.dst.base v.dst.length = (v.writeTo o m').bytesAt o.dst.base v.dst.length ∧
      (v.writeTo o m).bytesAt o.aux.base v.aux.length = (v.writeTo o m').bytesAt o.aux.base v.aux.length := by
  constructor
  · rw [writeTo, writeTo, Memory.bytesAt_setBytes, Memory.bytesAt_setBytes]
  · refine Memory.bytesAt_congr fun k hk => Memory.byteAt_setBytes_congr _ _ _ ?_
    rw [Memory.byteAt_setBytes_inside _ m _ k hk, Memory.byteAt_setBytes_inside _ m' _ k hk]

/-- Settles O12: the outcome is the same, and with it the registers and the bytes that a success leaves. -/
theorem commandDependsOnInputsOnly : Obligations.CommandDependsOnInputsOnly := by
  intro i s s' t t' hs hs' hp ho hl hin h h'
  have hv : s.verdict i = s'.verdict i := verdict_congr hp ho hl hin
  obtain ⟨u, rfl, hu⟩ := concludes_of_exec hs h
  obtain ⟨u', rfl, hu'⟩ := concludes_of_exec hs' h'
  rw [← hv, ← ho] at hu'
  rw [← hv]
  have hsound := verdict_sound s i
  cases hk : (s.verdict i).ending with
  | error c e => exact ⟨rfl, rfl, rfl, rfl, rfl, rfl, rfl, nofun⟩
  | success r =>
    have hr := hsound r hk
    obtain ⟨hdst, haux⟩ := (s.verdict i).bytesAt_writeTo s.operands s.mem s'.mem
    rw [hk] at hu hu'
    rw [← hu rfl, ← hu' rfl] at hdst haux
    refine ⟨rfl, rfl, rfl, rfl, rfl, rfl, rfl, fun _ => ⟨?_, fun hi => ?_⟩⟩
    · have hlen : (BitVec.ofNat 32 r.resLen).toNat = (s.verdict i).dst.length := by
        rw [toNat_ofNat_of_le (hr.resLen.trans_le hr.dst), hr.resLen]
      exact hlen ▸ hdst
    · have hlen : (BitVec.ofNat 32 r.resAuxLen).toNat = (s.verdict i).aux.length := by
        rw [toNat_ofNat_of_le hr.resAuxLen, hr.aux hi]
      exact hlen ▸ haux

end Sys2Proof.Machine
end

section
/-! The codes of a tree: none begins another, and their lengths (R168). -/

namespace Sys2Proof.Machine

/-! ## COUNT -/

/-- Counters for distinct bytes, among them all bytes of the input, sum to the input's length. -/
theorem sum_map_count {l x : List Byte} (hl : l.Nodup) (hx : ∀ s ∈ x, s ∈ l) : (l.map x.count).sum = x.length :=
  calc (l.map x.count).sum
      = ∑ s ∈ l.toFinset, x.count s := (List.sum_toFinset _ hl).symm
    _ = ∑ s ∈ l.toFinset, (x : Multiset Byte).count s := by simp only [Multiset.coe_count]
    _ = x.length := Multiset.sum_count_eq_card fun s hs => List.mem_toFinset.mpr (hx s (Multiset.mem_coe.mp hs))

/-- Settles O17: the symbols are distinct and are all bytes there are. -/
theorem frequencyTableCounts : Obligations.FrequencyTableCounts := by
  refine fun x => ⟨freqOf_freqTable x, ?_⟩
  rw [funext (freqOf_freqTable x)]
  exact sum_map_count symbols_nodup fun s _ => mem_symbols s

/-! ## The codes of a tree -/

theorem HTree.codeOf_node_left {l r : HTree} {s : Byte} (h : s ∈ l.syms) :
    (HTree.node l r).codeOf s = false :: l.codeOf s := by
  rw [HTree.codeOf, if_pos h]

theorem HTree.codeOf_node_right {l r : HTree} {s : Byte} (h : s ∉ l.syms) :
    (HTree.node l r).codeOf s = true :: r.codeOf s := by
  rw [HTree.codeOf, if_neg h]

/-- The path to one leaf does not go on to another leaf: at the node where the two paths part, one goes left and the
other right (R168). -/
theorem HTree.codeOf_not_prefix : ∀ {t : HTree} {s c : Byte}, s ∈ t.syms → c ∈ t.syms → s ≠ c →
    ¬ t.codeOf s <+: t.codeOf c
  | .leaf _, s, c, hs, hc, hne =>
    absurd ((List.mem_singleton.mp hs).trans (List.mem_singleton.mp hc).symm) hne
  | .node l r, s, c, hs, hc, hne => by
    by_cases hsl : s ∈ l.syms <;> by_cases hcl : c ∈ l.syms
    · rw [codeOf_node_left hsl, codeOf_node_left hcl, List.prefix_cons_inj]
      exact codeOf_not_prefix hsl hcl hne
    · rw [codeOf_node_left hsl, codeOf_node_right hcl]
      exact fun h => Bool.false_ne_true (List.cons_prefix_cons.mp h).1
    · rw [codeOf_node_right hsl, codeOf_node_left hcl]
      exact fun h => Bool.false_ne_true (List.cons_prefix_cons.mp h).1.symm
    · rw [codeOf_node_right hsl, codeOf_node_right hcl, List.prefix_cons_inj]
      exact codeOf_not_prefix ((List.mem_append.mp hs).resolve_left hsl) ((List.mem_append.mp hc).resolve_left hcl) hne

/-- No code is longer than the tree is deep. -/
theorem HTree.length_codeOf_le : ∀ (t : HTree) (s : Byte), (t.codeOf s).length ≤ t.depth
  | .leaf _, _ => Nat.zero_le _
  | .node l r, s => by
    have hl := l.length_codeOf_le s
    have hr := r.length_codeOf_le s
    rw [HTree.depth]
    by_cases h : s ∈ l.syms
    · rw [codeOf_node_left h, List.length_cons]; omega
    · rw [codeOf_node_right h, List.length_cons]; omega

/-- In a tree with two leaves or more, every path has an edge. -/
theorem HTree.length_codeOf_pos : ∀ {t : HTree}, 2 ≤ t.syms.length → ∀ s, 1 ≤ (t.codeOf s).length
  | .leaf _, h, _ => absurd h (Nat.not_succ_le_self 1)
  | .node l r, _, s => by
    by_cases h : s ∈ l.syms
    · rw [codeOf_node_left h]; exact Nat.succ_pos _
    · rw [codeOf_node_right h]; exact Nat.succ_pos _

/-- The Kraft sum of a full tree, scaled by a power of 2 that covers its depth: each edge halves what its subtree
has to share (R168). -/
theorem HTree.kraft_sum : ∀ {t : HTree} {k : Nat}, t.syms.Nodup → t.depth ≤ k →
    (t.syms.map fun s => 2 ^ (k - (t.codeOf s).length)).sum = 2 ^ k
  | .leaf s, k, _, _ => by simp [HTree.syms, HTree.codeOf]
  | .node l r, k, hd, hk => by
    obtain ⟨hdl, hdr, hdis⟩ := List.nodup_append'.mp hd
    rw [HTree.depth] at hk
    obtain ⟨k, rfl⟩ : ∃ j, k = j + 1 := Nat.exists_eq_succ_of_ne_zero (by omega)
    have hleft : (l.syms.map fun s => 2 ^ (k + 1 - ((HTree.node l r).codeOf s).length)) =
        l.syms.map fun s => 2 ^ (k - (l.codeOf s).length) :=
      List.map_congr_left fun s hs => by rw [codeOf_node_left hs, List.length_cons, Nat.add_sub_add_right]
    have hright : (r.syms.map fun s => 2 ^ (k + 1 - ((HTree.node l r).codeOf s).length)) =
        r.syms.map fun s => 2 ^ (k - (r.codeOf s).length) :=
      List.map_congr_left fun s hs => by
        rw [codeOf_node_right fun hl => hdis hl hs, List.length_cons, Nat.add_sub_add_right]
    rw [HTree.syms, List.map_append, List.sum_append, hleft, hright, l.kraft_sum hdl (by omega),
      r.kraft_sum hdr (by omega), Nat.pow_succ, Nat.mul_two]

/-! ## The code table of an input -/

/-- The code table of an input is that of a tree whose leaves are the distinct bytes of the input, each once. -/
theorem hencCode_tree {x : List Byte} (hx : x ≠ []) :
    ∃ t : HTree, t.syms.Perm x.dedup ∧ ∀ s ∈ x, codeOf (hencCode x) s = t.codeOf s := by
  obtain ⟨t, ht, hp, hn⟩ := hencTree_isTree hx
  exact ⟨t, hp.trans (keys_perm_dedup x), fun s hs => hencCode_eq ht hp hn hs⟩

theorem distinctCount_le (x : List Byte) : distinctCount x ≤ 256 := length_le_of_nodup x.nodup_dedup

/-- Settles O19: the codes are the paths of a full tree, less deep than it has leaves. -/
theorem hencCodesPrefixFree : Obligations.HencCodesPrefixFree := by
  intro x
  by_cases hx : x = []
  · subst hx
    exact ⟨fun s hs => absurd hs List.not_mem_nil, fun h => absurd h (by decide)⟩
  · obtain ⟨t, hp, hcode⟩ := hencCode_tree hx
    have hmem : ∀ {s}, s ∈ x → s ∈ t.syms := fun hs => hp.mem_iff.mpr (List.mem_dedup.mpr hs)
    have hleaves : t.syms.length = distinctCount x := hp.length_eq
    have hdepth := t.depth_lt
    have hle := distinctCount_le x
    refine ⟨fun s hs c hc hne => ?_, fun h2 => ⟨fun s hs => ?_, ?_⟩⟩
    · rw [hcode s hs, hcode c hc]
      exact HTree.codeOf_not_prefix (hmem hs) (hmem hc) hne
    · have hpos := HTree.length_codeOf_pos (hleaves ▸ h2) s
      have hlen := t.length_codeOf_le s
      rw [hcode s hs]
      omega
    · calc (x.dedup.map fun s => 2 ^ (255 - (codeOf (hencCode x) s).length)).sum
          = (x.dedup.map fun s => 2 ^ (255 - (t.codeOf s).length)).sum := by
            rw [List.map_congr_left fun s hs => by rw [hcode s (List.mem_dedup.mp hs)]]
        _ = (t.syms.map fun s => 2 ^ (255 - (t.codeOf s).length)).sum := ((hp.map _).sum_eq).symm
        _ = 2 ^ 255 := HTree.kraft_sum (hp.nodup_iff.mpr x.nodup_dedup) (by omega)

end Sys2Proof.Machine
end

section
/-! What exec makes of a known outcome: the registers and BUF after a success (R138) and after an error (R139, R140). -/

namespace Sys2Proof.Machine

/-- The results of a success fit the result registers (R151). -/
theorem Verdict.Reports.read_back {v : Verdict} {i : Instr} {p : Params} {o : Operands} {r : Results}
    (h : v.Reports i p o r) : (BitVec.ofNat 32 r.resLen).toNat = r.resLen ∧
      (BitVec.ofNat 32 r.resAuxLen).toNat = r.resAuxLen ∧ (BitVec.ofNat 32 r.dictSize).toNat = r.dictSize := by
  have hcap : p.dictCap < 2 ^ 32 := by
    have := p.dictSpare.isLt
    rw [Params.dictCap]
    omega
  refine ⟨toNat_ofNat_of_le (h.resLen.trans_le h.dst), toNat_ofNat_of_le h.resAuxLen, ?_⟩
  rw [BitVec.toNat_ofNat, Nat.mod_eq_of_lt (h.dictSize.trans_lt hcap)]

section
variable {i : Instr} {s : State} (hs : s.ready)
include hs

/-- A success reports its results, and BUF holds its bytes (R138). -/
theorem exec_success {r : Results} (hv : (s.verdict i).ending = .success r) :
    ∃ t, exec i s = .next t ∧ Succeeded r.resLen r.resAuxLen r.info r.dictSize s t ∧
      t.mem = (s.verdict i).writeTo s.operands s.mem := by
  obtain ⟨t, ht, u, rfl, hu⟩ := exec_concludes i hs
  obtain ⟨hres, haux, hdict⟩ := (verdict_sound s i r hv).read_back
  have hhost := (exec_ready_ended hs ht).host
  rw [hv] at ht hhost hu
  exact ⟨_, ht, ⟨rfl, rfl, rfl, rfl, hres, haux, rfl, hdict, rfl, rfl, hhost⟩, hu rfl⟩

/-- An error raised before any write reports its cause and its offset, and BUF is as it was (R139, R140). -/
theorem exec_fail {cause : Cause} {offset : Nat} {w : Word} (hw : errWord cause = w)
    (hv : s.verdict i = .fail .beforeWrite cause offset) (ho : offset < 2 ^ 32) :
    ∃ t, exec i s = .next t ∧ Failed cause offset s t ∧ t.err = w ∧ t.mem = s.mem := by
  obtain ⟨t, ht, u, rfl, hu⟩ := exec_concludes i hs
  have hhost := (exec_ready_ended hs ht).host
  have hoff : (BitVec.ofNat 32 offset).toNat = offset := by rw [BitVec.toNat_ofNat, Nat.mod_eq_of_lt ho]
  rw [hv] at ht hhost hu
  exact ⟨_, ht, ⟨rfl, rfl, rfl, rfl, rfl, rfl, rfl, rfl, rfl, hoff, hhost⟩, hw, hu rfl⟩

end

/-! ## The bytes that an outcome leaves in BUF -/

theorem Verdict.dst_writeTo (v : Verdict) (o : Operands) (m : Memory) :
    (v.writeTo o m).bytesAt o.dst.base v.dst.length = v.dst :=
  Memory.bytesAt_setBytes _ _ _

/-- The bytes of AUX are still there when those of DST are written, in a region apart (R135). -/
theorem Verdict.aux_writeTo {v : Verdict} {o : Operands} (m : Memory) (ho : o.dst.overlaps o.aux = false)
    (hd : v.dst.length ≤ o.dst.len) (ha : v.aux.length ≤ o.aux.len) :
    (v.writeTo o m).bytesAt o.aux.base v.aux.length = v.aux := by
  rw [← Bool.not_eq_true, Region.overlaps_iff] at ho
  refine Eq.trans (Memory.bytesAt_congr fun k hk => ?_) (Memory.bytesAt_setBytes v.aux m o.aux.base)
  exact Memory.byteAt_setBytes_outside _ _ _ _ (by omega)

/-- An outcome's bytes are all that differs (R145). -/
theorem Verdict.byteAt_writeTo (v : Verdict) (o : Operands) (m : Memory) {a : Nat}
    (hd : Region.has ⟨o.dst.base, v.dst.length⟩ a = false) (ha : Region.has ⟨o.aux.base, v.aux.length⟩ a = false) :
    (v.writeTo o m).byteAt a = m.byteAt a := by
  rw [Region.has_eq_false_iff] at hd ha
  rw [Verdict.writeTo, Memory.byteAt_setBytes_outside _ _ _ _ hd, Memory.byteAt_setBytes_outside _ _ _ _ ha]

end Sys2Proof.Machine
end

section
/-! HENC's completions (R160 to R175). -/

namespace Sys2Proof.Machine

/-! ## The outcome of HENC -/

/-- A maximum depends on the members of a list alone. -/
theorem foldl_max_congr {l l' : List Nat} (h : ∀ n, n ∈ l ↔ n ∈ l') : l.foldl max 0 = l'.foldl max 0 := by
  have hset : l.toFinset = l'.toFinset := by
    ext n
    rw [List.mem_toFinset, List.mem_toFinset, h]
  have hsup : ∀ l : List Nat, l.foldl max 0 = l.toFinset.sup id := fun l =>
    List.foldl_eq_foldr.trans l.foldr_sup_eq_sup_toFinset
  rw [hsup, hsup, hset]

/-- maxlen of R169, over the keys of the frequency table, is the longest code over the bytes of the input. -/
theorem maxCodeLen_freqTable (x : List Byte) : maxCodeLen (freqTable x) (hencCode x) = hencMaxLen x :=
  foldl_max_congr fun n => by simp only [List.mem_map, mem_keys_freqTable]

theorem verdict_of_regionsPass {i : Instr} {s : State} (h : s.regionsPass i) :
    s.verdict i = commandVerdict i s.params s.operands s.lenchk (s.regionBytes s.operands.src)
      (s.regionBytes s.operands.aux) := by
  rw [State.verdict, show checkRegions s.params.memSize i s.operands = none from h]

section
variable {o : Operands} {x : List Byte}

theorem hencVerdict_empty (h : o.src.len = 0) : hencVerdict o x = .fail .beforeWrite .hencEmpty 0 := by
  rw [hencVerdict, if_pos h]

theorem hencVerdict_dstFull (h : 0 < o.src.len) (hn : o.dst.len < hencPayLen x) :
    hencVerdict o x = .fail .beforeWrite .dstFull (min (hencPayLen x) (2 ^ 32 - 1)) := by
  rw [hencVerdict, if_neg h.ne', if_pos hn]

theorem hencVerdict_auxFull (h : 0 < o.src.len) (hn : hencPayLen x ≤ o.dst.len)
    (hm : o.aux.len < descriptorLen (distinctCount x)) :
    hencVerdict o x = .fail .beforeWrite .auxFull (descriptorLen (distinctCount x)) := by
  rw [hencVerdict, if_neg h.ne', if_neg hn.not_gt, if_pos hm]

theorem hencVerdict_success (h : 0 < o.src.len) (hn : hencPayLen x ≤ o.dst.len)
    (hm : descriptorLen (distinctCount x) ≤ o.aux.len) :
    hencVerdict o x =
      { ending := .success
          { resLen := hencPayLen x, resAuxLen := descriptorLen (distinctCount x),
            info := infoWord (distinctCount x) (hencMaxLen x), dictSize := 0 }
        dst := payloadBytes (hencCode x) (padLen (encodeBits (hencCode x) x).length) x
        aux := descriptorBytes (hencTree x).node (hencTree x).root } := by
  rw [hencVerdict, if_neg h.ne', if_neg hn.not_gt, if_neg hm.not_gt, maxCodeLen_freqTable]

end

/-- The four ways in which HENC ends after CHECK (R162, R170, R173). -/
theorem hencVerdict_cases (o : Operands) (x : List Byte) :
    (∃ r, (hencVerdict o x).ending = .success r) ∨
      ∃ cause offset, hencVerdict o x = .fail .beforeWrite cause offset ∧
        cause ∈ [Cause.hencEmpty, .dstFull, .auxFull] := by
  unfold hencVerdict
  split
  · exact .inr ⟨_, _, rfl, by simp⟩
  · split
    · exact .inr ⟨_, _, rfl, by simp⟩
    · split
      · exact .inr ⟨_, _, rfl, by simp⟩
      · exact .inl ⟨_, rfl⟩

/-! ## HENC's completions -/

/-- Settles O22. -/
theorem hencEmptyInput : Obligations.HencEmptyInput := fun _ hs hp h =>
  exec_fail hs rfl ((verdict_of_regionsPass hp).trans (hencVerdict_empty h)) (by decide)

/-- A descriptor is at most 321 bytes long (R106). -/
theorem descriptorLen_lt (x : List Byte) : descriptorLen (distinctCount x) < 2 ^ 32 := by
  have := distinctCount_le x
  rw [descriptorLen]
  omega

/-- Settles O23: the saturated length and the descriptor's length both fit ERR_OFFSET. -/
theorem hencOutputOverflow : Obligations.HencOutputOverflow := by
  intro s hs hp hl x n m
  refine ⟨fun hn => ?_, fun hn hm => ?_⟩
  · exact exec_fail hs rfl ((verdict_of_regionsPass hp).trans (hencVerdict_dstFull hl hn))
      ((Nat.min_le_right _ _).trans_lt (by decide))
  · exact exec_fail hs rfl ((verdict_of_regionsPass hp).trans (hencVerdict_auxFull hl hn hm)) (descriptorLen_lt x)

/-- Settles O21: the lengths that are reported are those of the bytes that are written. -/
theorem hencCompletes : Obligations.HencCompletes := by
  intro s hs hp hl x n m hn hm
  have hv : s.verdict .henc = _ := (verdict_of_regionsPass hp).trans (hencVerdict_success hl hn hm)
  have hx : x ≠ [] := List.length_pos_iff.mp ((s.regionBytes_length _).symm ▸ hl)
  have hd : (payloadBytes (hencCode x) (padLen (encodeBits (hencCode x) x).length) x).length = n :=
    length_payloadBytes (hencCode x) x
  have ha : (descriptorBytes (hencTree x).node (hencTree x).root).length = m := (descriptorLength x hx).2
  have ho : s.operands.dst.overlaps s.operands.aux = false :=
    (checkRegions_eq_none.mp hp).2 (s.operands.dst, s.operands.aux) (by simp [overlapChecks])
  obtain ⟨t, ht, hsucc, hmem⟩ := exec_success hs (congrArg Verdict.ending hv)
  rw [hv] at hmem
  refine ⟨t, ht, hsucc, ?_, ?_, fun a hout => ?_⟩
  · rw [State.regionBytes, hmem, ← hd]
    exact Verdict.dst_writeTo _ _ _
  · rw [State.regionBytes, hmem, ← ha]
    exact Verdict.aux_writeTo _ ho (hd.trans_le hn) (ha.trans_le hm)
  · simp only [List.any_cons, List.any_nil, Bool.or_false, Bool.or_eq_false_iff, ← hd, ← ha] at hout
    obtain ⟨hdst, haux⟩ := hout
    rw [State.byteAt, hmem]
    exact Verdict.byteAt_writeTo _ _ _ hdst haux

/-! ## HENC's errors -/

theorem firstOutOfRange_some {n : Nat} {c : Cause} : ∀ {l : List (Region × Cause)},
    firstOutOfRange n l = some c → c ∈ l.map Prod.snd
  | (r, d) :: l, h => by
    unfold firstOutOfRange at h
    split at h
    · exact List.mem_cons_of_mem _ (firstOutOfRange_some h)
    · cases h; exact List.mem_cons_self

/-- The range checks raise sub-causes of BAD_REGION (R136). -/
theorem rangeChecks_causes (i : Instr) (o : Operands) :
    (rangeChecks i o).map Prod.snd ⊆ [Cause.srcRange, .dstRange, .auxRange, .overlap] := by
  cases i <;> simp [rangeChecks]

/-- CHECK raises the sub-causes of BAD_REGION alone (R136). -/
theorem checkRegions_some {n : Nat} {i : Instr} {o : Operands} {c : Cause} (h : checkRegions n i o = some c) :
    c ∈ [Cause.srcRange, .dstRange, .auxRange, .overlap] := by
  unfold checkRegions at h
  split at h
  · next hr =>
    cases h
    exact rangeChecks_causes i o (firstOutOfRange_some hr)
  · split at h
    · cases h; simp
    · cases h

/-- HENC ends with success, or with one of its errors before it writes (R175). -/
theorem verdict_henc_cases (s : State) :
    (∃ r, (s.verdict .henc).ending = .success r) ∨
      ∃ cause offset, s.verdict .henc = .fail .beforeWrite cause offset ∧
        cause ∈ [Cause.srcRange, .dstRange, .auxRange, .overlap, .hencEmpty, .dstFull, .auxFull] := by
  unfold State.verdict
  split
  · next c hc => exact .inr ⟨c, 0, rfl, List.mem_append_left _ (checkRegions_some hc)⟩
  · obtain h | ⟨c, n, hv, hc⟩ := hencVerdict_cases s.operands (s.regionBytes s.operands.src)
    · exact .inl h
    · exact .inr ⟨c, n, hv, List.mem_append_right [Cause.srcRange, .dstRange, .auxRange, .overlap] hc⟩

/-- Settles O24: a success leaves ERROR = 0, and every error is raised before any write. -/
theorem hencErrorKeepsBuf : Obligations.HencErrorKeepsBuf := by
  intro s t hs ht he
  obtain ⟨u, rfl, hu⟩ := concludes_of_exec hs ht
  obtain ⟨r, hr⟩ | ⟨c, n, hv, hc⟩ := verdict_henc_cases s
  · rw [hr] at he
    exact absurd he Bool.false_ne_true
  · rw [hv] at hu ⊢
    exact ⟨hu rfl, List.mem_map_of_mem (f := errWord) hc⟩

end Sys2Proof.Machine
end

section
/-! The payload: its header, and the walk over its data bits on a known tree (R206, R208). -/

namespace Sys2Proof.Machine

/-! ## The header -/

section
variable {b : Byte} {rest : List Byte}

theorem parseHeader_high (h : 7 < b.toNat) : parseHeader (b :: rest) = .error ⟨.payHeader, 0⟩ := by
  rw [parseHeader, if_pos h]

theorem parseHeader_short (h : b.toNat ≤ 7) (hs : 8 * rest.length < b.toNat) :
    parseHeader (b :: rest) = .error ⟨.payShort, 0⟩ := by
  rw [parseHeader, if_neg h.not_gt, List.length_cons, Nat.add_sub_cancel, if_pos hs]

theorem parseHeader_pad (h : b.toNat ≤ 7) (hs : b.toNat ≤ 8 * rest.length) (h0 : 0 < b.toNat)
    (hp : ((b :: rest).getLastD 0).toNat % 2 ^ b.toNat ≠ 0) :
    parseHeader (b :: rest) = .error ⟨.payPadNonzero, rest.length⟩ := by
  rw [parseHeader, if_neg h.not_gt, List.length_cons, Nat.add_sub_cancel, if_neg hs.not_gt, if_pos ⟨h0, hp⟩]

theorem parseHeader_next (h : b.toNat ≤ 7) (hs : b.toNat ≤ 8 * rest.length)
    (hp : b.toNat = 0 ∨ ((b :: rest).getLastD 0).toNat % 2 ^ b.toNat = 0) :
    parseHeader (b :: rest) = .ok (b.toNat, 8 * rest.length - b.toNat) := by
  rw [parseHeader, if_neg h.not_gt, List.length_cons, Nat.add_sub_cancel, if_neg hs.not_gt, if_neg (by omega)]

end

/-- A byte whose last `h` bits are zeros is a multiple of 2^h. -/
theorem toNat_mod_of_zeros {b : Byte} {h : Nat} (hz : List.replicate h false <:+ bin8 b) : b.toNat % 2 ^ h = 0 := by
  obtain ⟨front, hf⟩ := hz
  have hlen : front.length + h = 8 := by simpa using congrArg List.length hf
  refine Nat.eq_of_testBit_eq fun i => ?_
  rw [Nat.testBit_mod_two_pow, Nat.zero_testBit, Bool.and_eq_false_iff, decide_eq_false_iff_not]
  by_cases hi : i < h
  · have hbit := getElem?_bin8 b (j := 7 - i) (by omega)
    rw [← hf, List.getElem?_append_right (by omega), List.getElem?_replicate_of_lt (by omega),
      Nat.sub_sub_self (by omega)] at hbit
    exact .inr (Option.some.inj hbit).symm
  · exact .inl hi

theorem padLen_le (n : Nat) : padLen n ≤ 7 := by
  rw [padLen]; omega

/-- The last byte of padded bits ends with the pad bits (R101). -/
theorem getLastD_packBits_padBits (h : Byte) (bits : BitString) (hp : 0 < padLen bits.length) :
    ((h :: packBits (padBits bits)).getLastD 0).toNat % 2 ^ padLen bits.length = 0 := by
  have hbits := unpackBits_packBits_padBits bits
  have hlen := length_packBits_padBits bits
  have hle := padLen_le bits.length
  rcases List.eq_nil_or_concat (packBits (padBits bits)) with hnil | ⟨init, last, hcons⟩
  · rw [hnil, List.length_nil] at hlen
    rw [padLen] at hp
    omega
  · rw [List.concat_eq_append] at hcons
    rw [hcons, ← List.cons_append, List.getLastD_concat]
    refine toNat_mod_of_zeros (List.suffix_of_suffix_length_le (l₃ := padBits bits) ⟨bits, rfl⟩ ?_ ?_)
    · rw [← hbits, hcons]
      exact ⟨unpackBits init, by simp [unpackBits]⟩
    · rw [List.length_replicate, bin8_length]
      omega

/-- HEADER reads a payload's padding header back (R100, R101, R206). -/
theorem parseHeader_bitsPayload (bits : BitString) :
    parseHeader (bitsPayload bits) = .ok (padLen bits.length, bits.length) := by
  have hle := padLen_le bits.length
  have hh : (BitVec.ofNat 8 (padLen bits.length)).toNat = padLen bits.length := by
    rw [BitVec.toNat_ofNat, Nat.mod_eq_of_lt (by omega)]
  have hlen := length_packBits_padBits bits
  have hpad : padLen bits.length + bits.length = 8 * ((bits.length + 7) / 8) := by rw [padLen]; omega
  rw [bitsPayload, parseHeader_next (by omega) (by omega), hh, hlen, ← hpad, Nat.add_sub_cancel_left]
  rw [hh]
  exact (Nat.eq_zero_or_pos _).imp_right (getLastD_packBits_padBits _ bits)

/-- The data bits of a payload are the bits it was made of (R100, R206). -/
theorem dataBitsOf_bitsPayload (bits : BitString) : dataBitsOf (bitsPayload bits) bits.length = bits := by
  rw [dataBitsOf, bitsPayload, List.drop_one, List.tail_cons, unpackBits_packBits_padBits, padBits, List.take_left]

/-! ## Trees in NODE -/

theorem leafSym_leaf {node : List Node} {n : Nat} {s : Byte} (h : IsTree node n (.leaf s)) :
    leafSym node n = some s := by
  obtain ⟨w, hn⟩ := h
  rw [leafSym, hn]

theorem leafSym_node {node : List Node} {n : Nat} {l r : HTree} (h : IsTree node n (.node l r)) :
    leafSym node n = none := by
  obtain ⟨w, a, b, hn, -, -⟩ := h
  rw [leafSym, hn]

/-- The edges of an internal node lead to its subtrees (R208). -/
theorem IsTree.childAt {node : List Node} {n : Nat} {l r : HTree} (h : IsTree node n (.node l r)) :
    IsTree node (childAt node n false) l ∧ IsTree node (childAt node n true) r := by
  obtain ⟨w, a, b, hn, ha, hb⟩ := h
  simp only [Machine.childAt, hn]
  exact ⟨ha, hb⟩

/-- A record is the root of one tree at most. -/
theorem IsTree.unique {node : List Node} : ∀ {t t' : HTree} {n : Nat}, IsTree node n t → IsTree node n t' → t = t'
  | .leaf _, .leaf _, _, ⟨_, h⟩, ⟨_, h'⟩ => by cases h.symm.trans h'; rfl
  | .leaf _, .node _ _, _, ⟨_, h⟩, ⟨_, _, _, h', _, _⟩ => by cases h.symm.trans h'
  | .node _ _, .leaf _, _, ⟨_, _, _, h, _, _⟩, ⟨_, h'⟩ => by cases h.symm.trans h'
  | .node _ _, .node _ _, _, ⟨_, _, _, h, hl, hr⟩, ⟨_, _, _, h', hl', hr'⟩ => by
    cases h.symm.trans h'
    rw [hl.unique hl', hr.unique hr']

/-! ## The walk -/

section
variable {node : List Node} {root cap : Nat}

/-- The walk once an edge has led to node `n`: a leaf emits its symbol and goes back to the root (R208). -/
def walkArrive (node : List Node) (root cap : Nat) (bits : BitString) (n : Nat) (out : List Byte) :
    Except Raise (Nat × List Byte) :=
  match leafSym node n with
  | some s =>
    if out.length = cap then .error ⟨.dstFull, out.length⟩ else walkBits node root cap bits root (out ++ [s])
  | none => walkBits node root cap bits n out

theorem walkBits_cons (b : Bool) (bits : BitString) (n : Nat) (out : List Byte) :
    walkBits node root cap (b :: bits) n out = walkArrive node root cap bits (childAt node n b) out := rfl

theorem walkArrive_leaf {n : Nat} {s : Byte} (h : IsTree node n (.leaf s)) (bits : BitString) (out : List Byte) :
    walkArrive node root cap bits n out =
      if out.length = cap then .error ⟨.dstFull, out.length⟩
      else walkBits node root cap bits root (out ++ [s]) := by
  rw [walkArrive, leafSym_leaf h]

theorem walkArrive_node {n : Nat} {l r : HTree} (h : IsTree node n (.node l r)) (bits : BitString)
    (out : List Byte) : walkArrive node root cap bits n out = walkBits node root cap bits n out := by
  rw [walkArrive, leafSym_node h]

/-- The walk along a symbol's code from the root of a subtree emits that symbol (R208). -/
theorem walkArrive_code {s : Byte} (bits : BitString) (out : List Byte) : ∀ {t : HTree} {n : Nat}, IsTree node n t →
    s ∈ t.syms → walkArrive node root cap (t.codeOf s ++ bits) n out =
      if out.length = cap then .error ⟨.dstFull, out.length⟩ else walkBits node root cap bits root (out ++ [s])
  | .leaf c, n, h, hs => by
    rw [List.mem_singleton.mp hs]
    exact walkArrive_leaf h bits out
  | .node l r, n, h, hs => by
    obtain ⟨hl, hr⟩ := h.childAt
    rw [walkArrive_node h]
    by_cases hsl : s ∈ l.syms
    · rw [HTree.codeOf_node_left hsl, List.cons_append, walkBits_cons, walkArrive_code bits out hl hsl]
    · rw [HTree.codeOf_node_right hsl, List.cons_append, walkBits_cons,
        walkArrive_code bits out hr ((List.mem_append.mp hs).resolve_left hsl)]

/-- The walk along a proper beginning of a code stays inside the subtree, one level deeper with each bit, and emits
nothing (R208). -/
theorem walkArrive_part {c : Byte} (out : List Byte) : ∀ {t : HTree} {n : Nat} {part : BitString}, IsTree node n t →
    c ∈ t.syms → part <+: t.codeOf c → part ≠ t.codeOf c →
    ∃ m u, walkArrive node root cap part n out = .ok (m, out) ∧ IsTree node m u ∧ u.size + part.length ≤ t.size
  | .leaf _, _, _, _, _, hpre, hne => absurd (List.prefix_nil.mp hpre) hne
  | .node l r, n, [], h, _, _, _ => ⟨n, _, walkArrive_node h [] out, h, le_refl _⟩
  | .node l r, n, b :: part, h, hc, hpre, hne => by
    obtain ⟨hl, hr⟩ := h.childAt
    rw [walkArrive_node h, walkBits_cons]
    by_cases hcl : c ∈ l.syms
    · rw [HTree.codeOf_node_left hcl] at hpre hne
      obtain ⟨rfl, hrest⟩ := List.cons_prefix_cons.mp hpre
      obtain ⟨m, u, hw, hu, hsize⟩ := walkArrive_part out hl hcl hrest fun he => hne (congrArg _ he)
      exact ⟨m, u, hw, hu, by rw [HTree.size, List.length_cons]; omega⟩
    · rw [HTree.codeOf_node_right hcl] at hpre hne
      obtain ⟨rfl, hrest⟩ := List.cons_prefix_cons.mp hpre
      obtain ⟨m, u, hw, hu, hsize⟩ :=
        walkArrive_part out hr ((List.mem_append.mp hc).resolve_left hcl) hrest fun he => hne (congrArg _ he)
      exact ⟨m, u, hw, hu, by rw [HTree.size, List.length_cons]; omega⟩

section
variable {l r : HTree} (ht : IsTree node root (.node l r))
include ht

/-- The walk over the codes of a message that fits emits the message (R208). -/
theorem walkBits_encode (bits : BitString) : ∀ (y out : List Byte), (∀ b ∈ y, b ∈ (HTree.node l r).syms) →
    out.length + y.length ≤ cap →
    walkBits node root cap ((HTree.node l r).encode y ++ bits) root out = walkBits node root cap bits root (out ++ y)
  | [], out, _, _ => by rw [List.append_nil]; rfl
  | b :: y, out, hy, hfit => by
    obtain ⟨hb, hy⟩ := List.forall_mem_cons.mp hy
    rw [List.length_cons] at hfit
    rw [HTree.encode, List.flatMap_cons, List.append_assoc, ← walkArrive_node ht, walkArrive_code _ _ ht hb,
      if_neg (by omega), ← HTree.encode,
      walkBits_encode bits y (out ++ [b]) hy (by rw [List.length_append, List.length_singleton]; omega),
      List.append_assoc, List.singleton_append]

/-- The walk over the codes of a message that does not fit ends at the capacity (R208). -/
theorem walkBits_encode_full (bits : BitString) : ∀ (y out : List Byte), (∀ b ∈ y, b ∈ (HTree.node l r).syms) →
    out.length ≤ cap → cap < out.length + y.length →
    walkBits node root cap ((HTree.node l r).encode y ++ bits) root out = .error ⟨.dstFull, cap⟩
  | [], out, _, hle, hlt => absurd hlt hle.not_gt
  | b :: y, out, hy, hle, hlt => by
    obtain ⟨hb, hy⟩ := List.forall_mem_cons.mp hy
    rw [List.length_cons] at hlt
    rw [HTree.encode, List.flatMap_cons, List.append_assoc, ← walkArrive_node ht, walkArrive_code _ _ ht hb,
      ← HTree.encode]
    split
    · next heq => rw [heq]
    · next hne =>
      exact walkBits_encode_full bits y (out ++ [b]) hy (by rw [List.length_append, List.length_singleton]; omega)
        (by rw [List.length_append, List.length_singleton]; omega)

/-- The walk over a proper, non-empty beginning of a code ends at a node that is not the root (R208, R209). -/
theorem walkBits_part {c : Byte} {part : BitString} (out : List Byte) (hc : c ∈ (HTree.node l r).syms)
    (hpre : part <+: (HTree.node l r).codeOf c) (hnil : part ≠ []) (hne : part ≠ (HTree.node l r).codeOf c) :
    ∃ m, walkBits node root cap part root out = .ok (m, out) ∧ m ≠ root := by
  obtain ⟨m, u, hw, hu, hsize⟩ := walkArrive_part (root := root) (cap := cap) out ht hc hpre hne
  refine ⟨m, by rwa [walkArrive_node ht] at hw, ?_⟩
  rintro rfl
  rw [hu.unique ht] at hsize
  have := List.length_pos_iff.mpr hnil
  omega

end
end

end Sys2Proof.Machine
end

section
/-! HDEC's completions on a good descriptor (R206 to R211). -/

namespace Sys2Proof.Machine

/-! ## What exec makes of HDEC's outcome -/

section
variable {s : State} (hs : s.ready)
include hs

/-- An error reports its cause and its offset, and changes BUF in the output regions at most (R139, R140). -/
theorem exec_fail_outputs {i : Instr} {c : WriteClass} {cause : Cause} {offset : Nat}
    (hv : s.verdict i = .fail c cause offset) (ho : offset < 2 ^ 32) :
    ∃ t, exec i s = .next t ∧ Failed cause offset s t ∧ SameOutside (outputRegions i s.operands) s t := by
  obtain ⟨t, ht, u, rfl, -⟩ := exec_concludes i hs
  have hend := exec_ready_ended hs ht
  have hsame := hend.same
  have hhost := hend.host
  have hoff : (BitVec.ofNat 32 offset).toNat = offset := by rw [BitVec.toNat_ofNat, Nat.mod_eq_of_lt ho]
  rw [startCommand_phase, firstPhase_command] at hsame
  rw [hv] at ht hhost hsame
  exact ⟨_, ht, ⟨rfl, rfl, rfl, rfl, rfl, rfl, rfl, rfl, rfl, hoff, hhost⟩, hsame⟩

/-- HDEC's success reports its output's length and what PARSE found, and its output is all that differs (R211). -/
theorem exec_hdecSuccess {p : Parsed} {out : List Byte} (hv : s.verdict .hdec = hdecSuccess s.operands p out) :
    ∃ t, exec .hdec s = .next t ∧
      Succeeded out.length s.operands.aux.len (infoWord (p.vars.node.length - p.vars.nint) p.vars.maxDepth) 0 s t ∧
      t.regionBytes ⟨s.operands.dst.base, out.length⟩ = out ∧
      SameOutside [⟨s.operands.dst.base, out.length⟩] s t := by
  obtain ⟨t, ht, hsucc, hmem⟩ := exec_success hs (congrArg Verdict.ending hv)
  rw [hv] at hmem
  refine ⟨t, ht, hsucc, ?_, fun a hout => ?_⟩
  · rw [State.regionBytes, hmem]
    exact Verdict.dst_writeTo (hdecSuccess s.operands p out) _ _
  · simp only [List.any_cons, List.any_nil, Bool.or_false] at hout
    rw [State.byteAt, hmem]
    refine Verdict.byteAt_writeTo (hdecSuccess s.operands p out) _ _ hout ?_
    rw [Region.has_eq_false_iff]
    exact Nat.lt_or_ge _ _

end

/-! ## The outcome, step by step -/

section
variable {s : State} (hp : s.regionsPass .hdec)
include hp

theorem verdict_hdec_parseError {e : Raise} (h : parseDescriptor (s.regionBytes s.operands.aux) = .error e) :
    s.verdict .hdec = .fail .beforeWrite e.cause e.offset := by
  rw [verdict_of_regionsPass hp, commandVerdict, hdecVerdict, h]

variable {t : Parsed} (ht : parseDescriptor (s.regionBytes s.operands.aux) = .ok t)
include ht

theorem verdict_hdec_headerError {e : Raise} (h : parseHeader (s.regionBytes s.operands.src) = .error e) :
    s.verdict .hdec = .fail .beforeWrite e.cause e.offset := by
  simp only [verdict_of_regionsPass hp, commandVerdict, hdecVerdict, ht, h]

theorem verdict_hdec_walk {pad d : Nat} (h : parseHeader (s.regionBytes s.operands.src) = .ok (pad, d)) :
    s.verdict .hdec = hdecWalkVerdict s.operands s.lenchk t (s.regionBytes s.operands.src) d := by
  simp only [verdict_of_regionsPass hp, commandVerdict, hdecVerdict, ht, h]

end

/-- PARSE of a tree's descriptor leaves that tree, and the numbers that INFO reports (R202, R205, R211). -/
theorem parseDescriptor_finds {tr : HTree} (hd : tr.syms.Nodup) :
    ∃ t, parseDescriptor tr.descriptor = .ok t ∧ IsTree t.vars.node t.root tr ∧
      t.vars.node.length - t.vars.nint = tr.syms.length ∧ t.vars.maxDepth = tr.depth := by
  obtain ⟨t, ht, htree, -, hlen, hint, hdepth⟩ := parseInvertsSerialize tr hd
  have := tr.depth_lt
  exact ⟨t, ht, htree, by omega, hdepth⟩

/-! ## HEADER -/

/-- A payload of one byte or more: its header, its data bytes and its last byte (R100, R206). -/
theorem State.regionBytes_cons (s : State) {r : Region} (hr : 0 < r.len) :
    ∃ rest, s.regionBytes r = s.byteAt r.base :: rest ∧ rest.length = r.len - 1 ∧
      (s.byteAt r.base :: rest).getLastD 0 = s.byteAt (r.base + r.len - 1) := by
  have hlen := s.regionBytes_length r
  have hlast : (s.regionBytes r).getLastD 0 = s.byteAt (r.base + r.len - 1) := by
    have hne : s.regionBytes r ≠ [] := List.length_pos_iff.mp (hlen ▸ hr)
    rw [List.getLastD_eq_getLast?, List.getLast?_eq_getLast_of_ne_nil hne, Option.getD_some, List.getLast_eq_getElem]
    simp only [hlen]
    exact (Memory.bytesAt_getElem _ _ _ _ _).trans (by rw [State.byteAt, Nat.add_sub_assoc hr])
  cases h : s.regionBytes r with
  | nil => rw [h, List.length_nil] at hlen; omega
  | cons b rest =>
    have hb : b = s.byteAt r.base := by
      have h0 : (s.regionBytes r)[0]'(hlen ▸ hr) = s.byteAt r.base := Memory.bytesAt_getElem _ _ _ _ _
      simpa [h] using h0
    subst hb
    rw [h] at hlen hlast
    exact ⟨rest, rfl, by rw [← hlen, List.length_cons, Nat.add_sub_cancel], hlast⟩

/-- Settles O28: HEADER's checks in their order, on a tree that PARSE accepts. -/
theorem hdecPayloadHeader : Obligations.HdecPayloadHeader := by
  intro s tr hs hp hd haux p h last
  obtain ⟨t, ht, -⟩ := parseDescriptor_finds hd
  rw [← haux] at ht
  have hfail : ∀ {cause : Cause} {offset : Nat}, offset < 2 ^ 32 →
      parseHeader (s.regionBytes s.operands.src) = .error ⟨cause, offset⟩ →
      ∃ t, exec .hdec s = .next t ∧ Failed cause offset s t ∧ t.mem = s.mem := fun ho he => by
    obtain ⟨u, hu, hf, -, hm⟩ := exec_fail hs rfl (verdict_hdec_headerError hp ht he) ho
    exact ⟨u, hu, hf, hm⟩
  refine ⟨fun h0 => ?_, fun h0 hh => ?_, fun h0 hh hshort => ?_, fun h0 hpos hh hlong hpad => ?_⟩
  · have hnil : s.regionBytes s.operands.src = [] := List.length_eq_zero_iff.mp ((s.regionBytes_length _).trans h0)
    exact hfail (by decide) (by rw [hnil]; rfl)
  all_goals obtain ⟨rest, hcons, hlen, hlast⟩ := s.regionBytes_cons h0
  · exact hfail (by decide) (by rw [hcons, parseHeader_high hh])
  · exact hfail (by decide) (by rw [hcons, parseHeader_short hh (by rw [hlen]; exact hshort)])
  · refine hfail ((Nat.sub_le _ _).trans_lt s.operands.srcLen.isLt) ?_
    rw [hcons, parseHeader_pad hh (by rw [hlen]; exact hlong) hpos (by rw [hlast]; exact hpad), hlen]

/-! ## A single leaf -/

section
variable {o : Operands} {lenchk : Bool} {t : Parsed} {b : Byte} (ht : leafSym t.vars.node t.root = some b)
include ht

theorem hdecWalkVerdict_leafBits (x : List Byte) {d : Nat} (hd : d ≠ 0) :
    hdecWalkVerdict o lenchk t x d = .fail .beforeWrite .paySingleLeafBits 1 := by
  simp only [hdecWalkVerdict, ht, if_pos hd]

theorem hdecWalkVerdict_leafFull (x : List Byte) (h : o.dst.len < o.expLen.toNat) :
    hdecWalkVerdict o lenchk t x 0 = .fail .beforeWrite .dstFull o.dst.len := by
  simp only [hdecWalkVerdict, ht, ne_eq, not_true_eq_false, if_false, if_pos h, gt_iff_lt]

theorem hdecWalkVerdict_leafFits (x : List Byte) (h : o.expLen.toNat ≤ o.dst.len) :
    hdecWalkVerdict o lenchk t x 0 = hdecSuccess o t (List.replicate o.expLen.toNat b) := by
  simp only [hdecWalkVerdict, ht, ne_eq, not_true_eq_false, if_false, if_neg h.not_gt]

end

/-- Settles O30: the descriptor of one leaf is three bytes long, and EXP_LEN decides where there are no data bits. -/
theorem hdecSingleLeafCount : Obligations.HdecSingleLeafCount := by
  intro s b hs hp haux n p h last
  obtain ⟨t, ht, htree, hleaves, hdepth⟩ := parseDescriptor_finds (tr := .leaf b) (List.nodup_singleton b)
  have hleaf := leafSym_leaf htree
  rw [← haux] at ht
  have hlen : s.operands.aux.len = 3 := by
    rw [← s.regionBytes_length, haux, HTree.length_descriptor, HTree.bits, List.length_cons, bin8_length]
  have hwalk : s.regionBytes s.operands.src = [0x00] →
      s.verdict .hdec = hdecWalkVerdict s.operands s.lenchk t (s.regionBytes s.operands.src) 0 := fun hsrc =>
    verdict_hdec_walk hp ht (pad := 0) (by rw [hsrc]; rfl)
  refine ⟨fun hsrc hfit => ?_, fun hsrc hfull => ?_, fun h0 hh hbits hpad => ?_⟩
  · have := exec_hdecSuccess hs ((hwalk hsrc).trans (hdecWalkVerdict_leafFits hleaf _ hfit))
    rwa [List.length_replicate, hleaves, hdepth, hlen] at this
  · obtain ⟨u, hu, hf, -, hm⟩ :=
      exec_fail hs rfl ((hwalk hsrc).trans (hdecWalkVerdict_leafFull hleaf _ hfull)) s.operands.dstLen.isLt
    exact ⟨u, hu, hf, hm⟩
  · obtain ⟨rest, hcons, hrest, hlast⟩ := s.regionBytes_cons h0
    have hhead : parseHeader (s.regionBytes s.operands.src) = .ok (h, 8 * (p - 1) - h) := by
      rw [hcons, parseHeader_next hh (by rw [hrest]; exact hbits.le) (by rw [hlast]; exact hpad), hrest]
    obtain ⟨u, hu, hf, -, hm⟩ := exec_fail hs rfl
      ((verdict_hdec_walk hp ht hhead).trans (hdecWalkVerdict_leafBits hleaf _ (Nat.sub_ne_zero_of_lt hbits)))
      (by decide)
    exact ⟨u, hu, hf, hm⟩

/-! ## A tree of two leaves or more -/

section
variable {o : Operands} {lenchk : Bool} {t : Parsed} {l r : HTree} {y : List Byte}
  (ht : IsTree t.vars.node t.root (.node l r)) (hy : ∀ b ∈ y, b ∈ (HTree.node l r).syms)
include ht hy

/-- The walk over a payload whose bits are the codes of a message that fits, and then `part` (R208). -/
theorem walkBits_payload (part : BitString) (hfit : y.length ≤ o.dst.len) :
    walkBits t.vars.node t.root o.dst.len (dataBitsOf (bitsPayload ((HTree.node l r).encode y ++ part))
        ((HTree.node l r).encode y ++ part).length) t.root [] =
      walkBits t.vars.node t.root o.dst.len part t.root y := by
  rw [dataBitsOf_bitsPayload, walkBits_encode ht part y [] hy (by rwa [List.length_nil, Nat.zero_add]), List.nil_append]

theorem walkBits_message (hfit : y.length ≤ o.dst.len) :
    walkBits t.vars.node t.root o.dst.len (dataBitsOf ((HTree.node l r).payload y) ((HTree.node l r).encode y).length)
      t.root [] = .ok (t.root, y) := by
  have := walkBits_payload ht hy [] hfit
  rwa [List.append_nil] at this

theorem hdecWalkVerdict_message (hfit : y.length ≤ o.dst.len) (hexp : lenchk = true → o.expLen.toNat = y.length) :
    hdecWalkVerdict o lenchk t ((HTree.node l r).payload y) ((HTree.node l r).encode y).length = hdecSuccess o t y := by
  simp only [hdecWalkVerdict, leafSym_node ht, walkBits_message ht hy hfit, ne_eq, not_true_eq_false, if_false]
  exact if_neg fun hne => hne.2 (hexp hne.1).symm

theorem hdecWalkVerdict_mismatch (hfit : y.length ≤ o.dst.len) (hexp : o.expLen.toNat ≠ y.length) :
    hdecWalkVerdict o true t ((HTree.node l r).payload y) ((HTree.node l r).encode y).length =
      .fail .afterWrite .hdecLengthMismatch y.length := by
  simp only [hdecWalkVerdict, leafSym_node ht, walkBits_message ht hy hfit, ne_eq, not_true_eq_false, if_false]
  exact if_pos ⟨trivial, hexp.symm⟩

theorem hdecWalkVerdict_full (hfull : o.dst.len < y.length) :
    hdecWalkVerdict o lenchk t ((HTree.node l r).payload y) ((HTree.node l r).encode y).length =
      .fail .afterWrite .dstFull o.dst.len := by
  have hwalk := walkBits_encode_full (cap := o.dst.len) ht [] y [] hy (Nat.zero_le _)
    (by rwa [List.length_nil, Nat.zero_add])
  rw [List.append_nil, ← dataBitsOf_bitsPayload ((HTree.node l r).encode y)] at hwalk
  simp only [hdecWalkVerdict, leafSym_node ht, HTree.payload, hwalk]

theorem hdecWalkVerdict_incomplete {c : Byte} {part : BitString} (hc : c ∈ (HTree.node l r).syms)
    (hpre : part <+: (HTree.node l r).codeOf c) (hnil : part ≠ []) (hne : part ≠ (HTree.node l r).codeOf c)
    (hfit : y.length ≤ o.dst.len) :
    hdecWalkVerdict o lenchk t (bitsPayload ((HTree.node l r).encode y ++ part))
        ((HTree.node l r).encode y ++ part).length = .fail .afterWrite .payIncomplete (o.src.len - 1) := by
  obtain ⟨m, hwalk, hm⟩ := walkBits_part (cap := o.dst.len) ht y hc hpre hnil hne
  simp only [hdecWalkVerdict, leafSym_node ht, walkBits_payload ht hy part hfit, hwalk, if_pos hm]

end

/-- Settles O29: PARSE rebuilds the tree, HEADER finds the data bits, and the walk over them emits the message. -/
theorem hdecDecodesMessage : Obligations.HdecDecodesMessage := by
  intro s l r y hs hp tr hd hy haux hsrc hfit hexp
  obtain ⟨t, ht, htree, hleaves, hdepth⟩ := parseDescriptor_finds hd
  rw [← haux] at ht
  have hwalk := verdict_hdec_walk hp ht (by rw [hsrc]; exact parseHeader_bitsPayload _)
  rw [hsrc, hdecWalkVerdict_message htree hy hfit hexp] at hwalk
  have := exec_hdecSuccess hs hwalk
  rwa [hleaves, hdepth] at this

/-- Settles O31: each of these errors is found by the walk or by FINISH, so that DST may have been written. -/
theorem hdecWalkErrors : Obligations.HdecWalkErrors := by
  intro s l r y hs hp tr hd hy haux
  obtain ⟨t, ht, htree, -⟩ := parseDescriptor_finds hd
  rw [← haux] at ht
  have hwalk : ∀ {bits : BitString}, s.regionBytes s.operands.src = bitsPayload bits →
      s.verdict .hdec = hdecWalkVerdict s.operands s.lenchk t (bitsPayload bits) bits.length := fun hsrc =>
    hsrc ▸ verdict_hdec_walk hp ht (by rw [hsrc]; exact parseHeader_bitsPayload _)
  refine ⟨fun hsrc hfull => ?_, fun hsrc hfit hchk hexp => ?_, fun c part hc hpre hnil hne hsrc hfit => ?_⟩
  · exact exec_fail_outputs hs ((hwalk hsrc).trans (hdecWalkVerdict_full htree hy hfull)) s.operands.dstLen.isLt
  · rw [hchk] at hwalk
    exact exec_fail_outputs hs ((hwalk hsrc).trans (hdecWalkVerdict_mismatch htree hy hfit hexp))
      (hfit.trans_lt s.operands.dstLen.isLt)
  · exact exec_fail_outputs hs ((hwalk hsrc).trans (hdecWalkVerdict_incomplete htree hy hc hpre hnil hne hfit))
      ((Nat.sub_le _ _).trans_lt s.operands.srcLen.isLt)

end Sys2Proof.Machine
end

section
/-! The round trip of HENC and HDEC (R213). -/

namespace Sys2Proof.Machine

/-! ## What HENC wrote, as a tree's descriptor and payload -/

/-- Some leaf is as deep as the tree. -/
theorem HTree.exists_length_codeOf : ∀ {t : HTree}, t.syms.Nodup → ∃ s ∈ t.syms, (t.codeOf s).length = t.depth
  | .leaf s, _ => ⟨s, List.mem_singleton_self s, rfl⟩
  | .node l r, hd => by
    obtain ⟨hdl, hdr, hdis⟩ := List.nodup_append'.mp hd
    obtain ⟨a, ha, hla⟩ := exists_length_codeOf hdl
    obtain ⟨b, hb, hlb⟩ := exists_length_codeOf hdr
    rcases Nat.le_total r.depth l.depth with hle | hle
    · refine ⟨a, List.mem_append_left _ ha, ?_⟩
      rw [codeOf_node_left ha, List.length_cons, hla, HTree.depth, max_eq_left hle, Nat.add_comm]
    · refine ⟨b, List.mem_append_right _ hb, ?_⟩
      rw [codeOf_node_right fun hl => hdis hl hb, List.length_cons, hlb, HTree.depth, max_eq_right hle, Nat.add_comm]

/-- The maximum of a list is its member that no other exceeds. -/
theorem foldl_max_eq {l : List Nat} {m : Nat} (hm : m ∈ l) (hle : ∀ n ∈ l, n ≤ m) : l.foldl max 0 = m := by
  rw [List.foldl_eq_foldr]
  exact le_antisymm (List.max_le_of_forall_le l m hle) (List.le_max_of_le hm (le_refl m))

/-- HENC's outputs for an input are the descriptor of a tree over the input's bytes and the input's payload in that
tree, and INFO's fields are the tree's (R167 to R173). -/
theorem hencTree_encodes {x : List Byte} (hx : x ≠ []) :
    ∃ t : HTree, t.syms.Nodup ∧ (∀ s ∈ x, s ∈ t.syms) ∧
      infoWord (distinctCount x) (hencMaxLen x) = infoWord t.syms.length t.depth ∧
      payloadBytes (hencCode x) (padLen (encodeBits (hencCode x) x).length) x = t.payload x ∧
      descriptorBytes (hencTree x).node (hencTree x).root = t.descriptor := by
  obtain ⟨t, ht, hp, hn⟩ := hencTree_isTree hx
  have hd : t.syms.Nodup := hp.nodup_iff.mpr (keys_nodup _)
  have hmem : ∀ s, s ∈ t.syms ↔ s ∈ x := fun s => hp.mem_iff.trans mem_keys_freqTable
  have hcode : ∀ s ∈ x, codeOf (hencCode x) s = t.codeOf s := fun s hs => hencCode_eq ht hp hn hs
  have hlen : distinctCount x = t.syms.length := (length_keys_freqTable x).symm.trans hp.length_eq.symm
  have hmax : hencMaxLen x = t.depth := by
    obtain ⟨s, hs, hdepth⟩ := HTree.exists_length_codeOf hd
    have hsx := (hmem s).mp hs
    refine foldl_max_eq (List.mem_map.mpr ⟨s, hsx, by rw [hcode s hsx, hdepth]⟩) fun n hn => ?_
    obtain ⟨c, hc, rfl⟩ := List.mem_map.mp hn
    rw [hcode c hc]
    exact t.length_codeOf_le c
  have hbits : encodeBits (hencCode x) x = t.encode x := List.flatMap_congr hcode
  refine ⟨t, hd, fun s => (hmem s).mpr, by rw [hlen, hmax], by rw [payloadBytes, hbits]; rfl, ?_⟩
  rw [descriptorBytes, treeBits_isTree ht (by have := t.size_add_one; have := t.depth_lt; omega), HTree.descriptor]

/-! ## A command that succeeded -/

theorem error_of_verdict_fail {i : Instr} {s t : State} (hs : s.ready) (h : exec i s = .next t) {c : WriteClass}
    {cause : Cause} {offset : Nat} (hv : s.verdict i = .fail c cause offset) : t.error = true := by
  obtain ⟨u, rfl, -⟩ := concludes_of_exec hs h
  rw [hv]
  rfl

/-- HENC succeeds only where its regions pass, its input is not empty and its outputs fit (R136, R162, R170). -/
theorem henc_fits_of_success {s t : State} (hs : s.ready) (h : exec .henc s = .next t) (he : t.error = false) :
    s.regionsPass .henc ∧ 0 < s.operands.src.len ∧
      hencPayLen (s.regionBytes s.operands.src) ≤ s.operands.dst.len ∧
      descriptorLen (distinctCount (s.regionBytes s.operands.src)) ≤ s.operands.aux.len := by
  have hnofail : ∀ {c cause offset}, s.verdict .henc ≠ .fail c cause offset := fun hv =>
    Bool.false_ne_true (he.symm.trans (error_of_verdict_fail hs h hv))
  have hpass : s.regionsPass .henc := by
    by_contra hc
    obtain ⟨c, hc⟩ := Option.ne_none_iff_exists'.mp hc
    exact hnofail (by rw [State.verdict, hc])
  have hv : ∀ {v : Verdict}, hencVerdict s.operands (s.regionBytes s.operands.src) = v → s.verdict .henc = v :=
    (verdict_of_regionsPass hpass).trans
  have hpos : 0 < s.operands.src.len := Nat.pos_of_ne_zero fun h0 => hnofail (hv (hencVerdict_empty h0))
  have hpay := not_lt.mp fun hn => hnofail (hv (hencVerdict_dstFull hpos hn))
  exact ⟨hpass, hpos, hpay, not_lt.mp fun hm => hnofail (hv (hencVerdict_auxFull hpos hpay hm))⟩

/-! ## HDEC on any tree -/

/-- HDEC on a tree of any size gives back a message whose length EXP_LEN holds, whatever LENCHK is (R207 to R211). -/
theorem hdec_decodes {s : State} {tr : HTree} {y : List Byte} (hs : s.ready) (hp : s.regionsPass .hdec)
    (hd : tr.syms.Nodup) (hy : ∀ b ∈ y, b ∈ tr.syms) (haux : s.regionBytes s.operands.aux = tr.descriptor)
    (hsrc : s.regionBytes s.operands.src = tr.payload y) (hfit : y.length ≤ s.operands.dst.len)
    (hexp : s.operands.expLen.toNat = y.length) :
    ∃ t m, exec .hdec s = .next t ∧ Succeeded y.length m (infoWord tr.syms.length tr.depth) 0 s t ∧
      t.regionBytes ⟨s.operands.dst.base, y.length⟩ = y := by
  cases tr with
  | leaf b =>
    have hpay : (HTree.leaf b).payload y = [0x00] := by
      have hnil : (HTree.leaf b).encode y = [] := List.flatMap_eq_nil_iff.mpr fun _ _ => rfl
      rw [HTree.payload, hnil]
      rfl
    obtain ⟨t, ht, hsucc, hdst, -⟩ :=
      (hdecSingleLeafCount s b hs hp haux).1 (hsrc.trans hpay) (hexp.trans_le hfit)
    rw [hexp] at hsucc hdst
    refine ⟨t, 3, ht, hsucc, hdst.trans ?_⟩
    exact (List.eq_replicate_of_mem fun c hc => List.mem_singleton.mp (hy c hc)).symm
  | node l r =>
    obtain ⟨t, ht, hsucc, hdst, -⟩ := hdecDecodesMessage s l r y hs hp hd hy haux hsrc hfit fun _ => hexp
    exact ⟨t, _, ht, hsucc, hdst⟩

/-- Settles O32: what HENC wrote is the descriptor and the payload of its input's tree, which HDEC decodes. -/
theorem huffmanRoundTrip : Obligations.HuffmanRoundTrip := by
  intro s t u hs ht he hu hup _ _ hsrc haux hexp hfit
  obtain ⟨hpass, hpos, hpay, hdesc⟩ := henc_fits_of_success hs ht he
  have hlen : (s.regionBytes s.operands.src).length = s.operands.srcLen.toNat := s.regionBytes_length _
  obtain ⟨tr, hd, hmem, hinfo, hpayload, hdescriptor⟩ :=
    hencTree_encodes (List.length_pos_iff.mp (hlen.symm ▸ hpos : 0 < (s.regionBytes s.operands.src).length))
  obtain ⟨t', ht', hsucc, hdst, hauxBytes, -⟩ := hencCompletes s hs hpass hpos hpay hdesc
  cases ht.symm.trans ht'
  obtain ⟨-, -, -, -, hres, hresAux, htinfo, -⟩ := hsucc
  rw [hres, hdst, hpayload] at hsrc
  rw [hresAux, hauxBytes, hdescriptor] at haux
  obtain ⟨v, m, hv, ⟨-, hdone, herr, -, hvres, -, hvinfo, -⟩, hout⟩ :=
    hdec_decodes hu hup hd hmem haux hsrc (hlen.trans_le hfit) (by rw [hexp, hlen])
  refine ⟨v, hv, hdone, herr, BitVec.eq_of_toNat_eq (hvres.trans hlen), ?_, ?_⟩
  · rw [hvinfo, htinfo, hinfo]
  · rwa [hlen] at hout

end Sys2Proof.Machine
end

section
/-! What PARSE rejects, at which offset, and HDEC's error completion for it (R201 to R205). -/

namespace Sys2Proof.Machine

/-! ## Offsets of PARSE's errors -/

/-- The bits consumed and the bits to come lie in a descriptor of `a` bytes, after its version byte (R202). -/
def Parse.Within (a : Nat) (p : Parse) : Prop := p.pos + p.rest.length + 8 ≤ 8 * a

/-- A part of PARSE stays within the descriptor, and so does the offset of its error. -/
def KeepsWithin {α : Type} (a : Nat) : Except Raise (α × Parse) → Prop
  | .ok (_, q) => q.Within a
  | .error e => e.offset ≤ a

theorem lastBitByte_le {a : Nat} {p : Parse} (h : p.Within a) : lastBitByte p.pos ≤ a := by
  rw [Parse.Within] at h
  rw [lastBitByte]
  omega

theorem getBit_within {a : Nat} {p : Parse} (h : p.Within a) : KeepsWithin a (getBit a p) := by
  rw [Parse.Within] at h
  cases hr : p.rest with
  | nil => rw [getBit_nil a p hr]; exact le_refl a
  | cons b rest =>
    rw [hr, List.length_cons] at h
    rw [getBit_cons a p b rest hr, KeepsWithin, Parse.Within]
    show p.pos + 1 + rest.length + 8 ≤ 8 * a
    omega

theorem getBits_within {a : Nat} : ∀ (k n : Nat) {p : Parse}, p.Within a → KeepsWithin a (getBits a k n p)
  | 0, _, _, h => h
  | k + 1, n, p, h => by
    have hbit := getBit_within h
    rw [getBits]
    split
    · next he => rwa [he] at hbit
    · next b q hq =>
      rw [hq] at hbit
      exact getBits_within k _ hbit

/-- The checks of a symbol and of an internal node consume no bit (R203, R204). -/
theorem checkSymbol_within {a : Nat} {s : Byte} {p : Parse} (h : p.Within a) :
    KeepsWithin a ((checkSymbol s p).map ((), ·)) := by
  rw [checkSymbol]
  split
  · exact lastBitByte_le h
  · exact h

theorem checkInternal_within {a : Nat} {p : Parse} (h : p.Within a) :
    KeepsWithin a ((checkInternal p).map ((), ·)) := by
  rw [checkInternal]
  split
  · exact lastBitByte_le h
  · exact h

theorem parseNode_within {a : Nat} : ∀ (fuel d : Nat) {p : Parse}, p.Within a → KeepsWithin a (parseNode a fuel d p)
  | 0, _, _, h => lastBitByte_le h
  | fuel + 1, d, p, h => by
    have hbit := getBit_within h
    rw [parseNode]
    split
    · next he => rwa [he] at hbit
    · next p1 h1 =>
      rw [h1] at hbit
      have hbits := getBits_within 8 0 hbit
      split
      · next he => rwa [he] at hbits
      · next s p2 h2 =>
        rw [h2] at hbits
        have hsym := checkSymbol_within (s := BitVec.ofNat 8 s) hbits
        split
        · next he => rwa [he] at hsym
        · next p3 h3 => rwa [h3] at hsym
    · next p1 h1 =>
      rw [h1] at hbit
      have hint := checkInternal_within hbit
      split
      · next he => rwa [he] at hint
      · next p2 h2 =>
        rw [h2] at hint
        have hleft := parseNode_within fuel (d + 1) (p := { p2 with node := p2.node ++ [.internal 0 0 0] }) hint
        dsimp only
        split
        · next he => rwa [he] at hleft
        · next l p3 h3 =>
          rw [h3] at hleft
          have hright := parseNode_within fuel (d + 1)
            (p := { p3 with node := p3.node.set p2.node.length (.internal 0 l 0) }) hleft
          split
          · next he => rwa [he] at hright
          · next r p4 h4 => rwa [h4] at hright

theorem checkTail_offset {a : Nat} {bits : BitString} {p : Parse} {e : Raise} (h : p.Within a)
    (he : checkTail a bits p = .error e) : e.offset ≤ a := by
  rw [Parse.Within] at h
  dsimp only [checkTail] at he
  split at he
  · cases he
    show (p.pos + 7) / 8 ≤ a
    omega
  · split at he
    · next ha => cases he; exact ha.le
    · cases he

theorem length_unpackBits (l : List Byte) : (unpackBits l).length = 8 * l.length := by
  simp [unpackBits, List.length_flatMap, Nat.mul_comm]

theorem unpackBits_append (l l' : List Byte) : unpackBits (l ++ l') = unpackBits l ++ unpackBits l' :=
  List.flatMap_append

/-- PARSE's errors name a place in the descriptor, or its end (R201 to R205). -/
theorem parseDescriptor_offset {desc : List Byte} {e : Raise} (h : parseDescriptor desc = .error e) :
    e.offset ≤ desc.length := by
  unfold parseDescriptor at h
  split at h
  · cases h; exact le_refl 0
  · next v area =>
    split at h
    · cases h; exact Nat.zero_le _
    · have hstart : (Parse.start (unpackBits area)).Within (v :: area).length := by
        show 0 + (unpackBits area).length + 8 ≤ 8 * (area.length + 1)
        rw [length_unpackBits]
        omega
      have hnode := parseNode_within parseFuel 0 hstart
      rw [Parse.start] at hnode
      split at h
      · next he =>
        cases h
        rwa [he] at hnode
      · next root p hp =>
        rw [hp] at hnode
        split at h
        · next he =>
          cases h
          exact checkTail_offset hnode he
        · cases h

/-- Every error of PARSE is HDEC's error completion, before any write (R201 to R205, R216). -/
theorem exec_hdec_parseError {s : State} {e : Raise} {w : Word} (hs : s.ready) (hp : s.regionsPass .hdec)
    (hw : errWord e.cause = w) (h : parseDescriptor (s.regionBytes s.operands.aux) = .error e) :
    ∃ t, exec .hdec s = .next t ∧ Failed e.cause e.offset s t ∧ t.err = w ∧ t.mem = s.mem := by
  have hoff := parseDescriptor_offset h
  rw [s.regionBytes_length] at hoff
  exact exec_fail hs hw (verdict_hdec_parseError hp h) (hoff.trans_lt s.operands.auxLen.isLt)

/-- Settles O27. -/
theorem hdecDescriptorStart : Obligations.HdecDescriptorStart := by
  intro s hs hp
  refine ⟨fun h0 => ?_, fun h0 hv => ?_⟩
  · have hnil : s.regionBytes s.operands.aux = [] := List.length_eq_zero_iff.mp ((s.regionBytes_length _).trans h0)
    exact exec_hdec_parseError (e := ⟨.descEmpty, 0⟩) hs hp rfl (by rw [hnil]; rfl)
  · obtain ⟨rest, hcons, -, -⟩ := s.regionBytes_cons h0
    have hversion : s.byteAt s.operands.aux.base ≠ 1#8 := hv
    exact exec_hdec_parseError (e := ⟨.descVersion, 0⟩) hs hp rfl (by rw [hcons, parseDescriptor, if_pos hversion])

/-! ## Trees, node by node -/

theorem tokenBits_append (ts us : List (Option Byte)) : tokenBits (ts ++ us) = tokenBits ts ++ tokenBits us :=
  List.flatMap_append

theorem leafSyms_append (ts us : List (Option Byte)) : leafSyms (ts ++ us) = leafSyms ts ++ leafSyms us :=
  List.filterMap_append

theorem HTree.tokenBits_tokens : ∀ t : HTree, tokenBits t.tokens = t.bits
  | .leaf _ => rfl
  | .node l r => by
    show false :: tokenBits (l.tokens ++ r.tokens) = _
    rw [tokenBits_append, l.tokenBits_tokens, r.tokenBits_tokens, HTree.bits]

theorem HTree.leafSyms_tokens : ∀ t : HTree, leafSyms t.tokens = t.syms
  | .leaf _ => rfl
  | .node l r => by
    show leafSyms (l.tokens ++ r.tokens) = _
    rw [leafSyms_append, l.leafSyms_tokens, r.leafSyms_tokens, HTree.syms]

/-- A tree has one leaf more than internal nodes (R16). -/
theorem HTree.count_tokens : ∀ t : HTree, t.tokens.count none + 1 = t.syms.length
  | .leaf _ => rfl
  | .node l r => by
    have hl := l.count_tokens
    have hr := r.count_tokens
    rw [HTree.tokens, HTree.syms, List.count_cons_self, List.count_append, List.length_append]
    omega

/-- A place in a tree in pre-order: the edges that lead to it from the root, and the whole left subtrees passed on
the way. -/
inductive TreePath where
  | here
  | left (c : TreePath)
  | right (l : HTree) (c : TreePath)

/-- The nodes in pre-order before the place. -/
def TreePath.tokens : TreePath → List (Option Byte)
  | .here => []
  | .left c => none :: c.tokens
  | .right l c => none :: (l.tokens ++ c.tokens)

/-- Nodes in pre-order lead to a place in a tree, or begin with a whole tree. -/
theorem exists_path_or_tree : ∀ ts : List (Option Byte),
    (∃ c : TreePath, c.tokens = ts) ∨ ∃ (t : HTree) (rest : List (Option Byte)), ts = t.tokens ++ rest
  | [] => .inl ⟨.here, rfl⟩
  | some s :: ts => .inr ⟨.leaf s, ts, rfl⟩
  | none :: ts => by
    rcases exists_path_or_tree ts with ⟨c, hc⟩ | ⟨l, us, hl⟩
    · exact .inl ⟨.left c, congrArg _ hc⟩
    · have hlt : us.length < ts.length + 1 := by rw [hl, List.length_append]; omega
      rcases exists_path_or_tree us with ⟨c, hc⟩ | ⟨r, rest, hr⟩
      · exact .inl ⟨.right l c, by rw [TreePath.tokens, hc, hl]⟩
      · exact .inr ⟨.node l r, rest, by rw [hl, hr, HTree.tokens, List.cons_append, List.append_assoc]⟩
termination_by ts => ts.length

/-- Unfinished nodes lead to a place in a tree. -/
theorem Unfinished.exists_path {ts : List (Option Byte)} (h : Unfinished ts) : ∃ c : TreePath, c.tokens = ts := by
  refine (exists_path_or_tree ts).resolve_right ?_
  rintro ⟨t, rest, rfl⟩
  have hle := h t.tokens (List.prefix_append _ _)
  rw [t.leafSyms_tokens, ← t.count_tokens] at hle
  exact Nat.not_succ_le_self _ hle

/-- The bits of a node that end before it is whole: none, or those of a leaf without the end of its symbol. -/
def ShortNode (part : BitString) : Prop := part = [] ∨ (part.head? = some true ∧ part.length < 9)

/-- A proper beginning of a tree's bits ends at a place in the tree, before the node there is whole. -/
theorem HTree.exists_path_of_cut : ∀ {t : HTree} {bs : BitString}, bs <+: t.bits → bs.length < t.bits.length →
    ∃ (c : TreePath) (part : BitString), bs = tokenBits c.tokens ++ part ∧ ShortNode part ∧
      (leafSyms c.tokens).Sublist t.syms ∧ c.tokens.count none < t.syms.length
  | t, [], _, _ => ⟨.here, [], rfl, .inl rfl, List.nil_sublist _, (Nat.zero_le _).trans_lt t.depth_lt⟩
  | .leaf s, b :: bs, hpre, hlt => by
    obtain ⟨rfl, -⟩ := List.cons_prefix_cons.mp hpre
    exact ⟨.here, true :: bs, rfl, .inr ⟨rfl, hlt⟩, List.nil_sublist _, Nat.one_pos⟩
  | .node l r, b :: bs, hpre, hlt => by
    obtain ⟨rfl, hrest⟩ := List.cons_prefix_cons.mp hpre
    simp only [HTree.bits, List.length_cons, List.length_append] at hlt
    by_cases hl : bs.length < l.bits.length
    · obtain ⟨c, part, rfl, hpart, hsub, hcount⟩ :=
        exists_path_of_cut (List.prefix_of_prefix_length_le hrest (List.prefix_append _ _) hl.le) hl
      refine ⟨.left c, part, rfl, hpart, hsub.trans (List.sublist_append_left _ _), ?_⟩
      rw [TreePath.tokens, HTree.syms, List.count_cons_self, List.length_append]
      have := r.depth_lt
      omega
    · obtain ⟨bs, rfl⟩ := List.prefix_of_prefix_length_le (List.prefix_append _ _) hrest (not_lt.mp hl)
      rw [List.prefix_append_right_inj] at hrest
      rw [List.length_append] at hlt
      obtain ⟨c, part, rfl, hpart, hsub, hcount⟩ := exists_path_of_cut hrest (by omega)
      refine ⟨.right l c, part, ?_, hpart, ?_, ?_⟩
      · show _ = false :: tokenBits (l.tokens ++ c.tokens) ++ part
        rw [tokenBits_append, l.tokenBits_tokens, List.cons_append, List.append_assoc]
      · show (leafSyms (l.tokens ++ c.tokens)).Sublist _
        rw [leafSyms_append, l.leafSyms_tokens, HTree.syms]
        exact (List.Sublist.refl _).append hsub
      · have := l.count_tokens
        rw [TreePath.tokens, HTree.syms, List.count_cons_self, List.count_append, List.length_append]
        omega

/-! ## PARSE up to a place in a tree -/

/-- `q` are the variables of PARSE, as far as its errors depend on them, once it has consumed the nodes `ts` from `p`
on, with `tail` still to come. -/
structure Parse.Past (p : Parse) (ts : List (Option Byte)) (tail : BitString) (q : Parse) : Prop where
  rest : q.rest = tail
  pos : q.pos = p.pos + (tokenBits ts).length
  nint : q.nint = p.nint + ts.count none
  seen : q.seen = markSeen p.seen (leafSyms ts)

section
variable {a fuel d : Nat} {bits : BitString} {p q : Parse} {e : Raise} {i : Nat}

/-- An error in an internal node's left child is the node's error (R202). -/
theorem parseNode_left_error (h : p.rest = false :: bits) (hn : p.nint + 1 ≠ 256)
    (he : parseNode a fuel (d + 1) (p.openNode bits) = .error e) : parseNode a (fuel + 1) d p = .error e := by
  have hint : checkInternal { p with rest := bits, pos := p.pos + 1 } =
      .ok { p with rest := bits, pos := p.pos + 1, nint := p.nint + 1 } := checkInternal_ok hn
  rw [Parse.openNode] at he
  rw [parseNode, getBit_cons a p false bits h]
  simp only [hint, he]

/-- An error in an internal node's right child is the node's error (R202). -/
theorem parseNode_right_error (h : p.rest = false :: bits) (hn : p.nint + 1 ≠ 256)
    (hq : parseNode a fuel (d + 1) (p.openNode bits) = .ok (i, q))
    (he : parseNode a fuel (d + 1) (q.setChildren p.node.length i 0) = .error e) :
    parseNode a (fuel + 1) d p = .error e := by
  have hint : checkInternal { p with rest := bits, pos := p.pos + 1 } =
      .ok { p with rest := bits, pos := p.pos + 1, nint := p.nint + 1 } := checkInternal_ok hn
  rw [Parse.openNode] at hq
  rw [Parse.setChildren] at he
  rw [parseNode, getBit_cons a p false bits h]
  simp only [hint, hq, he]

end

/-- PARSE reaches a place in a tree whose symbols so far are distinct and new, with the bounds of R204 kept: an error at
the node there is its error. -/
theorem parseNode_path {a : Nat} {e : Raise} {tail : BitString} : ∀ (c : TreePath) {fuel d : Nat} {p : Parse},
    p.rest = tokenBits c.tokens ++ tail → c.tokens.count none < fuel → p.nint + c.tokens.count none ≤ 255 →
    (leafSyms c.tokens).Nodup → (∀ s ∈ leafSyms c.tokens, p.seen.getLsbD s.toNat = false) →
    (∀ fuel d q, p.Past c.tokens tail q → parseNode a (fuel + 1) d q = .error e) → parseNode a fuel d p = .error e
  | .here, fuel + 1, d, p, hr, _, _, _, _, hend => hend fuel d p ⟨hr, rfl, rfl, rfl⟩
  | .left c, fuel + 1, d, p, hr, hf, hn, hd, hseen, hend => by
    rw [TreePath.tokens, List.count_cons_self] at hf hn
    refine parseNode_left_error (bits := tokenBits c.tokens ++ tail) hr (by omega) ?_
    refine parseNode_path c rfl (by omega) (by show p.nint + 1 + _ ≤ 255; omega) hd hseen fun fuel d q hq => ?_
    refine hend fuel d q ⟨hq.rest, hq.pos.trans ?_, hq.nint.trans ?_, hq.seen⟩
    · show p.pos + 1 + _ = p.pos + ((tokenBits c.tokens).length + 1)
      omega
    · rw [TreePath.tokens, List.count_cons_self]
      show p.nint + 1 + _ = _
      omega
  | .right l c, fuel + 1, d, p, hr, hf, hn, hd, hseen, hend => by
    have hsyms : leafSyms (TreePath.right l c).tokens = l.syms ++ leafSyms c.tokens := by
      show leafSyms (l.tokens ++ c.tokens) = _
      rw [leafSyms_append, l.leafSyms_tokens]
    have hbits : tokenBits (TreePath.right l c).tokens = false :: (l.bits ++ tokenBits c.tokens) := by
      show false :: tokenBits (l.tokens ++ c.tokens) = _
      rw [tokenBits_append, l.tokenBits_tokens]
    have hcount := l.count_tokens
    have hldepth := l.depth_lt
    rw [hbits, List.cons_append, List.append_assoc] at hr
    rw [hsyms] at hd hseen
    obtain ⟨hdl, hdc, hdis⟩ := List.nodup_append'.mp hd
    rw [TreePath.tokens, List.count_cons_self, List.count_append] at hf hn
    have hleft : parseNode a fuel (d + 1) (p.openNode (l.bits ++ (tokenBits c.tokens ++ tail))) = _ :=
      parseNode_tree l rfl (by omega) (by show p.nint + 1 + _ ≤ 256; omega) hdl
        fun s hs => hseen s (List.mem_append_left _ hs)
    have hi : (p.openNode (l.bits ++ (tokenBits c.tokens ++ tail))).node.length = p.node.length + 1 := by
      simp [Parse.openNode]
    rw [hi] at hleft
    refine parseNode_right_error hr (by omega) hleft ?_
    show parseNode a fuel (d + 1) (p.afterLeft (tokenBits c.tokens ++ tail) d l) = _
    refine parseNode_path c rfl (by omega) (by show p.nint + 1 + (l.syms.length - 1) + _ ≤ 255; omega) hdc
      (fun s hs => ?_) fun fuel d q hq => hend fuel d q ⟨hq.rest, hq.pos.trans ?_, hq.nint.trans ?_, hq.seen.trans ?_⟩
    · show (markSeen p.seen l.syms).getLsbD s.toNat = false
      have hsl : s ∉ l.syms := fun hsl => hdis hsl hs
      simpa [getLsbD_markSeen, hsl] using hseen s (List.mem_append_right _ hs)
    · rw [hbits, List.length_cons, List.length_append]
      show p.pos + 1 + l.bits.length + _ = _
      omega
    · rw [TreePath.tokens, List.count_cons_self, List.count_append]
      show p.nint + 1 + (l.syms.length - 1) + _ = _
      omega
    · rw [hsyms, markSeen_append]
      rfl

/-! ## A node that PARSE rejects -/

/-- Bits that end inside a number (R202, R205). -/
theorem getBits_short (a : Nat) : ∀ (bs : BitString) (k n : Nat) (p : Parse), p.rest = bs → bs.length < k →
    getBits a k n p = .error ⟨.descTruncated, a⟩
  | [], k + 1, n, p, h, _ => by rw [getBits, getBit_nil a p h]
  | b :: bs, k + 1, n, p, h, hk => by
    rw [getBits, getBit_cons a p b bs h]
    exact getBits_short a bs k _ _ rfl (Nat.lt_of_succ_lt_succ hk)

/-- Bits that end before a node is whole (R202). -/
theorem parseNode_short {a fuel d : Nat} {p : Parse} (h : ShortNode p.rest) :
    parseNode a (fuel + 1) d p = .error ⟨.descTruncated, a⟩ := by
  cases hr : p.rest with
  | nil => rw [parseNode, getBit_nil a p hr]
  | cons b bs =>
    rw [ShortNode, hr] at h
    obtain ⟨hb, hlen⟩ := h.resolve_left nofun
    cases Option.some.inj hb
    have hbits := getBits_short a bs 8 0 { p with rest := bs, pos := p.pos + 1 } rfl (Nat.lt_of_succ_lt_succ hlen)
    rw [parseNode, getBit_cons a p true bs hr]
    simp only [hbits]

/-- A leaf whose symbol has one (R203). -/
theorem parseNode_duplicate {a fuel d : Nat} {s : Byte} {more : BitString} {p : Parse}
    (h : p.rest = true :: (bin8 s ++ more)) (hs : p.seen.getLsbD s.toNat = true) :
    parseNode a (fuel + 1) d p = .error ⟨.descDupSymbol, lastBitByte (p.pos + 9)⟩ := by
  have hbits : getBits a 8 0 { p with rest := bin8 s ++ more, pos := p.pos + 1 } =
      .ok (natOfBits (bin8 s), { p with rest := more, pos := p.pos + 1 + 8 }) := getBits_bin8 a s rfl
  have hdup : checkSymbol s { p with rest := more, pos := p.pos + 1 + 8 } =
      .error ⟨.descDupSymbol, lastBitByte (p.pos + 9)⟩ := checkSymbol_seen hs
  rw [parseNode, getBit_cons a p true (bin8 s ++ more) h]
  simp only [hbits, natOfBits_bin8, hdup]

/-- A 256th internal node (R204). -/
theorem parseNode_tooMany {a fuel d : Nat} {more : BitString} {p : Parse} (h : p.rest = false :: more)
    (hn : p.nint = 255) :
    parseNode a (fuel + 1) d p = .error ⟨.descTooManyInternal, lastBitByte (p.pos + 1)⟩ := by
  rw [parseNode, getBit_cons a p false more h]
  simp only [checkInternal, hn, if_true]

/-! ## Damaged descriptors -/

theorem parseDescriptor_nodeError {area : List Byte} {e : Raise}
    (h : parseNode (1#8 :: area).length parseFuel 0 (.start (unpackBits area)) = .error e) :
    parseDescriptor (1#8 :: area) = .error e := by
  rw [Parse.start] at h
  rw [parseDescriptor, if_neg (by decide)]
  simp only [h]

theorem parseDescriptor_tailError {area : List Byte} {n : Nat} {p : Parse} {e : Raise}
    (hp : parseNode (1#8 :: area).length parseFuel 0 (.start (unpackBits area)) = .ok (n, p))
    (he : checkTail (1#8 :: area).length (unpackBits area) p = .error e) :
    parseDescriptor (1#8 :: area) = .error e := by
  rw [Parse.start] at hp
  rw [parseDescriptor, if_neg (by decide)]
  simp only [hp, he]

/-- An error at the node at a place in a tree is PARSE's error. -/
theorem parseDescriptor_path {area : List Byte} {e : Raise} {c : TreePath} {tail : BitString}
    (hbits : unpackBits area = tokenBits c.tokens ++ tail) (hd : (leafSyms c.tokens).Nodup)
    (hn : c.tokens.count none ≤ 255)
    (he : ∀ fuel d q, (Parse.start (unpackBits area)).Past c.tokens tail q →
      parseNode (1#8 :: area).length (fuel + 1) d q = .error e) :
    parseDescriptor (1#8 :: area) = .error e := by
  refine parseDescriptor_nodeError (parseNode_path c hbits ?_ ?_ hd (fun s _ => ?_) he)
  · rw [parseFuel]; omega
  · exact (Nat.zero_add _).trans_le hn
  · exact BitVec.getLsbD_zero

/-- An area that ends before the node at a place in a tree is whole (R202). -/
theorem parseDescriptor_short {area : List Byte} {c : TreePath} {part : BitString}
    (hbits : unpackBits area = tokenBits c.tokens ++ part) (hpart : ShortNode part)
    (hd : (leafSyms c.tokens).Nodup) (hn : c.tokens.count none ≤ 255) :
    parseDescriptor (1#8 :: area) = .error ⟨.descTruncated, (1#8 :: area).length⟩ :=
  parseDescriptor_path hbits hd hn fun _ _ _ hq => parseNode_short (hq.rest ▸ hpart)

/-- A leaf at a place in a tree, whose symbol has one (R203). -/
theorem parseDescriptor_duplicate {area : List Byte} {c : TreePath} {s : Byte} (hs : s ∈ leafSyms c.tokens)
    (hpre : tokenBits (c.tokens ++ [some s]) <+: unpackBits area) (hd : (leafSyms c.tokens).Nodup)
    (hn : c.tokens.count none ≤ 255) : parseDescriptor (1#8 :: area) =
      .error ⟨.descDupSymbol, lastBitByte (tokenBits (c.tokens ++ [some s])).length⟩ := by
  obtain ⟨more, hmore⟩ := hpre
  rw [tokenBits_append, List.append_assoc] at hmore
  refine parseDescriptor_path hmore.symm hd hn fun fuel d q hq => ?_
  have hseen : q.seen.getLsbD s.toNat = true := by rw [hq.seen, getLsbD_markSeen, decide_eq_true hs, Bool.or_true]
  have hpos : (tokenBits (c.tokens ++ [some s])).length = q.pos + 9 := by
    rw [tokenBits_append, List.length_append, hq.pos]
    show (tokenBits c.tokens).length + 9 = 0 + (tokenBits c.tokens).length + 9
    rw [Nat.zero_add]
  rw [hpos]
  exact parseNode_duplicate hq.rest hseen

/-- A 256th internal node, at a place in a tree (R204). -/
theorem parseDescriptor_tooMany {area : List Byte} {c : TreePath}
    (hpre : tokenBits (c.tokens ++ [none]) <+: unpackBits area) (hd : (leafSyms c.tokens).Nodup)
    (hn : c.tokens.count none = 255) : parseDescriptor (1#8 :: area) =
      .error ⟨.descTooManyInternal, lastBitByte (tokenBits (c.tokens ++ [none])).length⟩ := by
  obtain ⟨more, hmore⟩ := hpre
  rw [tokenBits_append, List.append_assoc] at hmore
  refine parseDescriptor_path hmore.symm hd hn.le fun fuel d q hq => ?_
  have hpos : (tokenBits (c.tokens ++ [none])).length = q.pos + 1 := by
    rw [tokenBits_append, List.length_append, hq.pos]
    show (tokenBits c.tokens).length + 1 = 0 + (tokenBits c.tokens).length + 1
    rw [Nat.zero_add]
  rw [hpos]
  exact parseNode_tooMany hq.rest (hq.nint.trans ((Nat.zero_add _).trans hn))

/-- A descriptor that is cut short (R202). -/
theorem parseDescriptor_cut {t : HTree} (hd : t.syms.Nodup) {k : Nat} (h1 : 1 ≤ k) (hk : k < t.descriptor.length) :
    parseDescriptor (t.descriptor.take k) = .error ⟨.descTruncated, k⟩ := by
  obtain ⟨k, rfl⟩ := Nat.exists_eq_add_of_le' h1
  have hle := length_le_of_nodup hd
  have hlen := length_packBits_padBits t.bits
  rw [t.length_descriptor] at hk
  have harea : ((packBits (padBits t.bits)).take k).length = k := by rw [List.length_take]; omega
  have hpre : unpackBits ((packBits (padBits t.bits)).take k) <+: unpackBits (packBits (padBits t.bits)) :=
    (List.take_prefix _ _).flatMap _
  rw [unpackBits_packBits_padBits] at hpre
  have hbits : unpackBits ((packBits (padBits t.bits)).take k) <+: t.bits :=
    List.prefix_of_prefix_length_le hpre (List.prefix_append _ _) (by rw [length_unpackBits, harea]; omega)
  obtain ⟨c, part, hcut, hpart, hsub, hcount⟩ :=
    HTree.exists_path_of_cut hbits (by rw [length_unpackBits, harea]; omega)
  have := parseDescriptor_short hcut hpart (hd.sublist hsub) (by omega)
  rwa [List.length_cons, harea] at this

/-- PARSE of the tree in an area that begins with its bits (R202). -/
theorem parseNode_area {t : HTree} (hd : t.syms.Nodup) {area : List Byte} {tail : BitString}
    (h : unpackBits area = t.bits ++ tail) :
    parseNode (1#8 :: area).length parseFuel 0 (.start (unpackBits area)) =
      .ok (0, (Parse.start (unpackBits area)).afterTree tail 0 t) := by
  have hle := length_le_of_nodup hd
  have hdepth := t.depth_lt
  refine parseNode_tree t h ?_ ((Nat.zero_add _).trans_le hle) hd fun s _ => BitVec.getLsbD_zero
  rw [parseFuel]
  omega

/-- The pad bits are those between the tree's bits and the end of its last byte (R205). -/
theorem drop_take_tail {bits pad tail : BitString} (hpad : pad.length = padLen bits.length) :
    ((bits ++ pad ++ tail).take (8 * ((bits.length + 7) / 8))).drop bits.length = pad := by
  have hlen : 8 * ((bits.length + 7) / 8) = (bits ++ pad).length := by
    rw [List.length_append, hpad, padLen]
    omega
  rw [hlen, List.take_left, List.drop_left]

section
variable {a : Nat} {bits pad tail : BitString} {p : Parse} (hp : p.pos = bits.length)
  (hlen : pad.length = padLen bits.length)
include hp hlen

theorem checkTail_pad (hpad : pad.any id = true) :
    checkTail a (bits ++ pad ++ tail) p = .error ⟨.descPadNonzero, (bits.length + 7) / 8⟩ := by
  simp only [checkTail, hp, drop_take_tail hlen, hpad, if_true]

theorem checkTail_trailing (hpad : pad.any id = false) (ha : a > 1 + (bits.length + 7) / 8) :
    checkTail a (bits ++ pad ++ tail) p = .error ⟨.descTrailing, 1 + (bits.length + 7) / 8⟩ := by
  simp only [checkTail, hp, drop_take_tail hlen, hpad, if_pos ha, Bool.false_eq_true, if_false]

end

/-- A tree whose pad bits are not all zeros (R205). -/
theorem parseDescriptor_pad {t : HTree} (hd : t.syms.Nodup) {pad : BitString} (more : List Byte)
    (hlen : pad.length = padLen t.bits.length) (hpad : true ∈ pad) :
    parseDescriptor (1#8 :: (packBits (t.bits ++ pad) ++ more)) =
      .error ⟨.descPadNonzero, (t.bits.length + 7) / 8⟩ := by
  have hwhole : (t.bits ++ pad).length % 8 = 0 := by
    rw [List.length_append, hlen, padLen]
    omega
  have hbits : unpackBits (packBits (t.bits ++ pad) ++ more) = t.bits ++ pad ++ unpackBits more := by
    rw [unpackBits_append, unpackBits_packBits _ hwhole]
  refine parseDescriptor_tailError (parseNode_area hd (hbits.trans (List.append_assoc _ _ _))) ?_
  rw [hbits]
  exact checkTail_pad (Nat.zero_add _) hlen (List.any_eq_true.mpr ⟨true, hpad, rfl⟩)

/-- Bytes after a whole tree (R205). -/
theorem parseDescriptor_trailing {t : HTree} (hd : t.syms.Nodup) {more : List Byte} (hmore : more ≠ []) :
    parseDescriptor (t.descriptor ++ more) = .error ⟨.descTrailing, t.descriptor.length⟩ := by
  have hbits : unpackBits (packBits (padBits t.bits) ++ more) =
      t.bits ++ List.replicate (padLen t.bits.length) false ++ unpackBits more := by
    rw [unpackBits_append, unpackBits_packBits_padBits, padBits]
  have hpos := List.length_pos_iff.mpr hmore
  rw [t.length_descriptor, HTree.descriptor, List.cons_append]
  refine parseDescriptor_tailError (parseNode_area hd (hbits.trans (List.append_assoc _ _ _))) ?_
  rw [hbits]
  refine checkTail_trailing (Nat.zero_add _) List.length_replicate (by simp) ?_
  rw [List.length_cons, List.length_append, length_packBits_padBits]
  omega

/-- Settles O26: unfinished nodes lead to a place in a tree, up to which PARSE reads them and where it finds the damage;
a whole tree is read, and then its tail is checked. -/
theorem descriptorDamageFound : Obligations.DescriptorDamageFound := by
  refine ⟨fun t hd => ⟨fun k => parseDescriptor_cut hd, fun _ more => parseDescriptor_pad hd more, fun _ =>
    parseDescriptor_trailing hd⟩, fun ts area hts hd hn => ?_, fun s e hs hp he => ?_⟩
  · obtain ⟨c, rfl⟩ := hts.exists_path
    refine ⟨fun part hpart hbits => ?_, fun s hs hpre => parseDescriptor_duplicate hs hpre hd hn, fun h255 hpre =>
      parseDescriptor_tooMany hpre hd h255⟩
    rw [parseDescriptor_short hbits hpart hd hn, List.length_cons, Nat.add_comm]
  · obtain ⟨t, ht, hf, -, hm⟩ := exec_hdec_parseError hs hp rfl he
    exact ⟨t, ht, hf, hm⟩

end Sys2Proof.Machine
end

section
/-! LENC's completions (R240 to R250): SCAN with the checks of R244 and R245 is SCAN without them, up to the first
check that fails. -/

namespace Sys2Proof.Machine

/-! ## SCAN without the checks, byte by byte -/

/-- SCAN before the first byte (R241). -/
def Scan.start : Scan := { dict := seedDict, cand := [], codes := [] }

/-- A byte that extends the candidate to an entry (R242). -/
def Scan.extend (s : Scan) (b : Byte) : Scan := { s with cand := s.cand ++ [b] }

/-- A byte at which SCAN emits the candidate's code and inserts an entry (R242). -/
def Scan.insert (s : Scan) (b : Byte) : Scan :=
  { dict := s.dict ++ [s.cand ++ [b]], cand := [b], codes := s.codes ++ [codeOfString s.dict s.cand] }

@[simp] theorem Scan.start_codes : Scan.start.codes = [] := rfl
@[simp] theorem Scan.length_start_dict : Scan.start.dict.length = 256 := length_seedDict

@[simp] theorem Scan.length_insert_dict (s : Scan) (b : Byte) : (s.insert b).dict.length = s.dict.length + 1 :=
  List.length_append

@[simp] theorem Scan.length_insert_codes (s : Scan) (b : Byte) : (s.insert b).codes.length = s.codes.length + 1 :=
  List.length_append

section
variable {b : Byte} {s : Scan}

theorem lzwScan_extend (bs : List Byte) (h : s.cand ++ [b] ∈ s.dict) :
    lzwScan (b :: bs) s = lzwScan bs (s.extend b) := if_pos h

theorem lzwScan_insert (bs : List Byte) (h : s.cand ++ [b] ∉ s.dict) :
    lzwScan (b :: bs) s = lzwScan bs (s.insert b) := if_neg h

end

theorem lzwScan_append (cs : List Byte) : ∀ (bs : List Byte) (s : Scan), lzwScan (bs ++ cs) s = lzwScan cs (lzwScan bs s)
  | [], _ => rfl
  | b :: bs, s => by
    by_cases h : s.cand ++ [b] ∈ s.dict
    · rw [List.cons_append, lzwScan_extend _ h, lzwScan_extend _ h, lzwScan_append cs bs]
    · rw [List.cons_append, lzwScan_insert _ h, lzwScan_insert _ h, lzwScan_append cs bs]

theorem length_codes_le_lzwScan : ∀ (bs : List Byte) (s : Scan), s.codes.length ≤ (lzwScan bs s).codes.length
  | [], _ => le_refl _
  | b :: bs, s => by
    by_cases h : s.cand ++ [b] ∈ s.dict
    · rw [lzwScan_extend _ h]
      exact length_codes_le_lzwScan bs (s.extend b)
    · rw [lzwScan_insert _ h]
      have := length_codes_le_lzwScan bs (s.insert b)
      rw [Scan.length_insert_codes] at this
      omega

/-- Every emit of SCAN comes with an insert (R242). -/
theorem length_dict_lzwScan : ∀ (bs : List Byte) (s : Scan),
    (lzwScan bs s).dict.length + s.codes.length = s.dict.length + (lzwScan bs s).codes.length
  | [], _ => rfl
  | b :: bs, s => by
    by_cases h : s.cand ++ [b] ∈ s.dict
    · rw [lzwScan_extend _ h]
      exact length_dict_lzwScan bs (s.extend b)
    · rw [lzwScan_insert _ h]
      have := length_dict_lzwScan bs (s.insert b)
      rw [Scan.length_insert_codes, Scan.length_insert_dict] at this
      omega

theorem length_dict_scanned (x : List Byte) :
    (lzwScan x .start).dict.length = 256 + (lzwScan x .start).codes.length := by
  simpa using length_dict_lzwScan x .start

/-- A scan that emits more than `n` codes makes the emit after the first `n` at some byte. -/
theorem exists_insert {n : Nat} : ∀ {bs : List Byte} {s : Scan}, s.codes.length ≤ n →
    n < (lzwScan bs s).codes.length → ∃ pre b post, bs = pre ++ b :: post ∧
      (lzwScan pre s).codes.length = n ∧ (lzwScan pre s).cand ++ [b] ∉ (lzwScan pre s).dict
  | [], _, hs, hn => absurd hn hs.not_gt
  | b :: bs, s, hs, hn => by
    by_cases h : s.cand ++ [b] ∈ s.dict
    · rw [lzwScan_extend _ h] at hn
      obtain ⟨pre, c, post, rfl, hlen, hnew⟩ := exists_insert (s := s.extend b) hs hn
      refine ⟨b :: pre, c, post, rfl, ?_⟩
      rw [lzwScan_extend _ h]
      exact ⟨hlen, hnew⟩
    · obtain hs | hs := hs.eq_or_lt
      · exact ⟨[], b, bs, rfl, hs, h⟩
      · rw [lzwScan_insert _ h] at hn
        obtain ⟨pre, c, post, rfl, hlen, hnew⟩ :=
          exists_insert (s := s.insert b) ((s.length_insert_codes b).trans_le hs) hn
        refine ⟨b :: pre, c, post, rfl, ?_⟩
        rw [lzwScan_insert _ h]
        exact ⟨hlen, hnew⟩

/-! ## The codes and the inserts of an input -/

theorem lzwInserts_eq (x : List Byte) : lzwInserts x = (lzwScan x .start).codes.length := by
  have hdict := length_dict_scanned x
  show (lzwScan x .start).dict.length - 256 = _
  omega

/-- After a byte of input SCAN has a candidate (R242). -/
theorem cand_lzwScan_ne_nil {x : List Byte} (hx : x ≠ []) : (lzwScan x .start).cand ≠ [] := by
  obtain ⟨b, bs, rfl⟩ := List.exists_cons_of_ne_nil hx
  exact (scanning_lzwScan b bs).nonempty

theorem lzwCodes_of_ne_nil {x : List Byte} (hx : x ≠ []) : lzwCodes x =
    (lzwScan x .start).codes ++ [codeOfString (lzwScan x .start).dict (lzwScan x .start).cand] :=
  if_neg (cand_lzwScan_ne_nil hx)

theorem length_lzwCodes_of_ne_nil {x : List Byte} (hx : x ≠ []) :
    (lzwCodes x).length = (lzwScan x .start).codes.length + 1 := by
  rw [lzwCodes_of_ne_nil hx, List.length_append, List.length_singleton]

theorem ne_nil_of_lt_length_lzwCodes {x : List Byte} {n : Nat} (h : n < (lzwCodes x).length) : x ≠ [] := by
  rintro rfl
  exact Nat.not_lt_zero n h

/-! ## SCAN with the checks -/

section
variable {dictCap cap i : Nat} {b : Byte} {s : Scan}

theorem scanByte_extend (h : s.cand ++ [b] ∈ s.dict) : scanByte dictCap cap i b s = .ok (s.extend b) := if_pos h

theorem scanByte_insert (h : s.cand ++ [b] ∉ s.dict) (hc : 4 * s.codes.length + 4 ≤ cap)
    (hd : s.dict.length ≠ dictCap) : scanByte dictCap cap i b s = .ok (s.insert b) := by
  rw [scanByte, if_neg h, emitCheck_ok (u := ()).mpr hc]
  exact if_neg hd

theorem scanByte_dstFull (h : s.cand ++ [b] ∉ s.dict) (hc : cap < 4 * s.codes.length + 4) :
    scanByte dictCap cap i b s = .error ⟨.dstFull, 4 * s.codes.length⟩ := by
  rw [scanByte, if_neg h, emitCheck_error.mpr ⟨hc, rfl⟩]

theorem scanByte_dictFull (h : s.cand ++ [b] ∉ s.dict) (hc : 4 * s.codes.length + 4 ≤ cap)
    (hd : s.dict.length = dictCap) : scanByte dictCap cap i b s = .error ⟨.dictFull, i⟩ := by
  rw [scanByte, if_neg h, emitCheck_ok (u := ()).mpr hc]
  exact if_pos hd

theorem scanBytes_next {u : Scan} (bs : List Byte) (h : scanByte dictCap cap i b s = .ok u) :
    scanBytes dictCap cap i (b :: bs) s = scanBytes dictCap cap (i + 1) bs u := by
  rw [scanBytes, h]

theorem scanBytes_stop {e : Raise} (bs : List Byte) (h : scanByte dictCap cap i b s = .error e) :
    scanBytes dictCap cap i (b :: bs) s = .error e := by
  rw [scanBytes, h]

end

section
variable {dictCap cap : Nat}

theorem scanBytes_append (cs : List Byte) : ∀ {bs : List Byte} {i : Nat} {s t : Scan},
    scanBytes dictCap cap i bs s = .ok t →
    scanBytes dictCap cap i (bs ++ cs) s = scanBytes dictCap cap (i + bs.length) cs t
  | [], _, _, _, h => by cases h; rfl
  | b :: bs, i, s, t, h => by
    cases hu : scanByte dictCap cap i b s with
    | error e => rw [scanBytes_stop bs hu] at h; cases h
    | ok u =>
      rw [scanBytes_next bs hu] at h
      rw [List.cons_append, scanBytes_next _ hu, scanBytes_append cs h, List.length_cons, Nat.add_assoc,
        Nat.add_comm 1]

/-- A scan whose codes fit DST and whose entries fit the cap passes every check (R244, R245). -/
theorem scanBytes_eq_lzwScan : ∀ {bs : List Byte} {i : Nat} {s : Scan}, 4 * (lzwScan bs s).codes.length ≤ cap →
    (lzwScan bs s).dict.length ≤ dictCap → scanBytes dictCap cap i bs s = .ok (lzwScan bs s)
  | [], _, _, _, _ => rfl
  | b :: bs, i, s, hc, hd => by
    by_cases h : s.cand ++ [b] ∈ s.dict
    · rw [lzwScan_extend _ h] at hc hd ⊢
      rw [scanBytes_next bs (scanByte_extend h), scanBytes_eq_lzwScan hc hd]
    · rw [lzwScan_insert _ h] at hc hd ⊢
      have hcodes := length_codes_le_lzwScan bs (s.insert b)
      have hdict := length_dict_lzwScan bs (s.insert b)
      rw [Scan.length_insert_codes] at hcodes hdict
      rw [Scan.length_insert_dict] at hdict
      rw [scanBytes_next bs (scanByte_insert h (by omega) (by omega)), scanBytes_eq_lzwScan hc hd]

/-- After a beginning of the input that passes every check, the next byte decides. -/
theorem scanBytes_stops {pre post : List Byte} {b : Byte} {e : Raise}
    (hc : 4 * (lzwScan pre .start).codes.length ≤ cap) (hd : (lzwScan pre .start).dict.length ≤ dictCap)
    (h : scanByte dictCap cap pre.length b (lzwScan pre .start) = .error e) :
    scanBytes dictCap cap 0 (pre ++ b :: post) .start = .error e := by
  rw [scanBytes_append _ (scanBytes_eq_lzwScan hc hd), Nat.zero_add, scanBytes_stop post h]

/-- SCAN without room for one of its codes stops there, when the cap holds the entries before (R244). -/
theorem scanBytes_dstFull {x : List Byte} (h : cap / 4 < (lzwScan x .start).codes.length)
    (hcap : cap / 4 ≤ dictCap - 256) (h256 : 256 ≤ dictCap) :
    scanBytes dictCap cap 0 x .start = .error ⟨.dstFull, 4 * (cap / 4)⟩ := by
  obtain ⟨pre, b, post, rfl, hlen, hnew⟩ := exists_insert (Nat.zero_le _) h
  have hdict := length_dict_scanned pre
  refine scanBytes_stops (by omega) (by omega) ?_
  rw [← hlen]
  exact scanByte_dstFull hnew (by omega)

/-- SCAN without room for one of its entries stops at the byte that makes it, when DST holds its code (R245). -/
theorem scanBytes_dictFull {x : List Byte} (h : dictCap - 256 < (lzwScan x .start).codes.length)
    (hcap : dictCap - 256 < cap / 4) (h256 : 256 ≤ dictCap) : ∃ i < x.length,
      scanBytes dictCap cap 0 x .start = .error ⟨.dictFull, i⟩ ∧ lzwInserts (x.take i) = dictCap - 256 ∧
        lzwInserts (x.take (i + 1)) = dictCap - 256 + 1 := by
  obtain ⟨pre, b, post, rfl, hlen, hnew⟩ := exists_insert (Nat.zero_le _) h
  have hdict := length_dict_scanned pre
  have htake : (pre ++ b :: post).take (pre.length + 1) = pre ++ [b] := by simp [List.take_append]
  refine ⟨pre.length, by simp, ?_, ?_, ?_⟩
  · exact scanBytes_stops (by omega) (by omega) (scanByte_dictFull hnew (by omega) (by omega))
  · rw [List.take_left, lzwInserts_eq, hlen]
  · rw [htake, lzwInserts_eq, lzwScan_append, lzwScan_insert [] hnew, lzwScan, Scan.length_insert_codes, hlen]

end

/-! ## The outcome of LENC -/

theorem dictCap_ge (p : Params) : 256 ≤ p.dictCap := Nat.le_add_left _ _

section
variable {p : Params} {o : Operands} {x : List Byte}

theorem lencVerdict_scanError {e : Raise} (h : scanBytes p.dictCap o.dst.len 0 x .start = .error e) :
    lencVerdict p o x = .fail .afterWrite e.cause e.offset := by
  rw [lencVerdict, show Scan.mk seedDict [] [] = .start from rfl, h]

theorem lencVerdict_scanned (hc : 4 * (lzwScan x .start).codes.length ≤ o.dst.len)
    (hd : (lzwScan x .start).dict.length ≤ p.dictCap) :
    lencVerdict p o x = lencFlushVerdict o (lzwScan x .start) := by
  rw [lencVerdict, show Scan.mk seedDict [] [] = .start from rfl, scanBytes_eq_lzwScan hc hd]

/-- FLUSH emits the last code of the input (R243). -/
theorem lencFlushVerdict_emit (hx : x ≠ []) (hc : 4 * (lzwCodes x).length ≤ o.dst.len) :
    lencFlushVerdict o (lzwScan x .start) =
      ⟨.success (lencResults (lzwCodes x).length (lzwDictSize (lzwCodes x).length)), streamBytes (lzwCodes x), []⟩ := by
  have hk := length_lzwCodes_of_ne_nil hx
  rw [lencFlushVerdict, if_neg (cand_lzwScan_ne_nil hx), emitCheck_ok (u := ()).mpr (by omega), hk,
    length_dict_scanned, lzwCodes_of_ne_nil hx]
  rfl

/-- FLUSH without room for the last code (R244). -/
theorem lencFlushVerdict_dstFull (hx : x ≠ []) (hc : o.dst.len < 4 * (lzwScan x .start).codes.length + 4) :
    lencFlushVerdict o (lzwScan x .start) = .fail .afterWrite .dstFull (4 * (lzwScan x .start).codes.length) := by
  rw [lencFlushVerdict, if_neg (cand_lzwScan_ne_nil hx), emitCheck_error.mpr ⟨hc, rfl⟩]

theorem lencVerdict_nil (p : Params) (o : Operands) :
    lencVerdict p o [] = ⟨.success (lencResults 0 256), [], []⟩ := by
  rw [← length_seedDict]
  rfl

/-- Codes that fit DST, with entries that fit the cap (R242, R243, R246). -/
theorem lencVerdict_success (hc : 4 * (lzwCodes x).length ≤ o.dst.len)
    (hd : lzwDictSize (lzwCodes x).length ≤ p.dictCap) : lencVerdict p o x =
      ⟨.success (lencResults (lzwCodes x).length (lzwDictSize (lzwCodes x).length)), streamBytes (lzwCodes x), []⟩ := by
  obtain rfl | hx := eq_or_ne x []
  · exact lencVerdict_nil p o
  · have hk := length_lzwCodes_of_ne_nil hx
    have hdict := length_dict_scanned x
    rw [lzwDictSize] at hd
    rw [lencVerdict_scanned (by omega) (by omega), lencFlushVerdict_emit hx hc]

/-- A code that does not fit DST, in SCAN or in FLUSH (R244). -/
theorem lencVerdict_dstFull (h : o.dst.len / 4 < (lzwCodes x).length) (hcap : o.dst.len / 4 ≤ p.dictCap - 256) :
    lencVerdict p o x = .fail .afterWrite .dstFull (4 * (o.dst.len / 4)) := by
  have hx := ne_nil_of_lt_length_lzwCodes h
  have h256 := dictCap_ge p
  have hdict := length_dict_scanned x
  rw [length_lzwCodes_of_ne_nil hx] at h
  obtain hlast | hscan := (Nat.lt_succ_iff.mp h).eq_or_lt
  · rw [lencVerdict_scanned (by omega) (by omega), lencFlushVerdict_dstFull hx (by omega), hlast]
  · exact lencVerdict_scanError (scanBytes_dstFull hscan hcap h256)

/-- An entry that does not fit the cap (R245). -/
theorem lencVerdict_dictFull (h : p.dictCap - 256 + 1 < (lzwCodes x).length) (hcap : p.dictCap - 256 < o.dst.len / 4) :
    ∃ i < x.length, lencVerdict p o x = .fail .afterWrite .dictFull i ∧ lzwInserts (x.take i) = p.dictCap - 256 ∧
      lzwInserts (x.take (i + 1)) = p.dictCap - 256 + 1 := by
  rw [length_lzwCodes_of_ne_nil (ne_nil_of_lt_length_lzwCodes h)] at h
  obtain ⟨i, hi, hscan, hbefore, hafter⟩ := scanBytes_dictFull (Nat.lt_of_succ_lt_succ h) hcap (dictCap_ge p)
  exact ⟨i, hi, lencVerdict_scanError hscan, hbefore, hafter⟩

end

/-! ## LENC's completions -/

/-- A success that writes to DST alone: its bytes stand there, and nothing else differs (R138, R145). -/
theorem exec_dstSuccess {i : Instr} {s : State} {r : Results} {out : List Byte} (hs : s.ready)
    (hv : s.verdict i = ⟨.success r, out, []⟩) :
    ∃ t, exec i s = .next t ∧ Succeeded r.resLen r.resAuxLen r.info r.dictSize s t ∧
      t.regionBytes ⟨s.operands.dst.base, out.length⟩ = out ∧
      SameOutside [⟨s.operands.dst.base, out.length⟩] s t := by
  obtain ⟨t, ht, hsucc, hmem⟩ := exec_success hs (congrArg Verdict.ending hv)
  rw [hv] at hmem
  refine ⟨t, ht, hsucc, ?_, fun a hout => ?_⟩
  · rw [State.regionBytes, hmem]
    exact Verdict.dst_writeTo ⟨.success r, out, []⟩ _ _
  · simp only [List.any_cons, List.any_nil, Bool.or_false] at hout
    rw [State.byteAt, hmem]
    refine Verdict.byteAt_writeTo ⟨.success r, out, []⟩ _ _ hout ?_
    rw [Region.has_eq_false_iff]
    exact Nat.lt_or_ge _ _

/-- Settles O35: an empty input leaves no candidate to emit. -/
theorem lencEmptyInput : Obligations.LencEmptyInput := by
  intro s hs hp hl
  have hx : s.regionBytes s.operands.src = [] := List.length_eq_zero_iff.mp ((s.regionBytes_length _).trans hl)
  have hv : s.verdict .lenc = ⟨.success (lencResults 0 256), [], []⟩ := by
    rw [verdict_of_regionsPass hp, hx]
    exact lencVerdict_nil s.params _
  obtain ⟨t, ht, hsucc, hmem⟩ := exec_success hs (congrArg Verdict.ending hv)
  rw [hv] at hmem
  exact ⟨t, ht, hsucc, hmem⟩

/-- Settles O33: no check of SCAN or FLUSH fails, and the stream is all that is written. -/
theorem lencCompletes : Obligations.LencCompletes := by
  intro s hs hp x k hc hd
  have hlen : (streamBytes (lzwCodes x)).length = 4 * k := length_streamBytes _
  have hv := (verdict_of_regionsPass hp).trans (lencVerdict_success hc hd)
  rw [← hlen]
  obtain ⟨t, ht, hsucc, hout, hsame⟩ := exec_dstSuccess hs hv
  exact ⟨t, ht, hlen ▸ hsucc, hout, hsame⟩

/-- Settles O34: the two limits pick out an emit of SCAN, or the emit of FLUSH. -/
theorem lencLimits : Obligations.LencLimits := by
  intro s hs hp x k words inserts
  refine ⟨fun hk hw => ?_, fun hk hw => ?_⟩
  · have hfit : 4 * words < 2 ^ 32 := (Nat.mul_div_le _ 4).trans_lt s.operands.dstLen.isLt
    exact exec_fail_outputs hs ((verdict_of_regionsPass hp).trans (lencVerdict_dstFull hk hw)) hfit
  · obtain ⟨i, hi, hv, hbefore, hafter⟩ := lencVerdict_dictFull hk hw
    rw [State.regionBytes_length] at hi
    obtain ⟨t, ht, hfailed, hsame⟩ := exec_fail_outputs hs ((verdict_of_regionsPass hp).trans hv)
      (hi.trans s.operands.srcLen.isLt)
    exact ⟨t, i, ht, hi, hbefore, hafter, hfailed, hsame⟩

end Sys2Proof.Machine
end

section
/-! LZW streams and the strings they stand for (R273 to R275): which streams LDEC can decode, and that the codes of an
input stand for it (R281). -/

namespace Sys2Proof.Machine

/-! ## The strings of the codes -/

/-- The decoder without capacity and cap takes a code's string from where LOOP takes it (R274, R275). -/
theorem stringOfCode_eq (dict : List (List Byte)) (prev : List Byte) (k : Nat) :
    stringOfCode dict prev k = if k = dict.length then some (prev ++ prev.take 1) else dict[k]? := by
  rcases Nat.lt_trichotomy k dict.length with h | rfl | h
  · rw [stringOfCode_lt h, if_neg h.ne, List.getElem?_eq_getElem h]
  · rw [stringOfCode_next, if_pos rfl]
  · rw [stringOfCode_gt h, if_neg h.ne', List.getElem?_eq_none h.le]

theorem stringOfCode_isSome {dict : List (List Byte)} {prev : List Byte} {k : Nat} :
    (stringOfCode dict prev k).isSome = true ↔ k ≤ dict.length := by
  rcases Nat.lt_trichotomy k dict.length with h | rfl | h
  · simp [stringOfCode_lt h, h.le]
  · simp [stringOfCode_next]
  · simp [stringOfCode_gt h, h]

/-- A code after the first: its string, and then those of the codes behind it. -/
theorem lzwDecodeFrom_cons (k : Nat) (ks : List Nat) (dict : List (List Byte)) (prev : List Byte) :
    lzwDecodeFrom (k :: ks) dict prev =
      (stringOfCode dict prev k).bind fun e => (lzwDecodeFrom ks (dict ++ [prev ++ e.take 1]) e).map (e ++ ·) := by
  rw [lzwDecodeFrom, ← stringOfCode_eq]
  cases stringOfCode dict prev k <;> rfl

theorem lzwDecodeFrom_cons_eq_some {k : Nat} {ks : List Nat} {dict : List (List Byte)} {prev y : List Byte} :
    lzwDecodeFrom (k :: ks) dict prev = some y ↔ ∃ e z, stringOfCode dict prev k = some e ∧
      lzwDecodeFrom ks (dict ++ [prev ++ e.take 1]) e = some z ∧ e ++ z = y := by
  simp [lzwDecodeFrom_cons, Option.bind_eq_some_iff]

theorem lzwDecode_cons_eq_some {k : Nat} {ks : List Nat} {y : List Byte} :
    lzwDecode (k :: ks) = some y ↔ k < 256 ∧ ∃ z, lzwDecodeFrom ks seedDict [BitVec.ofNat 8 k] = some z ∧
      BitVec.ofNat 8 k :: z = y := by
  by_cases hk : k < 256 <;> simp [lzwDecode, hk]

/-! ## Which streams have bytes -/

/-- Codes after the first have strings exactly when each is at most NEXT, which grows by one with each of them. -/
theorem lzwDecodeFrom_isSome : ∀ {ks : List Nat} {dict : List (List Byte)} {prev : List Byte},
    (lzwDecodeFrom ks dict prev).isSome = true ↔ ∀ i c, ks[i]? = some c → c ≤ dict.length + i
  | [], _, _ => by simp [lzwDecodeFrom]
  | k :: ks, dict, prev => by
    constructor
    · intro h i c hc
      obtain ⟨y, hy⟩ := Option.isSome_iff_exists.mp h
      obtain ⟨e, z, he, hz, -⟩ := lzwDecodeFrom_cons_eq_some.mp hy
      cases i with
      | zero =>
        cases hc
        exact stringOfCode_isSome.mp (Option.isSome_of_eq_some he)
      | succ i =>
        have := lzwDecodeFrom_isSome.mp (Option.isSome_of_eq_some hz) i c hc
        rw [List.length_append, List.length_singleton] at this
        omega
    · intro h
      obtain ⟨e, he⟩ := Option.isSome_iff_exists.mp (stringOfCode_isSome (prev := prev).mpr (h 0 k rfl))
      have hks : (lzwDecodeFrom ks (dict ++ [prev ++ e.take 1]) e).isSome = true :=
        lzwDecodeFrom_isSome.mpr fun i c hc => by
          have := h (i + 1) c hc
          rw [List.length_append, List.length_singleton]
          omega
      obtain ⟨z, hz⟩ := Option.isSome_iff_exists.mp hks
      exact Option.isSome_of_eq_some (lzwDecodeFrom_cons_eq_some.mpr ⟨e, z, he, hz, rfl⟩)

/-- The streams that stand for bytes (R273 to R275, R284). -/
theorem lzwDecode_isSome (codes : List Nat) : (lzwDecode codes).isSome = true ↔
    ∀ i c, codes[i]? = some c → c < 256 + i ∧ (i = 0 → c < 256) := by
  cases codes with
  | nil => simp [lzwDecode]
  | cons k ks =>
    by_cases hk : k < 256
    · have hdec : (lzwDecode (k :: ks)).isSome = (lzwDecodeFrom ks seedDict [BitVec.ofNat 8 k]).isSome := by
        rw [lzwDecode, if_pos hk, Option.isSome_map]
      rw [hdec, lzwDecodeFrom_isSome, length_seedDict]
      constructor
      · rintro h (_ | i) c hc
        · cases hc
          exact ⟨hk, fun _ => hk⟩
        · exact ⟨Nat.lt_succ_of_le (h i c hc), nofun⟩
      · exact fun h i c hc => Nat.le_of_lt_succ (h (i + 1) c hc).1
    · rw [lzwDecode, if_neg hk]
      exact ⟨nofun, fun h => absurd ((h 0 k rfl).2 rfl) hk⟩

/-- Code NEXT right after the first code stands for the first byte twice (R275). -/
theorem lzwDecode_kwkwk (b : Byte) : lzwDecode [b.toNat, 256] = some [b, b, b] := by
  have hnext : stringOfCode seedDict [b] 256 = some [b, b] := length_seedDict ▸ stringOfCode_next
  refine lzwDecode_cons_eq_some.mpr ⟨b.isLt, [b, b], ?_, ?_⟩
  · rw [BitVec.ofNat_toNat, BitVec.setWidth_eq]
    exact lzwDecodeFrom_cons_eq_some.mpr ⟨_, [], hnext, rfl, List.append_nil _⟩
  · rw [BitVec.ofNat_toNat, BitVec.setWidth_eq]

/-! ## The codes of an input stand for it -/

/-- The codes of SCAN and the code of its last candidate (R243). -/
def Scan.flush (s : Scan) : List Nat := s.codes ++ [codeOfString s.dict s.cand]

/-- `dict` and `prev` are what LDEC has when SCAN has emitted the codes before its candidate: SCAN is one entry ahead,
prev and the first byte of the candidate. -/
structure Scan.Ahead (s : Scan) (dict : List (List Byte)) (prev : List Byte) : Prop where
  dict_eq : s.dict = dict ++ [prev ++ s.cand.take 1]
  seeded : seedDict ⊆ s.dict
  cand_mem : s.cand ∈ s.dict
  cand_ne_nil : s.cand ≠ []
  prev_ne_nil : prev ≠ []

section
variable {s : Scan} {dict : List (List Byte)} {prev : List Byte}

/-- LDEC finds the candidate at its code: as an entry, or as the entry that it lacks yet, which begins with prev and ends
with prev's first byte (KwKwK, R275). -/
theorem Scan.Ahead.stringOfCode_cand (h : s.Ahead dict prev) :
    stringOfCode dict prev (codeOfString s.dict s.cand) = some s.cand := by
  by_cases hm : s.cand ∈ dict
  · have hcode : codeOfString s.dict s.cand = dict.idxOf s.cand := by
      rw [codeOfString, h.dict_eq, List.idxOf_append_of_mem hm]
    rw [hcode, stringOfCode_lt (List.idxOf_lt_length_iff.mpr hm), List.getElem_idxOf]
  · have hnew : s.cand = prev ++ s.cand.take 1 := by
      have hcand := h.cand_mem
      rw [h.dict_eq, List.mem_append, List.mem_singleton] at hcand
      exact hcand.resolve_left hm
    have hcode : codeOfString s.dict s.cand = dict.length := by
      rw [codeOfString, h.dict_eq, List.idxOf_append_of_notMem hm, ← hnew, List.idxOf_cons_self, Nat.add_zero]
    have hfirst : s.cand.take 1 = prev.take 1 := by
      rw [hnew, List.take_append_of_le_length (List.length_pos_iff.mpr h.prev_ne_nil)]
    rw [hcode, stringOfCode_next, ← hfirst, ← hnew]

theorem Scan.Ahead.extend {b : Byte} (h : s.Ahead dict prev) (hb : s.cand ++ [b] ∈ s.dict) :
    (s.extend b).Ahead dict prev where
  dict_eq := by
    show s.dict = dict ++ [prev ++ (s.cand ++ [b]).take 1]
    rw [List.take_append_of_le_length (List.length_pos_iff.mpr h.cand_ne_nil)]
    exact h.dict_eq
  seeded := h.seeded
  cand_mem := hb
  cand_ne_nil := by simp [Scan.extend]
  prev_ne_nil := h.prev_ne_nil

/-- A scan that inserts an entry is ahead by that entry: LDEC makes it from the next code. -/
theorem Scan.ahead_insert (b : Byte) (hs : seedDict ⊆ s.dict) (hc : s.cand ≠ []) :
    (s.insert b).Ahead s.dict s.cand where
  dict_eq := rfl
  seeded _ hw := List.mem_append_left _ (hs hw)
  cand_mem := List.mem_append_left _ (hs (singleton_mem_seedDict b))
  cand_ne_nil := List.cons_ne_nil _ _
  prev_ne_nil := hc

end

/-- LDEC, one entry behind SCAN, makes the candidate and the bytes still to be scanned of the codes still to come. -/
theorem Scan.Ahead.decode : ∀ {bs : List Byte} {s : Scan} {dict : List (List Byte)} {prev : List Byte},
    s.Ahead dict prev → ∃ ks, (lzwScan bs s).flush = s.codes ++ ks ∧ lzwDecodeFrom ks dict prev = some (s.cand ++ bs)
  | [], s, dict, prev, h =>
    ⟨[codeOfString s.dict s.cand], rfl, lzwDecodeFrom_cons_eq_some.mpr ⟨_, [], h.stringOfCode_cand, rfl, rfl⟩⟩
  | b :: bs, s, dict, prev, h => by
    by_cases hb : s.cand ++ [b] ∈ s.dict
    · obtain ⟨ks, hflush, hks⟩ := (h.extend hb).decode (bs := bs)
      refine ⟨ks, (lzwScan_extend bs hb).symm ▸ hflush, hks.trans ?_⟩
      rw [Scan.extend, List.append_assoc, List.singleton_append]
    · obtain ⟨ks, hflush, hks⟩ := (s.ahead_insert b h.seeded h.cand_ne_nil).decode (bs := bs)
      refine ⟨codeOfString s.dict s.cand :: ks, ?_, ?_⟩
      · rw [lzwScan_insert bs hb, hflush, Scan.insert, List.append_assoc, List.singleton_append]
      · exact lzwDecodeFrom_cons_eq_some.mpr ⟨_, _, h.stringOfCode_cand, h.dict_eq ▸ hks, rfl⟩

/-- Entry c of the seed is the string of the one byte c (R241, R272). -/
theorem getElem?_seedDict {k : Nat} (hk : k < 256) : seedDict[k]? = some [BitVec.ofNat 8 k] := by
  rw [seedDict, List.getElem?_map, List.getElem?_range hk, Option.map_some]

theorem codeOfString_seedDict_lt (b : Byte) : codeOfString seedDict [b] < 256 :=
  length_seedDict ▸ codeOfString_lt (singleton_mem_seedDict b)

theorem ofNat_codeOfString_seedDict (b : Byte) : BitVec.ofNat 8 (codeOfString seedDict [b]) = b := by
  have hentry := getElem?_seedDict (codeOfString_seedDict_lt b)
  rw [codeOfString, List.getElem?_idxOf (singleton_mem_seedDict b)] at hentry
  injection hentry with hentry
  injection hentry with hentry
  exact hentry.symm

/-- No string of two bytes is seeded (R241). -/
theorem pair_notMem_seedDict (b c : Byte) : [b, c] ∉ seedDict := by simp [seedDict]

/-- The code of a byte comes first: LDEC goes on from the seed with that byte as prev (R273). -/
theorem lzwDecode_byte {b : Byte} {ks : List Nat} {y : List Byte} (h : lzwDecodeFrom ks seedDict [b] = some y) :
    lzwDecode (codeOfString seedDict [b] :: ks) = some (b :: y) := by
  rw [lzwDecode_cons_eq_some, ofNat_codeOfString_seedDict]
  exact ⟨codeOfString_seedDict_lt b, y, h, rfl⟩

/-- The first code of an input is that of its first byte, since no longer string is an entry yet. -/
theorem lzwDecode_lzwCodes : ∀ x : List Byte, lzwDecode (lzwCodes x) = some x
  | [] => rfl
  | b :: bs => by
    have hcodes : lzwCodes (b :: bs) = (lzwScan bs (Scan.start.extend b)).flush := by
      rw [lzwCodes_of_ne_nil (List.cons_ne_nil b bs), lzwScan_extend bs (by exact singleton_mem_seedDict b)]
      rfl
    rw [hcodes]
    cases bs with
    | nil => exact lzwDecode_byte rfl
    | cons c cs =>
      obtain ⟨ks, hflush, hks⟩ := (Scan.ahead_insert (s := Scan.start.extend b) c (List.Subset.refl _)
        (List.cons_ne_nil b [])).decode (bs := cs)
      rw [lzwScan_insert cs (s := Scan.start.extend b) (pair_notMem_seedDict b c), hflush]
      exact lzwDecode_byte hks

end Sys2Proof.Machine
end

section
/-! LDEC's LOOP on codes that have strings: it emits what the codes stand for, up to the first check that fails (R274 to
R277). -/

namespace Sys2Proof.Machine

/-- LOOP after the string `e` of a code (R274). -/
def Unscan.emit (s : Unscan) (e : List Byte) : Unscan :=
  { dict := s.dict ++ [s.prev ++ e.take 1], prev := e, pos := s.pos + e.length, out := s.out ++ e }

@[simp] theorem Unscan.length_emit_dict (s : Unscan) (e : List Byte) : (s.emit e).dict.length = s.dict.length + 1 :=
  List.length_append

@[simp] theorem Unscan.emit_pos (s : Unscan) (e : List Byte) : (s.emit e).pos = s.pos + e.length := rfl

/-! ## One code -/

section
variable {dictCap cap i k : Nat} {s : Unscan} {e : List Byte}

theorem unscanCode_undefined (h : stringOfCode s.dict s.prev k = none) :
    unscanCode dictCap cap i k s = .error ⟨.undefinedCode, 4 * i⟩ := by
  rw [unscanCode, h]

section
variable (h : stringOfCode s.dict s.prev k = some e) (hp : s.pos ≤ cap)
include h hp

theorem unscanCode_dstFull (hc : cap < s.pos + e.length) :
    unscanCode dictCap cap i k s = .error ⟨.dstFull, cap⟩ := by
  simp only [unscanCode, h, (emitString_error hp).mpr ⟨hc, rfl⟩]

theorem unscanCode_dictFull (hc : s.pos + e.length ≤ cap) (hd : s.dict.length = dictCap) :
    unscanCode dictCap cap i k s = .error ⟨.dictFull, 4 * i⟩ := by
  simp only [unscanCode, h, (emitString_ok hp).mpr ⟨hc, rfl⟩, if_pos hd]

theorem unscanCode_emit (hc : s.pos + e.length ≤ cap) (hd : s.dict.length ≠ dictCap) :
    unscanCode dictCap cap i k s = .ok (s.emit e) := by
  simp only [unscanCode, h, (emitString_ok hp).mpr ⟨hc, rfl⟩, if_neg hd]
  rfl

end

theorem unscanCodes_next {u : Unscan} (ks : List Nat) (h : unscanCode dictCap cap i k s = .ok u) :
    unscanCodes dictCap cap i (k :: ks) s = unscanCodes dictCap cap (i + 1) ks u := by
  rw [unscanCodes, h]

theorem unscanCodes_stop {r : Raise} (ks : List Nat) (h : unscanCode dictCap cap i k s = .error r) :
    unscanCodes dictCap cap i (k :: ks) s = .error r := by
  rw [unscanCodes, h]

end

/-! ## The codes in turn -/

section
variable {dictCap cap : Nat}

/-- Codes whose strings fit DST and whose entries fit the cap pass every check; what follows them is LOOP's from there
on. -/
theorem unscanCodes_decodes (rest : List Nat) : ∀ {ks : List Nat} {i : Nat} {s : Unscan} {y : List Byte},
    lzwDecodeFrom ks s.dict s.prev = some y → s.pos + y.length ≤ cap → s.dict.length + ks.length ≤ dictCap →
    ∃ t : Unscan, t.dict.length = s.dict.length + ks.length ∧ t.pos = s.pos + y.length ∧ t.out = s.out ++ y ∧
      unscanCodes dictCap cap i (ks ++ rest) s = unscanCodes dictCap cap (i + ks.length) rest t
  | [], _, s, _, h, _, _ => by
    cases h
    exact ⟨s, rfl, rfl, (List.append_nil _).symm, rfl⟩
  | k :: ks, i, s, _, h, hc, hd => by
    obtain ⟨e, z, he, hz, rfl⟩ := lzwDecodeFrom_cons_eq_some.mp h
    rw [List.length_append] at hc
    rw [List.length_cons] at hd
    obtain ⟨t, hdict, hpos, hout, hrun⟩ := unscanCodes_decodes rest (i := i + 1) (s := s.emit e) hz
      (by rw [Unscan.emit_pos]; omega) (by rw [Unscan.length_emit_dict]; omega)
    rw [Unscan.length_emit_dict] at hdict
    refine ⟨t, ?_, ?_, ?_, ?_⟩
    · rw [hdict, List.length_cons, Nat.add_assoc, Nat.add_comm 1]
    · rw [hpos, Unscan.emit_pos, List.length_append, Nat.add_assoc]
    · rw [hout, Unscan.emit, List.append_assoc]
    · rw [List.cons_append, unscanCodes_next _ (unscanCode_emit he (by omega) (by omega) (by omega)), hrun,
        List.length_cons, Nat.add_assoc, Nat.add_comm 1]

/-- Codes whose strings do not fit DST stop LOOP there, when the cap holds the entries of the codes before the last
(R277). -/
theorem unscanCodes_dstFull (rest : List Nat) : ∀ {ks : List Nat} {i : Nat} {s : Unscan} {y : List Byte},
    lzwDecodeFrom ks s.dict s.prev = some y → s.pos ≤ cap → cap < s.pos + y.length →
    s.dict.length + (ks.length - 1) ≤ dictCap →
    unscanCodes dictCap cap i (ks ++ rest) s = .error ⟨.dstFull, cap⟩
  | [], _, _, _, h, hp, hc, _ => by
    cases h
    exact absurd hc hp.not_gt
  | k :: ks, i, s, _, h, hp, hc, hd => by
    obtain ⟨e, z, he, hz, rfl⟩ := lzwDecodeFrom_cons_eq_some.mp h
    rw [List.length_append] at hc
    rw [List.length_cons] at hd
    by_cases hfull : cap < s.pos + e.length
    · exact unscanCodes_stop _ (unscanCode_dstFull he hp hfull)
    · cases ks with
      | nil => cases hz; exact absurd hc hfull
      | cons k' ks =>
        rw [List.length_cons] at hd
        rw [List.cons_append, unscanCodes_next _ (unscanCode_emit he hp (by omega) (by omega))]
        refine unscanCodes_dstFull rest (s := s.emit e) hz (not_lt.mp hfull) (by rw [Unscan.emit_pos]; omega) ?_
        rw [Unscan.length_emit_dict, List.length_cons]
        omega

/-- Codes with one entry too many for the cap stop LOOP at the last of them, when their strings fit DST (R276). -/
theorem unscanCodes_dictFull (rest : List Nat) : ∀ {ks : List Nat} {i : Nat} {s : Unscan} {y : List Byte},
    lzwDecodeFrom ks s.dict s.prev = some y → s.pos + y.length ≤ cap → s.dict.length ≤ dictCap →
    s.dict.length + ks.length = dictCap + 1 →
    unscanCodes dictCap cap i (ks ++ rest) s = .error ⟨.dictFull, 4 * (i + ks.length - 1)⟩
  | [], _, _, _, _, _, hle, hd => by rw [List.length_nil] at hd; omega
  | k :: ks, i, s, _, h, hc, hle, hd => by
    obtain ⟨e, z, he, hz, rfl⟩ := lzwDecodeFrom_cons_eq_some.mp h
    rw [List.length_append] at hc
    rw [List.length_cons] at hd
    by_cases hlast : s.dict.length = dictCap
    · have hi : i + (k :: ks).length - 1 = i := by rw [List.length_cons]; omega
      rw [hi]
      exact unscanCodes_stop _ (unscanCode_dictFull he (by omega) (by omega) hlast)
    · have hi : i + (k :: ks).length - 1 = i + 1 + ks.length - 1 := by rw [List.length_cons]; omega
      rw [hi, List.cons_append, unscanCodes_next _ (unscanCode_emit he (by omega) (by omega) hlast)]
      refine unscanCodes_dictFull rest (s := s.emit e) hz (by rw [Unscan.emit_pos]; omega) ?_ ?_ <;>
        rw [Unscan.length_emit_dict] <;> omega

end

end Sys2Proof.Machine
end

section
/-! LDEC's completions (R270 to R284). -/

namespace Sys2Proof.Machine

/-! ## The outcome of LDEC -/

/-- LOOP with the first byte of the output in DST (R273). -/
def Unscan.start (b : Byte) : Unscan := { dict := seedDict, prev := [b], pos := 1, out := [] }

theorem stringAt_seedDict {k : Nat} (hk : k < 256) : stringAt seedDict k = [BitVec.ofNat 8 k] := by
  rw [stringAt, getElem?_seedDict hk, Option.getD_some]

section
variable {p : Params} {o : Operands} {lenchk : Bool}

theorem ldecFinishVerdict_mismatch {out : List Byte} (n : Nat) (h : o.expLen.toNat ≠ out.length) :
    ldecFinishVerdict o true out n = .fail .afterWrite .ldecLengthMismatch out.length :=
  if_pos ⟨rfl, h.symm⟩

theorem ldecFinishVerdict_success {out : List Byte} (n : Nat) (h : lenchk = true → o.expLen.toNat = out.length) :
    ldecFinishVerdict o lenchk out n =
      ⟨.success { resLen := out.length, resAuxLen := 0, info := 0, dictSize := n }, out, []⟩ :=
  if_neg fun hne => hne.2 (h hne.1).symm

theorem ldecLoopVerdict_error {b : Byte} {ks : List Nat} {r : Raise}
    (h : unscanCodes p.dictCap o.dst.len 1 ks (.start b) = .error r) :
    ldecLoopVerdict p o lenchk [b] ks = .fail .afterWrite r.cause r.offset := by
  rw [ldecLoopVerdict, show Unscan.mk seedDict [b] [b].length [] = .start b from rfl, h]

theorem ldecLoopVerdict_ok {b : Byte} {ks : List Nat} {t : Unscan}
    (h : unscanCodes p.dictCap o.dst.len 1 ks (.start b) = .ok t) :
    ldecLoopVerdict p o lenchk [b] ks = ldecFinishVerdict o lenchk (b :: t.out) t.dict.length := by
  rw [ldecLoopVerdict, show Unscan.mk seedDict [b] [b].length [] = .start b from rfl, h]
  rfl

theorem ldecVerdict_partial (x : List Byte) (h : o.src.len % 4 ≠ 0) :
    ldecVerdict p o lenchk x = .fail .beforeWrite .partialWord (o.src.len - o.src.len % 4) := by
  rw [ldecVerdict, if_pos h]

section
variable {x : List Byte} (hw : o.src.len % 4 = 0)
include hw

theorem ldecVerdict_nil (h : codesOfBytes x = []) :
    ldecVerdict p o lenchk x = ldecFinishVerdict o lenchk [] 256 := by
  rw [ldecVerdict, if_neg (not_not_intro hw), h, ← length_seedDict]

variable {k : Nat} {ks : List Nat} (h : codesOfBytes x = k :: ks)
include h

theorem ldecVerdict_firstCode (hk : 256 ≤ k) : ldecVerdict p o lenchk x = .fail .beforeWrite .firstCode 0 := by
  simp only [ldecVerdict, if_neg (not_not_intro hw), h, ge_iff_le, if_pos hk]

variable (hk : k < 256)
include hk

theorem ldecVerdict_firstFull (hd : o.dst.len = 0) :
    ldecVerdict p o lenchk x = .fail .afterWrite .dstFull o.dst.len := by
  have he : emitString o.dst.len [BitVec.ofNat 8 k] 0 = .error ⟨.dstFull, o.dst.len⟩ :=
    (emitString_error (Nat.zero_le _)).mpr ⟨hd.trans_lt Nat.one_pos, rfl⟩
  simp only [ldecVerdict, if_neg (not_not_intro hw), h, if_neg hk.not_ge, stringAt_seedDict hk, he]

theorem ldecVerdict_loop (hd : 0 < o.dst.len) :
    ldecVerdict p o lenchk x = ldecLoopVerdict p o lenchk [BitVec.ofNat 8 k] ks := by
  have he : emitString o.dst.len [BitVec.ofNat 8 k] 0 = .ok 1 := (emitString_ok (Nat.zero_le _)).mpr ⟨hd, rfl⟩
  simp only [ldecVerdict, if_neg (not_not_intro hw), h, if_neg hk.not_ge, stringAt_seedDict hk, he]

end
end

/-! ## Streams in SRC -/

/-- A stream that stands for bytes and fits a region holds code words: code i is below 256 + i (R109). -/
theorem lt_of_lzwDecode {good : List Nat} {y : List Byte} (h : lzwDecode good = some y) (hl : good.length < 2 ^ 30) :
    ∀ c ∈ good, c < 2 ^ 32 := by
  intro c hc
  obtain ⟨i, hi⟩ := List.getElem?_of_mem hc
  obtain ⟨hlt, -⟩ := (lzwDecode_isSome good).mp (Option.isSome_of_eq_some h) i c hi
  obtain ⟨hil, -⟩ := List.getElem?_eq_some_iff.mp hi
  omega

section
variable {s : State} {codes : List Nat} (hsrc : s.regionBytes s.operands.src = streamBytes codes)
include hsrc

theorem src_len_of_stream : s.operands.src.len = 4 * codes.length := by
  rw [← s.regionBytes_length, hsrc, length_streamBytes]

/-- A stream in SRC is shorter than 2^32 bytes (R11). -/
theorem length_lt_of_stream : codes.length < 2 ^ 30 := by
  have hlen : s.operands.srcLen.toNat = 4 * codes.length := src_len_of_stream hsrc
  have := s.operands.srcLen.isLt
  omega

theorem words_of_stream : s.operands.src.len % 4 = 0 := by
  rw [src_len_of_stream hsrc, Nat.mul_mod_right]

end

/-- SRC holds a good stream and then codes of 32 bits: LDEC reads the codes (R108). -/
theorem codesOfBytes_stream {s : State} {good rest : List Nat} {y : List Byte} (hy : lzwDecode good = some y)
    (hrest : ∀ d ∈ rest, d < 2 ^ 32) (hsrc : s.regionBytes s.operands.src = streamBytes (good ++ rest)) :
    codesOfBytes (s.regionBytes s.operands.src) = good ++ rest := by
  have hlen := length_lt_of_stream hsrc
  rw [List.length_append] at hlen
  rw [hsrc, codesOfBytes_streamBytes]
  exact List.forall_mem_append.mpr ⟨lt_of_lzwDecode hy (by omega), hrest⟩

/-! ## The outcome on a good stream -/

section
variable {s : State} {good rest : List Nat} {y : List Byte} (hp : s.regionsPass .ldec)
  (hy : lzwDecode good = some y) (hrest : ∀ d ∈ rest, d < 2 ^ 32)
  (hsrc : s.regionBytes s.operands.src = streamBytes (good ++ rest))
include hp hy hrest hsrc

/-- A good stream that is not empty begins with a byte's code, whose byte DST holds or not; LOOP has the other codes. -/
theorem verdict_ldec_stream (hne : good ≠ []) : ∃ k ks z, good = k :: ks ∧ y = BitVec.ofNat 8 k :: z ∧
    lzwDecodeFrom ks seedDict [BitVec.ofNat 8 k] = some z ∧
    (s.operands.dst.len = 0 → s.verdict .ldec = .fail .afterWrite .dstFull s.operands.dst.len) ∧
    (0 < s.operands.dst.len → s.verdict .ldec =
      ldecLoopVerdict s.params s.operands s.lenchk [BitVec.ofNat 8 k] (ks ++ rest)) := by
  obtain ⟨k, ks, rfl⟩ := List.exists_cons_of_ne_nil hne
  obtain ⟨hk, z, hz, rfl⟩ := lzwDecode_cons_eq_some.mp hy
  have hcodes := codesOfBytes_stream hy hrest hsrc
  have hw := words_of_stream hsrc
  exact ⟨k, ks, z, rfl, rfl, hz, fun hd => (verdict_of_regionsPass hp).trans (ldecVerdict_firstFull hw hcodes hk hd),
    fun hd => (verdict_of_regionsPass hp).trans (ldecVerdict_loop hw hcodes hk hd)⟩

/-- A DST too small for the output (R277). -/
theorem verdict_ldec_dstFull (hfull : s.operands.dst.len < y.length)
    (hcap : lzwDictSize (good.length - 1) ≤ s.params.dictCap) :
    s.verdict .ldec = .fail .afterWrite .dstFull s.operands.dst.len := by
  have hne : good ≠ [] := by
    rintro rfl
    cases hy
    exact absurd hfull (Nat.not_lt_zero _)
  obtain ⟨k, ks, z, rfl, rfl, hz, hzero, hloop⟩ := verdict_ldec_stream hp hy hrest hsrc hne
  obtain hd | hd := Nat.eq_zero_or_pos s.operands.dst.len
  · exact hzero hd
  · rw [lzwDictSize, List.length_cons, Nat.add_sub_cancel] at hcap
    rw [List.length_cons, Nat.add_comm] at hfull
    exact (hloop hd).trans (ldecLoopVerdict_error
      (unscanCodes_dstFull rest (s := .start _) hz hd hfull (by rw [Unscan.start, length_seedDict]; exact hcap)))

/-- A cap too small for the entries (R276). -/
theorem verdict_ldec_dictFull (hfit : y.length ≤ s.operands.dst.len)
    (hcap : lzwDictSize good.length = s.params.dictCap + 1) :
    s.verdict .ldec = .fail .afterWrite .dictFull (4 * (good.length - 1)) := by
  have h256 := dictCap_ge s.params
  rw [lzwDictSize] at hcap
  have hne : good ≠ [] := by
    rintro rfl
    rw [List.length_nil] at hcap
    omega
  obtain ⟨k, ks, z, rfl, rfl, hz, -, hloop⟩ := verdict_ldec_stream hp hy hrest hsrc hne
  rw [List.length_cons, Nat.add_sub_cancel] at hcap
  rw [List.length_cons, Nat.add_comm] at hfit
  have hrun := unscanCodes_dictFull rest (i := 1) (s := .start _) hz hfit (length_seedDict_le s.params)
    (by rw [Unscan.start, length_seedDict]; exact hcap)
  rw [List.length_cons, Nat.add_comm ks.length]
  exact (hloop (by omega)).trans (ldecLoopVerdict_error hrun)

/-- A stream that fits: LOOP has emitted its bytes and inserted its entries when it comes to the rest. -/
theorem verdict_ldec_fits (hne : good ≠ []) (hfit : y.length ≤ s.operands.dst.len)
    (hcap : lzwDictSize good.length ≤ s.params.dictCap) : ∃ (b : Byte) (t : Unscan), y = b :: t.out ∧
      t.dict.length = lzwDictSize good.length ∧
      s.verdict .ldec = ldecLoopVerdict s.params s.operands s.lenchk [b] (good.tail ++ rest) ∧
      unscanCodes s.params.dictCap s.operands.dst.len 1 (good.tail ++ rest) (.start b) =
        unscanCodes s.params.dictCap s.operands.dst.len good.length rest t := by
  obtain ⟨k, ks, z, rfl, rfl, hz, -, hloop⟩ := verdict_ldec_stream hp hy hrest hsrc hne
  have hsize : lzwDictSize (k :: ks).length = 256 + ks.length := rfl
  rw [hsize] at hcap ⊢
  rw [List.length_cons, Nat.add_comm] at hfit
  have h256 : (Unscan.start (BitVec.ofNat 8 k)).dict.length = 256 := length_seedDict
  obtain ⟨t, hdict, -, hout, hrun⟩ :=
    unscanCodes_decodes rest (i := 1) (s := .start _) hz hfit (h256.symm ▸ hcap)
  refine ⟨_, t, ?_, by rw [hdict, h256], hloop (by omega), ?_⟩
  · rw [hout, Unscan.start, List.nil_append]
  · rw [List.length_cons, Nat.add_comm ks.length]
    exact hrun

end

/-- A code above NEXT after a stream that fits (R274). -/
theorem verdict_ldec_undefined {s : State} {good rest : List Nat} {c : Nat} {y : List Byte} (hp : s.regionsPass .ldec)
    (hy : lzwDecode good = some y) (hrest : ∀ d ∈ c :: rest, d < 2 ^ 32)
    (hsrc : s.regionBytes s.operands.src = streamBytes (good ++ c :: rest)) (hne : good ≠ [])
    (hfit : y.length ≤ s.operands.dst.len) (hcap : lzwDictSize good.length ≤ s.params.dictCap)
    (hc : lzwDictSize good.length < c) :
    s.verdict .ldec = .fail .afterWrite .undefinedCode (4 * good.length) := by
  obtain ⟨b, t, -, hdict, hv, hrun⟩ := verdict_ldec_fits hp hy hrest hsrc hne hfit hcap
  have hnone : stringOfCode t.dict t.prev c = none := stringOfCode_gt (hdict.trans_lt hc)
  exact hv.trans (ldecLoopVerdict_error (hrun.trans (unscanCodes_stop rest (unscanCode_undefined hnone))))

/-- A whole stream that fits comes to FINISH, with its bytes as the output (R278, R279). -/
theorem verdict_ldec_finish {s : State} {good : List Nat} {y : List Byte} (hp : s.regionsPass .ldec)
    (hy : lzwDecode good = some y) (hsrc : s.regionBytes s.operands.src = streamBytes good)
    (hfit : y.length ≤ s.operands.dst.len) (hcap : lzwDictSize good.length ≤ s.params.dictCap) :
    s.verdict .ldec = ldecFinishVerdict s.operands s.lenchk y (lzwDictSize good.length) := by
  rw [← List.append_nil good] at hsrc
  have hrest : ∀ d ∈ ([] : List Nat), d < 2 ^ 32 := nofun
  obtain rfl | hne := eq_or_ne good []
  · cases hy
    exact (verdict_of_regionsPass hp).trans
      (ldecVerdict_nil (words_of_stream hsrc) (codesOfBytes_stream rfl hrest hsrc))
  · obtain ⟨b, t, rfl, hdict, hv, hrun⟩ := verdict_ldec_fits hp hy hrest hsrc hne hfit hcap
    rw [hv, ldecLoopVerdict_ok hrun, hdict]

/-! ## LDEC's completions -/

/-- LDEC on a stream that stands for `y` writes `y` to DST (R279). -/
theorem ldec_decodes {s : State} {codes : List Nat} {y : List Byte} (hs : s.ready) (hp : s.regionsPass .ldec)
    (hsrc : s.regionBytes s.operands.src = streamBytes codes) (hy : lzwDecode codes = some y)
    (hfit : y.length ≤ s.operands.dst.len) (hcap : lzwDictSize codes.length ≤ s.params.dictCap)
    (hexp : s.lenchk = true → s.operands.expLen.toNat = y.length) :
    ∃ t, exec .ldec s = .next t ∧ Succeeded y.length 0 0 (lzwDictSize codes.length) s t ∧
      t.regionBytes ⟨s.operands.dst.base, y.length⟩ = y ∧ SameOutside [⟨s.operands.dst.base, y.length⟩] s t :=
  exec_dstSuccess hs ((verdict_ldec_finish hp hy hsrc hfit hcap).trans (ldecFinishVerdict_success _ hexp))

/-- Settles O41: the codes of an input stand for it, so that LDEC decodes them to it. -/
theorem lzwRoundTrip : Obligations.LzwRoundTrip :=
  ⟨lzwDecode_lzwCodes, fun _ x hs hp hsrc hfit hcap hexp =>
    ldec_decodes hs hp hsrc (lzwDecode_lzwCodes x) hfit hcap hexp⟩

/-- Settles O39. -/
theorem ldecDecodesStream : Obligations.LdecDecodesStream :=
  ⟨fun _ _ _ => ldec_decodes, lzwDecode_isSome, lzwDecode_kwkwk⟩

/-- Settles O38: FINISH has no byte of output. -/
theorem ldecEmptyStream : Obligations.LdecEmptyStream := by
  intro s hs hp hl
  have hsrc : s.regionBytes s.operands.src = streamBytes [] :=
    List.length_eq_zero_iff.mp ((s.regionBytes_length _).trans hl)
  have hv := verdict_ldec_finish hp (y := []) rfl hsrc (Nat.zero_le _) (dictCap_ge s.params)
  refine ⟨fun hexp => ?_, fun hchk hexp => ?_⟩
  · have hzero : s.lenchk = true → s.operands.expLen.toNat = 0 := fun hchk => by
      rw [hexp.resolve_left (by simp [hchk])]
      rfl
    rw [ldecFinishVerdict_success _ hzero] at hv
    obtain ⟨t, ht, hsucc, hmem⟩ := exec_success hs (congrArg Verdict.ending hv)
    rw [hv] at hmem
    exact ⟨t, ht, hsucc, hmem⟩
  · have hne : s.operands.expLen.toNat ≠ 0 := fun h0 => hexp (BitVec.eq_of_toNat_eq h0)
    rw [hchk, ldecFinishVerdict_mismatch _ hne] at hv
    exact exec_fail_outputs hs hv (by decide)

/-- Settles O37: both errors are raised in FIRST, before any write. -/
theorem ldecFirstErrors : Obligations.LdecFirstErrors := by
  intro s hs hp n
  refine ⟨fun hn => ?_, fun hn k ks hcodes hk => ?_⟩
  · exact exec_fail hs rfl ((verdict_of_regionsPass hp).trans (ldecVerdict_partial _ hn))
      ((Nat.sub_le _ _).trans_lt s.operands.srcLen.isLt)
  · exact exec_fail hs rfl ((verdict_of_regionsPass hp).trans (ldecVerdict_firstCode hn hcodes hk)) (by decide)

/-- Settles O40. -/
theorem ldecUndefinedCode : Obligations.LdecUndefinedCode := by
  intro s good rest c y hs hp hne hy hrest hsrc hc hcap hfit
  have hlen := length_lt_of_stream hsrc
  rw [List.length_append] at hlen
  obtain ⟨t, ht, hfailed, hsame⟩ :=
    exec_fail_outputs hs (verdict_ldec_undefined hp hy hrest hsrc hne hfit hcap hc) (by omega)
  obtain ⟨-, -, -, -, -, -, -, -, herr, -⟩ := id hfailed
  exact ⟨t, ht, hfailed, herr, hsame⟩

/-- Settles O42: DST_FULL and DICT_FULL are raised in FIRST or LOOP, whatever follows; LENGTH_MISMATCH in FINISH. -/
theorem ldecLimits : Obligations.LdecLimits := by
  intro s good rest y hs hp hy hrest hsrc
  refine ⟨fun hfull hcap => ?_, fun hfit hcap => ?_, fun hnil hfit hcap hchk hexp => ?_⟩
  · exact exec_fail_outputs hs (verdict_ldec_dstFull hp hy hrest hsrc hfull hcap) s.operands.dstLen.isLt
  · have hlen := length_lt_of_stream hsrc
    rw [List.length_append] at hlen
    exact exec_fail_outputs hs (verdict_ldec_dictFull hp hy hrest hsrc hfit hcap) (by omega)
  · rw [hnil, List.append_nil] at hsrc
    have hv := verdict_ldec_finish hp hy hsrc hfit hcap
    rw [hchk, ldecFinishVerdict_mismatch _ hexp] at hv
    exact exec_fail_outputs hs hv (hfit.trans_lt s.operands.dstLen.isLt)

end Sys2Proof.Machine
end

section
/-! What every step keeps (R301, R302, R148, R133, R136, R245, R276): the invariant under a host access, a start, a turn
of the core, a completion and reset. -/

namespace Sys2Proof.Machine

/-! ## DICT between its seed and the cap (R42, R245, R276) -/

/-- DICT holds the 256 seed entries at least, and no more entries than the cap. -/
def DictOk (s : State) : Prop := 256 ≤ s.store.dict.length ∧ s.store.dict.length ≤ s.params.dictCap

theorem dictOk_of_fresh {s : State} (h : s.store = Store.fresh) : DictOk s := by
  have hlen : s.store.dict.length = 256 := by rw [h]; exact length_seedDict
  exact ⟨hlen.ge, hlen ▸ dictCap_ge s.params⟩

theorem Ended.dictOk {s t : State} (h : Ended s t) : DictOk t := dictOk_of_fresh h.store

theorem raiseError_dictOk {w : WriteClass} {e : Raise} {s t : State} (h : raiseError w e s = .next t) : DictOk t := by
  obtain ⟨u, hu, he⟩ := raiseError_ended w e s
  cases hu.symm.trans h
  exact he.dictOk

theorem checkPhase_dictOk {i : Instr} {p : Phase} {s t : State} (hd : DictOk s) (h : checkPhase i p s = .next t) :
    DictOk t := by
  unfold checkPhase at h
  split at h
  · exact raiseError_dictOk h
  · cases h; exact hd

theorem hencCount_dictOk {s t : State} (hd : DictOk s) (h : hencCount s = .next t) : DictOk t := by
  unfold hencCount at h
  split at h
  · exact raiseError_dictOk h
  · cases h; exact hd

theorem hencSize_dictOk {s t : State} (hd : DictOk s) (h : hencSize s = .next t) : DictOk t := by
  simp only [hencSize] at h
  split at h
  · exact raiseError_dictOk h
  · split at h
    · exact raiseError_dictOk h
    · cases h; exact hd

theorem hencPhase_dictOk {p : HencPhase} {s t : State} (hp : (Phase.henc p).turnsLeft ≠ 1) (hd : DictOk s)
    (h : hencPhase p s = .next t) : DictOk t := by
  cases p with
  | check => exact checkPhase_dictOk hd h
  | count => exact hencCount_dictOk hd h
  | build => cases h; exact hd
  | codegen => cases h; exact hd
  | size => exact hencSize_dictOk hd h
  | serialize => cases h; exact hd
  | pack => exact absurd rfl hp

theorem hdecParse_dictOk {s t : State} (hd : DictOk s) (h : hdecParse s = .next t) : DictOk t := by
  unfold hdecParse at h
  split at h
  · exact raiseError_dictOk h
  · cases h; exact hd

theorem hdecHeader_dictOk {s t : State} (hd : DictOk s) (h : hdecHeader s = .next t) : DictOk t := by
  unfold hdecHeader at h
  split at h
  · exact raiseError_dictOk h
  · cases h; exact hd

theorem hdecSingleLeaf_dictOk {b : Byte} {s t : State} (hd : DictOk s) (h : hdecSingleLeaf b s = .next t) :
    DictOk t := by
  unfold hdecSingleLeaf at h
  split at h
  · exact raiseError_dictOk h
  · split at h
    · exact raiseError_dictOk h
    · cases h; exact hd

theorem hdecWalkTree_dictOk {s t : State} (hd : DictOk s) (h : hdecWalkTree s = .next t) : DictOk t := by
  unfold hdecWalkTree at h
  split at h
  · exact raiseError_dictOk h
  · cases h; exact hd

theorem hdecWalk_dictOk {s t : State} (hd : DictOk s) (h : hdecWalk s = .next t) : DictOk t := by
  unfold hdecWalk at h
  split at h
  · exact hdecSingleLeaf_dictOk hd h
  · exact hdecWalkTree_dictOk hd h

theorem hdecPhase_dictOk {p : HdecPhase} {s t : State} (hp : (Phase.hdec p).turnsLeft ≠ 1) (hd : DictOk s)
    (h : hdecPhase p s = .next t) : DictOk t := by
  cases p with
  | check => exact checkPhase_dictOk hd h
  | parse => exact hdecParse_dictOk hd h
  | header => exact hdecHeader_dictOk hd h
  | walk => exact hdecWalk_dictOk hd h
  | finish => exact absurd rfl hp

/-- SCAN inserts entries up to the cap (R245). -/
theorem lencScan_dictOk {s t : State} (hd : DictOk s) (h : lencScan s = .next t) : DictOk t := by
  unfold lencScan at h
  split at h
  · exact raiseError_dictOk h
  · next u hu =>
    cases h
    obtain ⟨hmin, hmax⟩ := hd
    obtain ⟨hgrow, hcap⟩ := scanBytes_dict_le hmax hu
    exact ⟨hmin.trans hgrow, hcap⟩

theorem lencPhase_dictOk {p : LencPhase} {s t : State} (hp : (Phase.lenc p).turnsLeft ≠ 1) (hd : DictOk s)
    (h : lencPhase p s = .next t) : DictOk t := by
  cases p with
  | check => exact checkPhase_dictOk hd h
  | scan => exact lencScan_dictOk hd h
  | flush => exact absurd rfl hp

theorem ldecFirst_dictOk {s t : State} (hd : DictOk s) (h : ldecFirst s = .next t) : DictOk t := by
  unfold ldecFirst at h
  split at h
  · exact raiseError_dictOk h
  · split at h
    · cases h; exact hd
    · split at h
      · exact raiseError_dictOk h
      · split at h
        · exact raiseError_dictOk h
        · cases h; exact hd

/-- LOOP inserts entries up to the cap (R276). -/
theorem ldecLoop_dictOk {s t : State} (hd : DictOk s) (h : ldecLoop s = .next t) : DictOk t := by
  unfold ldecLoop at h
  split at h
  · exact raiseError_dictOk h
  · next u hu =>
    cases h
    obtain ⟨hmin, hmax⟩ := hd
    obtain ⟨hgrow, hcap⟩ := unscanCodes_dict_le hmax hu
    exact ⟨hmin.trans hgrow, hcap⟩

theorem ldecPhase_dictOk {p : LdecPhase} {s t : State} (hp : (Phase.ldec p).turnsLeft ≠ 1) (hd : DictOk s)
    (h : ldecPhase p s = .next t) : DictOk t := by
  cases p with
  | check => exact checkPhase_dictOk hd h
  | first => exact ldecFirst_dictOk hd h
  | loop => exact ldecLoop_dictOk hd h
  | finish => exact absurd rfl hp

/-- The turn of a command's last phase ends it, whatever the phase finds. -/
theorem coreTurn_last_ended {s t : State} (hb : s.busy = true) (hl : s.phase.turnsLeft = 1)
    (h : coreTurn s = .next t) : Ended s t := by
  have hnone : ¬ t.phase.turnsLeft < s.phase.turnsLeft := by
    have := turnsLeft_pos t.phase
    omega
  exact (coreTurn_turnsTo hb h).ended (busy_iff.mp hb) ((coreTurn_nearsEnd hb h).resolve_right hnone)

theorem coreTurn_dictOk {s t : State} (hb : s.busy = true) (hd : DictOk s) (h : coreTurn s = .next t) :
    DictOk t := by
  by_cases hl : s.phase.turnsLeft = 1
  · exact (coreTurn_last_ended hb hl h).dictOk
  · unfold coreTurn at h
    rw [if_pos hb] at h
    split at h
    · next p hp => exact hencPhase_dictOk (hp ▸ hl) hd h
    · next p hp => exact hdecPhase_dictOk (hp ▸ hl) hd h
    · next p hp => exact lencPhase_dictOk (hp ▸ hl) hd h
    · next p hp => exact ldecPhase_dictOk (hp ▸ hl) hd h

/-! ## The region checks, once CHECK is over (R136) -/

/-- The regions of the running command have passed their checks. -/
def RegionsChecked (s : State) : Prop := checkRegions s.params.memSize s.phase.command s.latched = none

/-- A command's first phase is CHECK on its own regions. -/
theorem coreTurn_of_firstPhase {i : Instr} {s : State} (hb : s.busy = true) (hp : s.phase = firstPhase i) :
    coreTurn s = checkPhase i (afterCheck i) s := by
  rw [coreTurn, if_pos hb, hp]
  cases i <;> rfl

/-- CHECK ends a command whose regions do not pass. -/
theorem checkPhase_checked {i : Instr} {p : Phase} {s t : State} (h : checkPhase i p s = .next t) :
    Ended s t ∨ checkRegions s.params.memSize i s.latched = none := by
  unfold checkPhase at h
  split at h
  · obtain ⟨u, hu, he⟩ := raiseError_ended .beforeWrite _ s
    cases hu.symm.trans h
    exact .inl he
  · next hc => exact .inr hc

/-- The turn of CHECK ends a command whose regions do not pass. -/
theorem coreTurn_check_checked {i : Instr} {s t : State} (hb : s.busy = true) (hp : s.phase = firstPhase i)
    (h : coreTurn s = .next t) : Ended s t ∨ RegionsChecked s := by
  rw [RegionsChecked, hp, firstPhase_command]
  exact checkPhase_checked ((coreTurn_of_firstPhase hb hp).symm.trans h)

theorem RunsOn.regionsChecked {s t : State} (hr : RunsOn s t) (h : RegionsChecked s) : RegionsChecked t := by
  rw [RegionsChecked, hr.command, hr.eq]
  exact h

/-! ## The invariant and the core -/

/-- A BUSY command is at CHECK, or its regions have passed. -/
theorem Inv.check_or_regionsChecked {s : State} (hi : Inv s) (hb : s.busy = true) :
    (∃ i, s.phase = firstPhase i) ∨ RegionsChecked s := by
  rcases hi.checked (busy_iff.mp hb) with hp | hp | hp | hp | hc
  · exact .inl ⟨.henc, hp⟩
  · exact .inl ⟨.hdec, hp⟩
  · exact .inl ⟨.lenc, hp⟩
  · exact .inl ⟨.ldec, hp⟩
  · exact .inr hc

/-- Past a turn of the core, a command that still runs has had its regions checked. -/
theorem Inv.coreTurn_checked {s t : State} (hi : Inv s) (hb : s.busy = true) (h : coreTurn s = .next t) :
    Ended s t ∨ RegionsChecked s := by
  rcases hi.check_or_regionsChecked hb with ⟨i, hp⟩ | hc
  · exact coreTurn_check_checked hb hp h
  · exact .inr hc

/-- A completion, of whatever kind, leaves the invariant. -/
theorem Inv.of_ended {s t : State} (hi : Inv s) (he : Ended s t) : Inv t where
  memOk := by
    obtain ⟨hp, -⟩ := he.host
    rw [hp]
    exact he.wf hi.memOk
  errOk := he.err
  infoOk := he.info
  progressOk := .inr he.progress
  busyFlags hb := by simp [he.idle] at hb
  dictOk := he.dictOk
  checked hb := by simp [he.idle] at hb
  marksOk _ := he.marks

/-- A turn that runs on changes the phase, the internal storage and BUF only. -/
theorem Inv.of_runsOn {s t : State} (hi : Inv s) (hr : RunsOn s t) (hd : DictOk t) (hc : RegionsChecked t) :
    Inv t where
  memOk := by
    obtain ⟨hp, -⟩ := hr.hostSame
    rw [hp]
    exact hr.wf hi.memOk
  errOk := by rw [hr.eq]; exact hi.errOk
  infoOk := by rw [hr.eq]; exact hi.infoOk
  progressOk := by rw [hr.eq]; exact hi.progressOk
  busyFlags := by rw [hr.eq]; exact hi.busyFlags
  dictOk := hd
  checked _ := .inr (.inr (.inr (.inr hc)))
  marksOk := by rw [hr.eq]; exact hi.marksOk

theorem Inv.of_coreTurn {s t : State} (hi : Inv s) (h : coreTurn s = .next t) : Inv t := by
  cases hb : s.busy with
  | false => cases (coreTurn_idle hb).symm.trans h; exact hi
  | true =>
    rcases coreTurn_turnsTo hb h with hr | he
    · rcases hi.coreTurn_checked hb h with he | hc
      · exact hi.of_ended he
      · exact hi.of_runsOn hr (coreTurn_dictOk hb hi.dictOk h) (hr.regionsChecked hc)
    · exact hi.of_ended he

/-- With no event waiting, the core's run ends a BUSY command and leaves an IDLE machine alone. -/
theorem Inv.of_coreRun {s t : State} (hi : Inv s) (h : coreRun s = .next t) : Inv t := by
  cases hb : s.busy with
  | false => cases (coreRun_idle hb).symm.trans h; exact hi
  | true => exact hi.of_ended (coreRun_ended hb h)

/-! ## The invariant and the host -/

/-- The invariant does not speak of the model's own fields. -/
theorem Inv.of_ownFields {s : State} {d : Word} {n : Nat} {es : List Event}
    (hi : Inv { s with hostData := d, draws := n, events := es }) : Inv s :=
  ⟨hi.memOk, hi.errOk, hi.infoOk, hi.progressOk, hi.busyFlags, hi.dictOk, hi.checked, hi.marksOk⟩

/-- A read, which changes the model's own fields only. -/
theorem Inv.of_read {s t : State} (hi : Inv s) (h : { t with hostData := s.hostData, draws := s.draws } = s) :
    Inv t := by
  rw [← h] at hi
  exact hi.of_ownFields

/-- A STATUS write can clear flags, but not set one (R26). -/
theorem Inv.writeStatus {s : State} (v : Word) (hi : Inv s) : Inv (writeStatus v s) :=
  { hi with
    busyFlags := fun hb => by
      obtain ⟨hdone, herror, hprogress⟩ := hi.busyFlags hb
      simp [hdone, herror, hprogress] }

theorem Inv.writeReg {s : State} (r : Reg) (v : Word) (hi : Inv s) : Inv (writeReg r v s) := by
  cases r with
  | status => exact hi.writeStatus v
  | _ => exact { hi with }

/-- A byte written inside BUF; the marks are set while BUSY only (R350, R352). -/
theorem Inv.writeBuf {s : State} {a : Nat} (b : Byte) (hi : Inv s) (ha : a < s.params.memSize) :
    Inv (writeBuf a b s) :=
  { hi with
    memOk := Memory.wf_set hi.memOk ha
    marksOk := fun hs => by
      obtain ⟨hin, hout⟩ := hi.marksOk hs
      have hb : s.busy = false := busy_eq_false_iff.mpr hs
      simp [hin, hout, hb] }

/-- A host access that is no command word. -/
theorem Inv.of_serveAccess {a : Access} {s t : State} (hi : Inv s) (h : serveAccess a s = .outcome (.next t)) :
    Inv t := by
  cases a with
  | regRead off width =>
    simp only [serveAccess] at h
    split at h
    · cases h; exact hi.of_read (readWindow_frame off width s)
    · cases h
  | regWrite off width v =>
    simp only [serveAccess] at h
    split at h
    · split at h
      · cases h
      · cases h; exact hi.writeReg _ v
      · cases h; exact hi
    · cases h
  | bufRead addr width =>
    simp only [serveAccess] at h
    split at h
    · split at h
      · cases h; exact hi.of_read (readBuf_frame addr s)
      · cases h
    · cases h
  | bufWrite addr width b =>
    simp only [serveAccess] at h
    split at h
    · next ha =>
      split at h
      · cases h; exact hi.writeBuf b ha
      · cases h
    · cases h

/-! ## The invariant and command words -/

theorem Inv.rejectCommand {s : State} (hi : Inv s) : Inv (rejectCommand s) := { hi with }

/-- A start clears the flags and stands at CHECK with fresh internal storage (R133). -/
theorem Inv.startCommand {s : State} (i : Instr) (hi : Inv s) : Inv (startCommand (firstPhase i) s) where
  memOk := hi.memOk
  errOk := hi.errOk
  infoOk := hi.infoOk
  progressOk := .inl rfl
  busyFlags _ := ⟨rfl, rfl, rfl⟩
  dictOk := dictOk_of_fresh rfl
  checked _ := by
    rcases firstPhase_check i with hp | hp | hp | hp
    · exact .inl hp
    · exact .inr (.inl hp)
    · exact .inr (.inr (.inl hp))
    · exact .inr (.inr (.inr (.inl hp)))
  marksOk hs := by cases hs

/-- An illegal word is dropped while BUSY and is an error completion while IDLE (R131, R142). -/
theorem Inv.illegalWord {s : State} (hi : Inv s) : Inv (illegalWord s) := by
  cases hb : s.busy with
  | true => rw [illegalWord_busy hb]; exact hi.rejectCommand
  | false => rw [illegalWord_idle hb]; exact hi.of_ended (errorRegs_ended (Scrambled.refl _ s))

theorem Inv.of_exec {i : Instr} {s t : State} (hi : Inv s) (h : exec i s = .next t) : Inv t := by
  rcases exec_cases h with ⟨-, rfl⟩ | ⟨-, -, rfl⟩ | ⟨hr, -⟩
  · exact hi.rejectCommand
  · exact hi.startCommand i
  · exact (hi.startCommand i).of_ended (exec_ready_ended hr h)

theorem Inv.of_finishServed {a : Access} {s t : State} (hi : Inv s) (h : finishServed (serveAccess a s) = .next t) :
    Inv t := by
  cases hs : serveAccess a s with
  | outcome o =>
    rw [hs] at h
    cases h
    exact hi.of_serveAccess hs
  | command w u =>
    obtain ⟨-, rfl⟩ := serveAccess_command hs
    rw [hs] at h
    rcases finishServed_command h with ⟨i, -, he⟩ | rfl
    · exact hi.of_exec he
    · exact hi.illegalWord

/-! ## The invariant and steps -/

theorem scrambleIf_scrambled (b : Bool) (s : State) :
    Scrambled (outputRegions s.phase.command s.latched) s (scrambleIf b s) := by
  cases b with
  | false => exact Scrambled.refl _ s
  | true => exact scrambleOutputs_scrambled s

/-- Reset keeps BUF in canonical form, with the outputs of an abandoned command freed, and clears the rest (R340,
R341). -/
theorem Inv.resetEvent {s : State} (hi : Inv s) : Inv (resetEvent s) where
  memOk := by
    have hsc := scrambleIf_scrambled s.busy s
    have hp : (scrambleIf s.busy s).params = s.params := by rw [hsc.eq]
    show (scrambleIf s.busy s).mem.wf (scrambleIf s.busy s).params.memSize = true
    rw [hp]
    exact hsc.wf hi.memOk
  errOk := (by decide : errLegal 0 = true)
  infoOk := BitVec.zero_and
  progressOk := .inl rfl
  busyFlags _ := ⟨rfl, rfl, rfl⟩
  dictOk := dictOk_of_fresh rfl
  checked _ := .inl rfl
  marksOk _ := ⟨rfl, rfl⟩

theorem Inv.of_serve {e : Event} {s t : State} (hi : Inv s) (h : serve e s = .next t) : Inv t := by
  cases e with
  | bus tr =>
    simp only [serve, serveBus] at h
    split at h
    · exact hi.of_finishServed h
    · cases h
    · cases h
  | access a => exact hi.of_finishServed h
  | core => exact hi.of_coreTurn h
  | reset => cases h; exact hi.resetEvent

/-- Settles O55: the core's run, a host access, a command word, a turn of the core and reset each keep the invariant. -/
theorem stepKeepsInv : Obligations.StepKeepsInv := by
  intro s t hi h
  cases hev : s.events with
  | nil => exact hi.of_coreRun ((step_nil hev).symm.trans h)
  | cons e rest =>
    have hrest : Inv { s with events := rest } := { hi with }
    exact hrest.of_serve ((step_cons hev).symm.trans h)

end Sys2Proof.Machine
end

section
/-! Reset (R340, R341): the register values after it, what an abandoned command leaves of BUF, and the invariant at the
state after reset. -/

namespace Sys2Proof.Machine

/-! ## The words of cleared flags (R25, R26) -/

theorem ctrlWord_eq_zero {s : State} (hirq : s.irqEn = false) (hlenchk : s.lenchk = false) : ctrlWord s = 0 := by
  simp [ctrlWord, bitWord, hirq, hlenchk]

theorem statusWord_eq_zero {s : State} (hseq : s.seqState = .idle) (hdone : s.done = false) (herror : s.error = false)
    (hrejected : s.cmdRejected = false) : statusWord s 0 = 0 := by
  simp [statusWord, bitWord, busy_eq_false_iff.mpr hseq, hdone, herror, hrejected]

theorem irq_eq_false {s : State} (hirq : s.irqEn = false) : s.irq = false := by
  simp [State.irq, hirq]

/-! ## The registers after a reset (R340) -/

/-- The reset values of R340's table that the host can see, but for the constant registers. -/
structure RegistersReset (s : State) : Prop where
  seqState : s.seqState = .idle
  ctrl : ctrlWord s = 0
  status : statusWord s s.progress.val = 0
  operands : s.operands = Operands.zero
  resLen : s.resLen = 0
  resAuxLen : s.resAuxLen = 0
  info : s.info = 0
  dictSize : s.dictSize = 0
  err : s.err = 0
  errOffset : s.errOffset = 0
  irq : s.irq = false

theorem registersReset_resetEvent (s : State) : RegistersReset (resetEvent s) where
  seqState := rfl
  ctrl := ctrlWord_eq_zero rfl rfl
  status := statusWord_eq_zero rfl rfl rfl rfl
  operands := rfl
  resLen := rfl
  resAuxLen := rfl
  info := rfl
  dictSize := rfl
  err := rfl
  errOffset := rfl
  irq := irq_eq_false rfl

/-- The state after power-on and reset is one that a reset leaves as it is. -/
theorem resetEvent_reset : resetEvent State.reset = State.reset := rfl

theorem registersReset_reset : RegistersReset State.reset :=
  resetEvent_reset ▸ registersReset_resetEvent State.reset

/-! ## The constant registers (R9, R34) -/

theorem readReg_memLast_toNat (s : State) : (readReg .memLast s).hostData.toNat = s.params.memSize - 1 :=
  (Nat.add_sub_cancel s.params.memLast.toNat 1).symm

/-- LZW_DICT_CAP is a 32-bit word (R9). -/
theorem dictCap_lt (p : Params) : p.dictCap < 2 ^ 32 := by
  have hspare := p.dictSpare.isLt
  unfold Params.dictCap
  omega

theorem readReg_dictCap_toNat (s : State) : (readReg .dictCap s).hostData.toNat = s.params.dictCap :=
  (BitVec.toNat_ofNat _ _).trans (Nat.mod_eq_of_lt (dictCap_lt s.params))

/-- Settles O45: a reset leaves the state after reset as it is, so that it has the registers of a reset; the constant
registers answer the parameters of R9 as words. -/
theorem resetState : Obligations.ResetState := by
  obtain ⟨hseq, hctrl, hstatus, hops, hres, haux, hinfo, hdict, herr, hoff, hirq⟩ := registersReset_reset
  exact ⟨hseq, hctrl, hstatus, hops, hres, haux, hinfo, hdict, herr, hoff, hirq, rfl, readReg_memLast_toNat _,
    readReg_dictCap_toNat _⟩

/-! ## What a reset leaves of BUF, the parameters and the queue (R341) -/

theorem step_reset {s : State} {rest : List Event} (h : s.events = .reset :: rest) :
    step s = .next (resetEvent { s with events := rest }) :=
  step_cons h

theorem resetEvent_params (s : State) : (resetEvent s).params = s.params := by
  change (scrambleIf s.busy s).params = s.params
  rw [(scrambleIf_scrambled s.busy s).eq]

theorem resetEvent_events (s : State) : (resetEvent s).events = s.events := by
  change (scrambleIf s.busy s).events = s.events
  rw [(scrambleIf_scrambled s.busy s).eq]

/-- BUF after a reset is BUF with the outputs of a running command freed. -/
theorem resetEvent_mem (s : State) : (resetEvent s).mem = (scrambleIf s.busy s).mem := rfl

theorem resetEvent_mem_of_idle {s : State} (h : s.seqState = .idle) : (resetEvent s).mem = s.mem := by
  rw [resetEvent_mem, busy_eq_false_iff.mpr h]
  rfl

/-- Outside the output regions of the command that a reset abandons, BUF stays (R341). -/
theorem resetEvent_sameOutside (s : State) :
    SameOutside (outputRegions s.phase.command s.latched) s (resetEvent s) :=
  (scrambleIf_scrambled s.busy s).same

/-- Settles O46: serving the reset event gives the registers of a reset, and frees at most the outputs of the command
it abandons. -/
theorem resetAbandonsCommand : Obligations.ResetAbandonsCommand := by
  intro s rest h
  obtain ⟨hseq, hctrl, hstatus, hops, hres, haux, hinfo, hdict, herr, hoff, hirq⟩ :=
    registersReset_resetEvent { s with events := rest }
  exact ⟨_, step_reset h, hseq, hctrl, hstatus, hops, hres, haux, hinfo, hdict, herr, hoff, hirq,
    resetEvent_params _, resetEvent_events _, fun _ => resetEvent_sameOutside { s with events := rest },
    fun hidle => resetEvent_mem_of_idle (s := { s with events := rest }) hidle⟩

/-! ## The invariant after reset (R340) -/

/-- Settles O56: BUF holds no written byte, the storage is fresh, SEQ is IDLE with PROGRESS = 0 and no mark, and the
cleared ERR and INFO are legal words. -/
theorem resetHasInv : Obligations.ResetHasInv where
  memOk := Memory.wf_reset
  errOk := registersReset_reset.err ▸ (by decide : errLegal 0 = true)
  infoOk := registersReset_reset.info ▸ BitVec.zero_and
  progressOk := .inl rfl
  busyFlags _ := ⟨rfl, rfl, rfl⟩
  dictOk := dictOk_of_fresh rfl
  checked _ := .inl rfl
  marksOk _ := ⟨rfl, rfl⟩

end Sys2Proof.Machine
end
